-- ==== Sys2Proof/Word.lean ====
section
/-! DEFINITION. The word types of the IO block (00_scope.md rule R12) and the codes an instruction is read from
(30_encoding.md rules R90 to R96). -/

namespace Sys2Proof

/-- A byte: 8 bits, an unsigned integer 0..255 (R12). -/
abbrev Byte := BitVec 8

/-- A memory address of the facade: ADDR_BITS = 16 bits (R5, R60). -/
abbrev Addr := BitVec 16

/-- A path string, byte by byte. The empty path is the source's "no disk in drive", `EMPTY` (10_state.md R31). -/
abbrev Path := List Byte

/-- MEM_SIZE = 2^ADDR_BITS (R5). -/
abbrev memSize : Nat := 65536

/-- `hi ++ lo` of a 16-bit word (R12). -/
abbrev addrOf (hi lo : Byte) : Addr := (hi ++ lo : BitVec 16)

/-- What an instruction is read from: one constructor per format of 30_encoding.md, carrying the bits.
The level-2 formats say under which state register the byte is read (R93, R94, R96). -/
inductive Code where
  /-- Format `IO`: the 17-bit transaction word `dir ++ port ++ data` (R90). -/
  | io (w : BitVec 17)
  /-- Format `FDCOP`: the byte written to `P_FDC_CMD` while `FDC_SEQ` = `IDLE` (R93). -/
  | fdcOp (b : Byte)
  /-- Format `FDCADDR`: the byte written to `P_FDC_CMD` while `FDC_SEQ` ≠ `IDLE` (R94). -/
  | fdcAddr (b : Byte)
  /-- Format `HWKEY`: the byte written to `P_HWCTL` while `LOCKED` (R96). -/
  | hwKey (b : Byte)
  /-- Format `HWCMD`: the byte written to `P_HWCTL` while `UNLOCKED` (R96). -/
  | hwCmd (b : Byte)
  /-- Format `FDCBLK`: the command block as the notation `kind ++ drive ++ track ++ sector` (R95). -/
  | fdcBlk (w : BitVec 32)
  deriving DecidableEq, Repr

end Sys2Proof
end

