-- ==== Sys2Proof/Config.lean ====
section
/-! DEFINITION. What an implementation fixes (00_scope.md rules R4 to R11), the reference configuration `CFG_REF`, the
names the rules use for states of registers, and the free values: constants with no body, of which nothing can be
proved. -/

namespace Sys2Proof

/-- The nine values of `StatusCode` (R8), in the source's order. -/
inductive StatusCode where
  | ok | badDrive | badTrack | badSector | badDmaAddress | noDisk | seekFailed | readFailed | writeFailed
  deriving DecidableEq, Repr, Inhabited

/-- The draw `so` of the storage-outcome oracle (20_memory.md R70). -/
inductive StorageOutcome where
  | ok | openFail | seekFail | short
  deriving DecidableEq, Repr, Inhabited

/-- `FDC_SEQ` (10_state.md R25). -/
inductive FdcSeq where
  | idle | cmdLo | cmdHi | dmaLo | dmaHi
  deriving DecidableEq, Repr, Inhabited

/-- `HWCTL_LOCK` (R28). -/
inductive Lock where
  | locked | unlocked
  deriving DecidableEq, Repr, Inhabited

/-- `CPU.model` (R34). -/
inductive CpuModel where
  | z80 | i8080
  deriving DecidableEq, Repr, Inhabited

/-- `CPU.cpu_state`: "at least the two values" `RUNNING` and `STOPPED` (R34); `other` stands for the engine's own. -/
inductive CpuState where
  | running | stopped | other (n : Nat)
  deriving DecidableEq, Repr, Inhabited

/-- `CPU.cpu_error`: "at least the three values" `NONE`, `IOERROR`, `IOHALT` (R34); `other` stands for the engine's own. -/
inductive CpuError where
  | none | ioError | ioHalt | other (n : Nat)
  deriving DecidableEq, Repr, Inhabited

/-- The two ports of the real-time clock (R37). -/
inductive RtcPort where
  | cmd | data
  deriving DecidableEq, Repr, Inhabited

/-- `FP2_MODE` (R10). -/
inductive Fp2Mode where
  | switches | mirrorRo
  deriving DecidableEq, Repr, Inhabited

/-- `HWCTL_DOUBLE_UNLOCK` (R10, 43_hwctl.md R210). -/
inductive DoubleUnlock where
  | decode | noop
  deriving DecidableEq, Repr, Inhabited

/-- The parameters of R4 to R11, each a named field. They are fixed for a machine: State carries them so that a
statement can be made for every configuration (log 1), and no rule writes them. -/
structure Config where
  -- geometry and drives (R4)
  numDrives : Nat
  trkMax : Byte
  sptMax : Byte
  secSz : Nat
  -- memory and banks (R5)
  numSeg : BitVec 4
  segSiz : Nat
  -- port numbers (R6)
  pConStatus : Byte
  pConData : Byte
  pFdcStatus : Byte
  pFdcCmd : Byte
  pMmu : Byte
  pRtcCmd : Byte
  pRtcData : Byte
  pHwctl : Byte
  pFp : Byte
  pFp2 : Byte
  -- byte constants and the boot address (R7)
  idleVal : Byte
  lockedVal : Byte
  unlockedVal : Byte
  bootAddr : Addr
  -- status codes (R8)
  stOk : Byte
  stBadDrive : Byte
  stBadTrack : Byte
  stBadSector : Byte
  stBadDmaAddress : Byte
  stNoDisk : Byte
  stSeekFailed : Byte
  stReadFailed : Byte
  stWriteFailed : Byte
  -- the FDC's command language (R9)
  opSetcmd : Byte
  opSetdma : Byte
  opExec : Byte
  kindRead : Byte
  kindWrite : Byte
  -- build options (R10)
  hasZ80 : Bool
  has8080 : Bool
  fp2Mode : Fp2Mode
  doubleUnlock : DoubleUnlock
  resetClearsBank : Bool
  -- the host side (R11, 44_host_disk_registry.md R221, R226)
  baseDir : Path
  diskSubdir : Path
  codeSubdir : Path
  diskExt : Path
  codeExt : Path
  pathLen : Nat
  modelW : Nat
  speedW : Nat
  selZ80 : List Byte
  selI8080 : List Byte
  deriving DecidableEq, Repr

namespace Config

/-- HWCTL_MAGIC: "from the source, not a parameter" (R7). -/
abbrev magic : Byte := 0xAA#8

/-- The nine status-code bytes (R8). -/
abbrev statusBytes (c : Config) : List Byte :=
  [c.stOk, c.stBadDrive, c.stBadTrack, c.stBadSector, c.stBadDmaAddress, c.stNoDisk, c.stSeekFailed,
    c.stReadFailed, c.stWriteFailed]

/-- DMA_ADDR_LIMIT = MEM_SIZE − SEC_SZ (R5). -/
abbrev dmaAddrLimit (c : Config) : Nat := memSize - c.secSz

/-- IMG_SIZE = (TRK_MAX+1) × SPT_MAX × SEC_SZ (R4). -/
abbrev imgSize (c : Config) : Nat := (c.trkMax.toNat + 1) * c.sptMax.toNat * c.secSz

/-- The size of the configuration record (44_host_disk_registry.md R226). -/
abbrev recordSize (c : Config) : Nat := c.modelW + c.speedW + 1 + c.numDrives * c.pathLen

/-- The constraints of R4 to R10 (and 93_implementation_defined.md part 2), and of R226 on the selector encodings. -/
structure Valid (c : Config) : Prop where
  drives_pos : 1 ≤ c.numDrives
  drives_le : c.numDrives ≤ 256
  spt_pos : 1 ≤ c.sptMax.toNat
  sec_pos : 1 ≤ c.secSz
  sec_le : c.secSz ≤ memSize
  seg_le : c.segSiz ≤ memSize
  inPorts : [c.pConStatus, c.pConData, c.pFdcStatus, c.pMmu, c.pRtcCmd, c.pRtcData, c.pHwctl, c.pFp, c.pFp2].Nodup
  outPorts : [c.pConStatus, c.pConData, c.pFdcCmd, c.pMmu, c.pRtcCmd, c.pRtcData, c.pHwctl, c.pFp, c.pFp2].Nodup
  lockVals : c.lockedVal ≠ c.unlockedVal
  codes : c.statusBytes.Nodup
  ops : [c.opSetcmd, c.opSetdma, c.opExec].Nodup
  kinds : c.kindRead ≠ c.kindWrite
  models : (c.hasZ80 || c.has8080) = true
  exts : c.diskExt ≠ c.codeExt
  selZ80_len : c.selZ80.length = c.modelW
  selI8080_len : c.selI8080.length = c.modelW
  sels : c.selZ80 ≠ c.selI8080

/-- `CFG_REF` (R4 to R10). The host-side fields have no `CFG_REF` value (R11): DESIGN CHOICE, log 2. -/
def ref : Config where
  numDrives := 4
  trkMax := 76#8
  sptMax := 26#8
  secSz := 128
  numSeg := 7#4
  segSiz := 0xC000
  pConStatus := 0#8
  pConData := 1#8
  pFdcStatus := 4#8
  pFdcCmd := 4#8
  pMmu := 64#8
  pRtcCmd := 65#8
  pRtcData := 66#8
  pHwctl := 160#8
  pFp := 255#8
  pFp2 := 254#8
  idleVal := 0xFF#8
  lockedVal := 0xFF#8
  unlockedVal := 0x00#8
  bootAddr := 0xFF00#16
  stOk := 0#8
  stBadDrive := 1#8
  stBadTrack := 2#8
  stBadSector := 3#8
  stBadDmaAddress := 4#8
  stNoDisk := 5#8
  stSeekFailed := 6#8
  stReadFailed := 7#8
  stWriteFailed := 8#8
  opSetcmd := 0x10#8
  opSetdma := 0x20#8
  opExec := 0x40#8
  kindRead := 0x01#8
  kindWrite := 0x02#8
  hasZ80 := true
  has8080 := true
  fp2Mode := .mirrorRo
  doubleUnlock := .decode
  resetClearsBank := true
  baseDir := [0x2F#8]                                  -- "/"
  diskSubdir := [0x64#8, 0x2F#8]                       -- "d/"
  codeSubdir := [0x63#8, 0x2F#8]                       -- "c/"
  diskExt := [0x2E#8, 0x44#8]                          -- ".D"
  codeExt := [0x2E#8, 0x43#8]                          -- ".C"
  pathLen := 32
  modelW := 1
  speedW := 2
  selZ80 := [0#8]
  selI8080 := [1#8]

/-! The free values. Each is applied to the number of the draw (State.draws) or the epoch of the memory, and has no
body: a statement about it holds for every value. -/

/-- Byte `i` of draw `n`: console status bits (R124), clock reads (R127, R129), unspecified bytes (R161, R162, R225). -/
opaque freeByte : Nat → Nat → Byte

/-- Number `i` of draw `n`: how far a write beyond the end of a short image grew it (93 U11), how short a read was. -/
opaque freeNat : Nat → Nat → Nat

/-- The byte an unlisted memory key holds in memory epoch `e` (10_state.md R35, 93 U4). -/
opaque freeMem : Nat → Nat → Byte

/-- The storage layer's answer to draw `n` (20_memory.md R70). -/
opaque freeStorage : Nat → StorageOutcome

/-- The CPU engine's own state after it resets itself (43_hwctl.md R205 a, d; 10_state.md R34). -/
opaque freeCpuState : Nat → CpuState

/-- The CPU engine's own error kind after it resets itself (R205 d). -/
opaque freeCpuError : Nat → CpuError

/-- The CPU's PC after the engine resets itself (R34: not in the source). -/
opaque freePc : Nat → Addr

/-- The CPU model after power-on where no record gives it, or where the selector names neither (R34, R226). -/
opaque freeModel : Nat → CpuModel

end Config
end Sys2Proof
end

