-- ==== Sys2Proof/Syntax.lean ====
section
/-! DEFINITION. The instructions of the IO block: one constructor per row of spec/opcode_table.json, in the table's
order. Level 1 are bus transactions, level 2 the command bytes of two ports, level 3 the FDC's command block. -/

namespace Sys2Proof

inductive Instr where
  -- level 1: the transactions (30_encoding.md R90 to R92)
  | inConStatus
  | inConData
  | outConData (value : Byte)
  | inFdcStatus
  | outFdcCmd (value : Byte)
  | inMmu
  | outMmuBankExists (value : Byte)
  | outMmuNoSuchBank (value : Byte)
  | inRtcCmd
  | outRtcCmd (value : Byte)
  | inRtcData
  | outRtcData (value : Byte)
  | inHwctl
  | outHwctl (value : Byte)
  | inFp2
  | outFp2 (value : Byte)
  | inFp
  | outFp (value : Byte)
  | inDefault (port : Byte)
  | outDefault (port value : Byte)
  -- level 2: the byte written to P_FDC_CMD (R93, R94)
  | fdcSetcmd
  | fdcSetdma
  | fdcExec
  | fdcIgnored (op : Byte)
  | fdcAddrbyte (addr8 : Byte)
  -- level 2: the byte written to P_HWCTL (R96); `low` holds the bits the row does not decode
  | hwkeyUnlock
  | hwkeyIgnored (key : Byte)
  | hwKeybyte
  | hwHalt (low : BitVec 7)
  | hwReset (low : BitVec 6)
  | hwZ80 (low : BitVec 5)
  | hwI8080 (low : BitVec 4)
  | hwNop (low : BitVec 4)
  -- level 3: the command block (R95)
  | fdcblkRead (drive track sector : Byte)
  | fdcblkWrite (drive track sector : Byte)
  | fdcblkOther (kind drive track sector : Byte)
  deriving DecidableEq, Repr

end Sys2Proof
end

