-- ==== Sys2Proof/Machine/State.lean ====
section
/-! DEFINITION. The state of the machine (10_state.md), why a step can stop, and the state after reset
(70_reset_and_hazards.md R280). State is plain data. -/

namespace Sys2Proof.Machine

/-- `FDC_CMDBUF`: the 4 bytes of a command block (R26, 30_encoding.md R95). -/
structure CmdBlock where
  kind : Byte
  drive : Byte
  track : Byte
  sector : Byte
  deriving DecidableEq, Repr

/-- The CPU interface state (R34), and the raw CPU speed value of the configuration record (44 R226). -/
structure Cpu where
  pc : Addr
  state : CpuState
  error : CpuError
  model : CpuModel
  speed : List Byte
  deriving DecidableEq, Repr

/-- A file of `FS` (R36): its length and its bytes. `cells` lists the bytes below `size` that are not 0x00, in one
canonical form; an unlisted byte below `size` is 0x00, so every content has exactly one File. -/
structure File where
  size : Nat
  cells : List Host.Cell
  deriving DecidableEq, Repr

/-- A signal to an external collaborator: the CPU engine, the memory unit, the clock, the board (00_scope.md R13). -/
inductive Signal where
  | cpuReset
  | memReset
  | switchCpu (m : CpuModel)
  | rtcOut (p : RtcPort) (b : Byte)
  | ledRead (on : Bool)
  | ledWrite (on : Bool)
  deriving DecidableEq, Repr

/-- `LoadResult` of the bulk loader (44_host_disk_registry.md R225). -/
inductive LoadResult where
  | openFailed | stoppedZero | eof
  deriving DecidableEq, Repr

/-- What a host operation answers. -/
inductive HostResult where
  | mounted (ok : Bool)
  | unmounted
  | verified (count : Nat)
  | names (l : List Path)
  | loaded (r : LoadResult)
  | frontPanelSet
  | recordSaved
  deriving DecidableEq, Repr

/-- The host's operations (44_host_disk_registry.md R220 to R226). -/
inductive HostOp where
  | mount (drive : Nat) (name : Path)
  | unmount (drive : Nat)
  | verifyAll
  | list (directory pattern : Path)
  | loadImage (name : Path)
  | setFrontPanel (b : Byte)
  | saveRecord
  deriving DecidableEq, Repr

/-- What else happens outside the block, between two transactions. -/
inductive EnvEvent where
  /-- Power-on reset (70 R280). -/
  | powerOn
  /-- The console listener observes a break (20 R78, 60 R256). -/
  | breakSignal
  /-- The console transport delivers an input byte (R37). -/
  | conInput (b : Byte)
  /-- The CPU program stores a byte through the facade: `POKE` (30 R103). -/
  | cpuStore (a : Addr) (v : Byte)
  /-- The CPU engine writes its own interface state and the flag it polls (R32, R34). -/
  | cpuEngine (cpu : Cpu) (stopReq : Bool)
  /-- A file of `FS` is added or replaced (R36, 44 R228). -/
  | filePut (p : Path) (content : List Byte)
  /-- A file of `FS` is deleted (R36, 44 R228). -/
  | fileRemove (p : Path)
  /-- The persistent configuration record is replaced or removed (44 R226). -/
  | recordPut (r : Option (List Byte))
  /-- The storage layer settles what it will answer after the outcomes already settled (20 R70). -/
  | storageNext (o : StorageOutcome)
  /-- The storage layer gets stuck, or answers again (41 R166). -/
  | storageStall (stuck : Bool)
  deriving DecidableEq, Repr

/-- One step of the machine: a bus transaction (its `IO` word, 30 R90), a host operation, or an outside event. -/
inductive Event where
  | transaction (w : BitVec 17)
  | host (op : HostOp)
  | env (e : EnvEvent)
  deriving DecidableEq, Repr

/-- Why the machine stops. The spec has no fault of its own (60 R250). -/
inductive Fault where
  /-- The storage layer never answers, so the transaction or host operation that needs it never returns and the whole
  machine hangs (41 R166, 70 R289, 93 U17). Raised by every operation that opens a file while `storageStalled` holds.
  Safe: the hardware makes no step either. -/
  | storageStalled
  deriving DecidableEq, Repr

/-- Why the model answers no next state. No instruction is refused; the host calls named here are calls outside the
precondition the spec sets for them. -/
inductive Refusal where
  /-- An instruction that has no meaning yet; raised by exec's arms only. Safe. -/
  | notModelled (mnemonic : String)
  /-- `mount` or `unmount` of a drive index that is no drive: "a model refuses the call" (44 R220 e). Safe. -/
  | badDriveIndex
  /-- `mount` of a name whose canonical path does not fit the slot (44 R221, 91 N18). Safe. -/
  | pathTooLong
  /-- `load_image` of a file longer than MEM_SIZE: "a model refuses it" (44 R225 d). Safe. -/
  | imageTooLong
  /-- Power-on with a stored record that is not of the fixed size (44 R226). Safe. -/
  | badConfigRecord
  deriving DecidableEq, Repr

/-- The state. Comments give the item's rule in 10_state.md unless another file is named. -/
structure State where
  /-- The parameters (00_scope.md R4 to R11): fixed for a machine, written by no step. -/
  cfg : Config
  /-- `BANK_SEL` (R21). -/
  bankSel : BitVec 4
  /-- `FDC_STAT` (R22). -/
  fdcStat : Byte
  /-- `FDC_CMDADDR` (R23). -/
  fdcCmdAddr : Addr
  /-- `FDC_DMAADDR` (R24). -/
  fdcDmaAddr : Addr
  /-- `FDC_SEQ` (R25). -/
  fdcSeq : FdcSeq
  /-- `FDC_CMDBUF` (R26). -/
  fdcCmdBuf : CmdBlock
  /-- `SECBUF` (R27). -/
  secBuf : List Byte
  /-- `HWCTL_LOCK` (R28). -/
  hwctlLock : Lock
  /-- `FP_VALUE` (R29). -/
  fpValue : Byte
  /-- `CON_LAST` (R30). -/
  conLast : Byte
  /-- `DISK[0..NUM_DRIVES−1]` (R31); the empty path is `EMPTY`. -/
  disk : List Path
  /-- `STOP_REQ` (R32). -/
  stopReq : Bool
  /-- The CPU interface (R34). -/
  cpu : Cpu
  /-- `MEM` (R35): byte `a` of bank `k` under key `k * 65536 + a`, in canonical form. -/
  mem : List Host.Cell
  /-- The model's own: which free contents the unlisted bytes of `mem` have (log 12). -/
  memEpoch : Nat
  /-- `FS` (R36), no path twice. -/
  fs : List (Path × File)
  /-- The persistent configuration record (44_host_disk_registry.md R226). -/
  record : Option (List Byte)
  /-- The console input buffered by the transport, oldest first (R37). -/
  conIn : List Byte
  /-- The console output stream (R37). -/
  conOut : List Byte
  /-- `LED_READ` (R38). -/
  ledRead : Bool
  /-- `LED_WRITE` (R38). -/
  ledWrite : Bool
  /-- What the storage layer answers to the next draws (20_memory.md R70); once empty, its answers are free (log 17). -/
  storage : List StorageOutcome
  /-- The storage layer never answers (41_fdc.md R166). -/
  storageStalled : Bool
  /-- The model's own: how many free values have been drawn (log 22). -/
  draws : Nat
  /-- The model's own: the signals emitted so far, oldest first (log 25). -/
  signals : List Signal
  /-- The model's own: the byte the last transaction returned; none after an `OUT` (log 6). -/
  result : Option Byte
  /-- The model's own: what the last host operation answered (log 6). -/
  hostResult : Option HostResult
  /-- The model's own: what happens next, in order (log 3). -/
  pending : List Event
  deriving DecidableEq, Repr

/-- The machine right after power-on reset in `CFG_REF` with no configuration record (70 R280). The spec gives BANK_SEL,
FDC_STAT, FDC_CMDADDR, FDC_DMAADDR, FDC_SEQ, HWCTL_LOCK, DISK, STOP_REQ and the LEDs; every other value is a DESIGN
CHOICE (logs 3, 6, 8 to 13, 17, 18, 22, 25). -/
def State.reset : State where
  cfg := Config.ref
  bankSel := 0#4
  fdcStat := Config.ref.stOk
  fdcCmdAddr := 0#16
  fdcDmaAddr := 0#16
  fdcSeq := .idle
  fdcCmdBuf := ⟨0#8, 0#8, 0#8, 0#8⟩
  secBuf := List.replicate Config.ref.secSz 0#8
  hwctlLock := .locked
  fpValue := 0#8
  conLast := 0#8
  disk := List.replicate Config.ref.numDrives []
  stopReq := false
  cpu := ⟨0#16, .running, .none, .z80, List.replicate Config.ref.speedW 0#8⟩
  mem := []
  memEpoch := 1
  fs := []
  record := none
  conIn := []
  conOut := []
  ledRead := false
  ledWrite := false
  storage := []
  storageStalled := false
  draws := 0
  signals := []
  result := none
  hostResult := none
  pending := []

end Sys2Proof.Machine
end

