-- ==== Sys2Proof/Machine/Ops.lean ====
section
/-! DEFINITION. The named operations over memory, files, draws and registers that every meaning uses, and the shared
operations that change the CPU interface: the halt (60_exceptions.md R259) and the two resets of HW.RESET. -/

namespace Sys2Proof.Machine

/-- The outcome of an instruction. -/
abbrev Result := Host.Outcome State Fault Refusal

/-! ## Cells: a byte array as the list of the cells that differ from a background -/

/-- The byte under key `k`; an unlisted key reads as the background. -/
def Cells.get (bg : Nat → Byte) (k : Nat) : List Host.Cell → Byte
  | [] => bg k
  | c :: cs => if c.1 = k then c.2 else Cells.get bg k cs

/-- Lists `v` under `k`, keys rising. -/
def Cells.put (k : Nat) (v : Byte) : List Host.Cell → List Host.Cell
  | [] => [(k, v)]
  | c :: cs =>
    if k < c.1 then (k, v) :: c :: cs
    else if k = c.1 then (k, v) :: cs
    else c :: Cells.put k v cs

/-- Lists nothing under `k`. -/
def Cells.del (k : Nat) : List Host.Cell → List Host.Cell
  | [] => []
  | c :: cs => if c.1 = k then Cells.del k cs else c :: Cells.del k cs

/-- Stores `v` under `k`; storing what an unlisted key reads as removes the entry, so the form stays canonical. -/
def Cells.set (bg : Nat → Byte) (k : Nat) (v : Byte) (cs : List Host.Cell) : List Host.Cell :=
  if v = bg k then Cells.del k cs else Cells.put k v cs

/-- Stores a list of bytes at ascending keys. -/
def Cells.setRange (bg : Nat → Byte) (k : Nat) : List Byte → List Host.Cell → List Host.Cell
  | [], cs => cs
  | b :: bs, cs => Cells.setRange bg (k + 1) bs (Cells.set bg k b cs)

/-- The canonical form: keys strictly rising, no entry equal to what an unlisted key reads as. -/
abbrev Cells.Wf (bg : Nat → Byte) (cs : List Host.Cell) : Prop :=
  cs.Pairwise (fun a b => a.1 < b.1) ∧ ∀ c ∈ cs, c.2 ≠ bg c.1

/-! ## The memory facade (20_memory.md R60, R61) -/

/-- What an unlisted memory byte reads as: in epoch `e ≥ 1` a free value, since the content of memory at launch and after
a memory reset is "a free input" (10_state.md R35, 93 U4); in epoch 0, which no run from reset has, 0x00, for a state
whose memory is written out in full (log 12). -/
def memBackground (epoch key : Nat) : Byte :=
  match epoch with
  | 0 => 0#8
  | e + 1 => Config.freeMem e key

/-- `Phys(addr)` of R61 as a key: byte `a` of BANK0 is key `a`, of BANK[k] key `k * 65536 + a` (log 14). -/
def State.phys (s : State) (a : Addr) : Nat :=
  if s.bankSel = 0#4 ∨ s.cfg.segSiz ≤ a.toNat then a.toNat else s.bankSel.toNat * memSize + a.toNat

/-- The memory byte under a physical key. -/
def State.byteAt (s : State) (key : Nat) : Byte :=
  Cells.get (memBackground s.memEpoch) key s.mem

/-- `MemRead(addr, 1)`: cannot fail, no side effect (R60). -/
def State.memRead (s : State) (a : Addr) : Byte :=
  s.byteAt (s.phys a)

/-- `MemWrite(addr, 1, v)` (R60). -/
def State.memWrite (s : State) (a : Addr) (v : Byte) : State :=
  { s with mem := Cells.set (memBackground s.memEpoch) (s.phys a) v s.mem }

/-- `MemRead(addr, n)`: bytes addr+0 .. addr+n−1, ascending (00_scope.md R13). -/
def State.memReadN (s : State) (a : Addr) (n : Nat) : List Byte :=
  (List.range n).map fun i => s.memRead (a + BitVec.ofNat 16 i)

/-- `MemWrite(addr, n, bytes)`: `bytes[i]` at addr+i, ascending (R13). -/
def State.memWriteN (s : State) (a : Addr) : List Byte → State
  | [] => s
  | b :: bs => (s.memWrite a b).memWriteN (a + 1#16) bs

/-- The canonical form of the memory. -/
abbrev Memory.wf (s : State) : Prop :=
  Cells.Wf (memBackground s.memEpoch) s.mem

/-! ## Draws -/

/-- One free value has been drawn. -/
def State.drawn (s : State) : State :=
  { s with draws := s.draws + 1 }

/-- `n` unspecified bytes of the current draw. -/
def State.freeBytes (s : State) (n : Nat) : List Byte :=
  (List.range n).map (Config.freeByte s.draws)

/-- The storage layer's next answer: the settled one, or a free one (log 17). -/
def State.nextOutcome (s : State) : StorageOutcome :=
  match s.storage with
  | o :: _ => o
  | [] => Config.freeStorage s.draws

/-- The state once that answer is consumed. -/
def State.outcomeTaken (s : State) : State :=
  match s.storage with
  | _ :: rest => { s with storage := rest }
  | [] => s.drawn

/-! ## Files (10_state.md R36, 20_memory.md R70) -/

/-- An unlisted byte of a file is 0x00. -/
def File.background (_ : Nat) : Byte := 0#8

/-- Byte `i` of a file. -/
def File.byte (f : File) (i : Nat) : Byte :=
  Cells.get File.background i f.cells

/-- Bytes off .. off+n−1. -/
def File.read (f : File) (off n : Nat) : List Byte :=
  (List.range n).map fun i => f.byte (off + i)

/-- Replaces the bytes from `off` on, and no others. -/
def File.write (f : File) (off : Nat) (bytes : List Byte) : File :=
  { f with cells := Cells.setRange File.background off bytes f.cells }

/-- The cells of a content whose first byte is at `k`. -/
def File.cellsFrom (k : Nat) : List Byte → List Host.Cell
  | [] => []
  | b :: bs => if b = 0#8 then File.cellsFrom (k + 1) bs else (k, b) :: File.cellsFrom (k + 1) bs

/-- The file of a content. -/
def File.ofBytes (content : List Byte) : File :=
  ⟨content.length, File.cellsFrom 0 content⟩

/-- The file after a write of `n` bytes at `off` whose effect is unspecified (93 U5, U11): the target bytes are free; a
target beyond the end may have grown the file, by any amount up to the target's end, and then the bytes between the old
end and the target are free too. `d` is the number of the draw. -/
def File.scramble (f : File) (off n d : Nat) : File :=
  let size := f.size + Config.freeNat d 0 % (off + n - f.size + 1)
  let lo := min off f.size
  let hi := min (off + n) size
  { size := size
    cells := Cells.setRange File.background lo ((List.range (hi - lo)).map (Config.freeByte d)) f.cells }

/-- Every byte of a file lies below its size, in canonical form. -/
abbrev File.Wf (f : File) : Prop :=
  Cells.Wf File.background f.cells ∧ ∀ c ∈ f.cells, c.1 < f.size

/-- The file under a path. -/
def Fs.get (p : Path) : List (Path × File) → Option File
  | [] => none
  | e :: es => if e.1 = p then some e.2 else Fs.get p es

/-- Puts a file under a path, in place of the one that is there. -/
def Fs.set (p : Path) (f : File) : List (Path × File) → List (Path × File)
  | [] => [(p, f)]
  | e :: es => if e.1 = p then (p, f) :: es else e :: Fs.set p f es

/-- Removes the file under a path. -/
def Fs.del (p : Path) : List (Path × File) → List (Path × File)
  | [] => []
  | e :: es => if e.1 = p then Fs.del p es else e :: Fs.del p es

/-- `FS[path]`. -/
def State.fileOf (s : State) (p : Path) : Option File :=
  Fs.get p s.fs

/-- `FS[path] <- f`. -/
def State.setFile (s : State) (p : Path) (f : File) : State :=
  { s with fs := Fs.set p f s.fs }

/-- `DISK[d]`, the empty path being `EMPTY` (10_state.md R31). -/
def State.slot (s : State) (d : Nat) : Path :=
  s.disk.getD d []

/-! ## Registers and signals -/

/-- An `IN` returns its byte (40 R120). -/
def State.answer (s : State) (b : Byte) : State :=
  { s with result := some b }

/-- An `OUT` returns no result (R121). -/
def State.noAnswer (s : State) : State :=
  { s with result := none }

/-- `signal X` (00_scope.md R13). -/
def State.signal (s : State) (x : Signal) : State :=
  { s with signals := s.signals ++ [x] }

/-- `signal LedRead(on/off)` (10_state.md R38). -/
def State.setLedRead (s : State) (on : Bool) : State :=
  { s with ledRead := on, signals := s.signals ++ [.ledRead on] }

/-- `signal LedWrite(on/off)` (R38). -/
def State.setLedWrite (s : State) (on : Bool) : State :=
  { s with ledWrite := on, signals := s.signals ++ [.ledWrite on] }

/-- `HWCTL_LOCK <- l`. -/
def State.setLock (s : State) (l : Lock) : State :=
  { s with hwctlLock := l }

/-- `SECBUF <- bytes`. -/
def State.setSecBuf (s : State) (bytes : List Byte) : State :=
  { s with secBuf := bytes }

/-- `SECBUF <- unspecified`: after a failed read each of its SEC_SZ bytes is a free value (10_state.md R27; logs 21, 42). -/
def State.secBufUnspecified (s : State) : State :=
  { s with secBuf := s.freeBytes s.cfg.secSz, draws := s.draws + 1 }

/-- `FDC_STAT <- b`. -/
def State.setFdcStat (s : State) (b : Byte) : State :=
  { s with fdcStat := b }

/-- `CPU.model <- m`, with the signal to the engine (43_hwctl.md R206, R207). DESIGN CHOICE (log 43): "what the CPU engine
does on a switch beyond changing the variant" is outside the source; in this step cpu_state, cpu_error and the speed value
stay, and what the engine does on the signal is an event `cpuEngine` of its own. -/
def State.switchCpu (s : State) (m : CpuModel) : State :=
  { s with cpu := { s.cpu with model := m }, signals := s.signals ++ [.switchCpu m] }

/-! ## Stopping and resetting the CPU -/

/-- The halt, the one way the block stops the CPU: it writes exactly `cpu_error` and `cpu_state` and saves nothing
(60_exceptions.md R253, R254, R259). The block has no return from it (R260). -/
def State.haltCpu (s : State) (kind : CpuError) : State :=
  { s with cpu := { s.cpu with error := kind, state := .stopped } }

/-- `signal CpuReset()`: the engine resets its own state, and what that leaves is the engine's business, so its PC, state
and error kind are free (43_hwctl.md R205 a, d; log 16). -/
def State.cpuReset (s : State) : State :=
  { s with
    cpu := { s.cpu with
      pc := Config.freePc s.draws
      state := Config.freeCpuState s.draws
      error := Config.freeCpuError s.draws }
    draws := s.draws + 1
    signals := s.signals ++ [.cpuReset] }

/-- `signal MemReset()`: every memory byte is a free value afterwards (R205 b, 93 U4; log 15). -/
def State.memReset (s : State) : State :=
  { s with mem := [], memEpoch := s.memEpoch + 1, signals := s.signals ++ [.memReset] }

/-- `if HWCTL_RESET_CLEARS_BANK then BANK_SEL <- 0` (R205). -/
def State.resetBank (s : State) : State :=
  { s with bankSel := if s.cfg.resetClearsBank then 0#4 else s.bankSel }

/-- `CPU.PC <- BOOT_ADDR`, the only control transfer of the block (60 R250). -/
def State.jumpToBoot (s : State) : State :=
  { s with cpu := { s.cpu with pc := s.cfg.bootAddr } }

/-- `HwReset()` (43_hwctl.md R205): the two resets, the bank selector, and last the program counter. -/
def State.hwReset (s : State) : State :=
  s.cpuReset.memReset.resetBank.jumpToBoot

end Sys2Proof.Machine
end

