-- ==== Sys2Proof/Machine/Operands.lean ====
section
/-! DEFINITION. Operand forms: assembling the two 16-bit addresses, the command block, the sector offset, the emitted
console byte, and the image paths. -/

namespace Sys2Proof.Machine

/-- `A[7:0] <- b` (41_fdc.md R151, 30_encoding.md R94). -/
def setLowByte (a : Addr) (b : Byte) : Addr :=
  addrOf (a.extractLsb' 8 8) b

/-- `A[15:8] <- b` (R151, R94). -/
def setHighByte (a : Addr) (b : Byte) : Addr :=
  addrOf b (a.extractLsb' 0 8)

/-- `FdcFetchBlock`: the 4 bytes at FDC_CMDADDR, the address wrapping modulo MEM_SIZE (41_fdc.md R157). -/
def State.fetchBlock (s : State) : CmdBlock where
  kind := s.memRead s.fdcCmdAddr
  drive := s.memRead (s.fdcCmdAddr + 1#16)
  track := s.memRead (s.fdcCmdAddr + 2#16)
  sector := s.memRead (s.fdcCmdAddr + 3#16)

/-- `Offset(track, sector)` in unbounded naturals (20_memory.md R68). -/
def sectorOffset (c : Config) (track sector : Byte) : Nat :=
  (track.toNat * c.sptMax.toNat + (sector.toNat - 1)) * c.secSz

/-- What `OUT CON_DATA` emits: bit 7 discarded (30_encoding.md R98). -/
def emittedByte (v : Byte) : Byte :=
  v &&& 0x7F#8

/-- ASCII upper case: a..z to A..Z, other bytes alone (44_host_disk_registry.md R221). -/
def upperByte (b : Byte) : Byte :=
  if 0x61#8 ≤ b ∧ b ≤ 0x7A#8 then b - 0x20#8 else b

/-- `CanonicalPath(name)`: it depends on the name alone (R221, 90 C4). -/
def canonicalPath (c : Config) (name : Path) : Path :=
  c.baseDir ++ c.diskSubdir ++ name.map upperByte ++ c.diskExt

/-- `CodePath(name)` (R221). -/
def codePath (c : Config) (name : Path) : Path :=
  c.baseDir ++ c.codeSubdir ++ name.map upperByte ++ c.codeExt

end Sys2Proof.Machine
end

