-- ==== Sys2Proof/Machine/Flags.lean ====
section
/-! DEFINITION. What a program can test (10_state.md R40: the block has no flags): the status codes and the request
checks that choose among them, the lock status byte, the console status byte and the packed MMU byte. -/

namespace Sys2Proof.Machine

/-- `Code`: the byte of a status code (00_scope.md R8). -/
def statusByte (c : Config) : StatusCode → Byte
  | .ok => c.stOk
  | .badDrive => c.stBadDrive
  | .badTrack => c.stBadTrack
  | .badSector => c.stBadSector
  | .badDmaAddress => c.stBadDmaAddress
  | .noDisk => c.stNoDisk
  | .seekFailed => c.stSeekFailed
  | .readFailed => c.stReadFailed
  | .writeFailed => c.stWriteFailed

/-- `Validate(drive, track, sector, addr)`: "first failing check wins, short-circuits"; `none` is PASS (41_fdc.md R159). -/
def State.validate (s : State) (drive track sector : Byte) (addr : Addr) : Option StatusCode :=
  if s.cfg.numDrives ≤ drive.toNat then some .badDrive
  else if s.cfg.trkMax.toNat < track.toNat then some .badTrack
  else if sector.toNat < 1 ∨ s.cfg.sptMax.toNat < sector.toNat then some .badSector
  else if s.cfg.dmaAddrLimit < addr.toNat then some .badDmaAddress
  else if s.slot drive.toNat = [] then some .noDisk
  else none

/-- The lock status byte (43_hwctl.md R200). -/
def State.lockByte (s : State) : Byte :=
  match s.hwctlLock with
  | .locked => s.cfg.lockedVal
  | .unlocked => s.cfg.unlockedVal

/-- The packed MMU byte `(NUMSEG << 4) | BANK_SEL` (42_mmu.md R190, 30_encoding.md R97). -/
def State.mmuByte (s : State) : Byte :=
  (s.cfg.numSeg ++ s.bankSel : BitVec 8)

/-- `ConAvail()` (10_state.md R37). -/
def State.conAvail (s : State) : Bool :=
  !s.conIn.isEmpty

/-- The console status byte: bit 0 is 0 when a byte is available, bits 7:1 are drawn (40_port_dispatch.md R124). -/
def State.conStatusByte (s : State) : Byte :=
  ((Config.freeByte s.draws 0).extractLsb' 1 7 ++ (if s.conAvail then 0#1 else 1#1) : BitVec 8)

end Sys2Proof.Machine
end

