-- ==== Sys2Proof/Machine/Clock.lean ====
section
/-! DEFINITION. The real-time-clock ports (40_port_dispatch.md R127 to R130): a read is a draw, a write goes to the
external collaborator. -/

namespace Sys2Proof.Machine

/-- `RtcIn(p)`: any byte (R127, R129; log 23). -/
def State.rtcIn (s : State) : Result :=
  .next (s.drawn.answer (Config.freeByte s.draws 0))

/-- `RtcOut(p, b)`: changes nothing of the block (R128, R130). -/
def State.rtcOut (s : State) (p : RtcPort) (b : Byte) : Result :=
  .next (s.noAnswer.signal (.rtcOut p b))

/-- `IN RTC_CMD` (R127). -/
def execInRtcCmd (s : State) : Result := s.rtcIn

/-- `OUT RTC_CMD` (R128). -/
def execOutRtcCmd (value : Byte) (s : State) : Result := s.rtcOut .cmd value

/-- `IN RTC_DATA` (R129). -/
def execInRtcData (s : State) : Result := s.rtcIn

/-- `OUT RTC_DATA` (R130). -/
def execOutRtcData (value : Byte) (s : State) : Result := s.rtcOut .data value

end Sys2Proof.Machine
end

