-- ==== Sys2Proof/Machine/Console.lean ====
section
/-! DEFINITION. The console ports (40_port_dispatch.md R124 to R126). -/

namespace Sys2Proof.Machine

/-- `IN CON_STATUS` (R124): consumes nothing of the stream. -/
def execInConStatus (s : State) : Result :=
  .next (s.drawn.answer s.conStatusByte)

/-- `ConIn()`: takes the oldest buffered byte into `CON_LAST`, when there is one (R125). -/
def State.conTake (s : State) : State :=
  match s.conIn with
  | [] => s
  | b :: rest => { s with conLast := b, conIn := rest }

/-- `IN CON_DATA` (R125): never blocks; with nothing available it returns the byte of last time. -/
def execInConData (s : State) : Result :=
  .next (s.conTake.answer s.conTake.conLast)

/-- `OUT CON_DATA` (R126): emits `value & 0x7F`. -/
def execOutConData (value : Byte) (s : State) : Result :=
  .next { s.noAnswer with conOut := s.conOut ++ [emittedByte value] }

end Sys2Proof.Machine
end

