-- ==== Sys2Proof/Machine/Fdc.lean ====
section
/-! DEFINITION. The FDC (41_fdc.md): the status port, the command-port sequencer, the command decode and the Sector I/O
Engine. -/

namespace Sys2Proof.Machine

/-! ## The Sector I/O Engine -/

/-- The outcome of the sector operation under way, by the laws of 20_memory.md R70: (a) a path that is not in `FS` does
not open; (b) a read not wholly inside the file does not succeed, and where nothing else failed it is a short read
(R69); (c) otherwise the storage layer's own answer. -/
def State.sectorOutcome (s : State) (reading : Bool) (path : Path) (off : Nat) : StorageOutcome :=
  match s.fileOf path with
  | none => .openFail
  | some f =>
    if reading && decide (f.size < off + s.cfg.secSz) && decide (s.nextOutcome = .ok) then .short
    else s.nextOutcome

/-- `ReadSector` after its validation passed (R161), less the answer of the storage layer and the indicator. -/
def State.readTransfer (s : State) (so : StorageOutcome) (path : Path) (off : Nat) (addr : Addr) : StatusCode × State :=
  match so with
  | .openFail => (.noDisk, s)
  | .seekFail => (.seekFailed, s)
  | .short => (.readFailed, s.secBufUnspecified)
  | .ok =>
    match s.fileOf path with
    | none => (.noDisk, s)
    | some f => (.ok, (s.setSecBuf (f.read off s.cfg.secSz)).memWriteN addr (f.read off s.cfg.secSz))

/-- The image file after a write of a full sector: exactly the sector's bytes change, when they lie inside it; what a
write beyond the end of a short image does is unspecified (20_memory.md R69, 93 U11). -/
def File.writeSector (f : File) (off d : Nat) (bytes : List Byte) : File :=
  if off + bytes.length ≤ f.size then f.write off bytes else f.scramble off bytes.length d

/-- `WriteSector` after its validation passed (R162), less the answer of the storage layer and the indicator. -/
def State.writeTransfer (s : State) (so : StorageOutcome) (path : Path) (off : Nat) (addr : Addr) : StatusCode × State :=
  match so with
  | .openFail => (.noDisk, s)
  | .seekFail => (.seekFailed, s)
  | .short =>
    match s.fileOf path with
    | none => (.noDisk, s)
    | some f =>
      (.writeFailed,
        ((s.setSecBuf (s.memReadN addr s.cfg.secSz)).setFile path (f.scramble off s.cfg.secSz s.draws)).drawn)
  | .ok =>
    match s.fileOf path with
    | none => (.noDisk, s)
    | some f =>
      (.ok,
        ((s.setSecBuf (s.memReadN addr s.cfg.secSz)).setFile path
          (f.writeSector off s.draws (s.memReadN addr s.cfg.secSz))).drawn)

/-- `ReadSector(drive, track, sector, addr)` (R161). A storage layer that never answers is the fault of R166. -/
def State.readSector (s : State) (drive track sector : Byte) (addr : Addr) : Except Fault (StatusCode × State) :=
  match s.validate drive track sector addr with
  | some code => .ok (code, s)
  | none =>
    if s.storageStalled then .error .storageStalled
    else
      let path := s.slot drive.toNat
      let off := sectorOffset s.cfg track sector
      let r := ((s.setLedRead true).outcomeTaken).readTransfer (s.sectorOutcome true path off) path off addr
      .ok (r.1, r.2.setLedRead false)

/-- `WriteSector(drive, track, sector, addr)` (R162). -/
def State.writeSector (s : State) (drive track sector : Byte) (addr : Addr) : Except Fault (StatusCode × State) :=
  match s.validate drive track sector addr with
  | some code => .ok (code, s)
  | none =>
    if s.storageStalled then .error .storageStalled
    else
      let path := s.slot drive.toNat
      let off := sectorOffset s.cfg track sector
      let r := ((s.setLedWrite true).outcomeTaken).writeTransfer (s.sectorOutcome false path off) path off addr
      .ok (r.1, r.2.setLedWrite false)

/-- `FDC_STAT <- Code(...)`: each call stores exactly one code (R154, R164). -/
def State.finishSector (r : Except Fault (StatusCode × State)) : Result :=
  match r with
  | .error e => .fault e
  | .ok (code, t) => .next ((t.setFdcStat (statusByte t.cfg code)).noAnswer)

/-! ## The command block -/

/-- `FDCBLK.READ` (R154, R161). -/
def execFdcblkRead (drive track sector : Byte) (s : State) : Result :=
  State.finishSector (s.readSector drive track sector s.fdcDmaAddr)

/-- `FDCBLK.WRITE` (R154, R162). -/
def execFdcblkWrite (drive track sector : Byte) (s : State) : Result :=
  State.finishSector (s.writeSector drive track sector s.fdcDmaAddr)

/-- `FDCBLK.OTHER`: no sector operation is called, FDC_STAT is unchanged (R158). -/
def execFdcblkOther (_kind _drive _track _sector : Byte) (s : State) : Result :=
  .next s.noAnswer

/-! ## The command port -/

/-- `FDC.SETCMD` (R152). -/
def execFdcSetcmd (s : State) : Result :=
  .next { s.noAnswer with fdcSeq := .cmdLo }

/-- `FDC.SETDMA` (R153). -/
def execFdcSetdma (s : State) : Result :=
  .next { s.noAnswer with fdcSeq := .dmaLo }

/-- `FDC.EXEC` (R154): the block is fetched whole, then decoded and run; `FDC_SEQ` is not written. -/
def execFdcExec (s : State) : Result :=
  let b := s.fetchBlock
  let t := { s with fdcCmdBuf := b }
  if b.kind = t.cfg.kindRead then execFdcblkRead b.drive b.track b.sector t
  else if b.kind = t.cfg.kindWrite then execFdcblkWrite b.drive b.track b.sector t
  else execFdcblkOther b.kind b.drive b.track b.sector t

/-- `FDC.IGNORED` (R155). -/
def execFdcIgnored (_op : Byte) (s : State) : Result :=
  .next s.noAnswer

/-- `FDC.ADDRBYTE`: the four non-`IDLE` arms of R151 (R156). In `IDLE` no byte is an address byte and nothing is
written. -/
def execFdcAddrbyte (addr8 : Byte) (s : State) : Result :=
  match s.fdcSeq with
  | .idle => .next s.noAnswer
  | .cmdLo => .next { s.noAnswer with fdcCmdAddr := setLowByte s.fdcCmdAddr addr8, fdcSeq := .cmdHi }
  | .cmdHi => .next { s.noAnswer with fdcCmdAddr := setHighByte s.fdcCmdAddr addr8, fdcSeq := .idle }
  | .dmaLo => .next { s.noAnswer with fdcDmaAddr := setLowByte s.fdcDmaAddr addr8, fdcSeq := .dmaHi }
  | .dmaHi => .next { s.noAnswer with fdcDmaAddr := setHighByte s.fdcDmaAddr addr8, fdcSeq := .idle }

/-- `OUT FDC_CMD` (R151): the byte is read under `FDC_SEQ`, and the row it is does the rest. -/
def execOutFdcCmd (value : Byte) (s : State) : Result :=
  match s.fdcSeq with
  | .idle =>
    if value = s.cfg.opSetcmd then execFdcSetcmd s
    else if value = s.cfg.opSetdma then execFdcSetdma s
    else if value = s.cfg.opExec then execFdcExec s
    else execFdcIgnored value s
  | .cmdLo | .cmdHi | .dmaLo | .dmaHi => execFdcAddrbyte value s

/-- `IN FDC_STATUS` (R150). -/
def execInFdcStatus (s : State) : Result :=
  .next (s.answer s.fdcStat)

end Sys2Proof.Machine
end

