-- ==== Sys2Proof/Machine/FrontPanel.lean ====
section
/-! DEFINITION. The front-panel ports (40_port_dispatch.md R131 to R134) and the default handlers of unbound ports
(R122, R123). -/

namespace Sys2Proof.Machine

/-- `IN FP` (R131). -/
def execInFp (s : State) : Result :=
  .next (s.answer s.fpValue)

/-- `OUT FP` (R132). -/
def execOutFp (value : Byte) (s : State) : Result :=
  .next { s.noAnswer with fpValue := value }

/-- `IN FP2` (R133): the same byte in both modes. -/
def execInFp2 (s : State) : Result :=
  .next (s.answer s.fpValue)

/-- `OUT FP2` (R134): writes in `SWITCHES` only. -/
def execOutFp2 (value : Byte) (s : State) : Result :=
  match s.cfg.fp2Mode with
  | .switches => .next { s.noAnswer with fpValue := value }
  | .mirrorRo => .next s.noAnswer

/-- `IN DEFAULT` (R122): the fixed idle value, the same on every unbound port. -/
def execInDefault (_port : Byte) (s : State) : Result :=
  .next (s.answer s.cfg.idleVal)

/-- `OUT DEFAULT` (R123): nothing. -/
def execOutDefault (_port _value : Byte) (s : State) : Result :=
  .next s.noAnswer

end Sys2Proof.Machine
end

