-- ==== Sys2Proof/WellFormed.lean ====
section
/-! DEFINITION. Which instructions are well formed in a configuration: an instruction whose row applies only to some
operand values (the "any other value" rows, the two MMU rows) has such a value. -/

namespace Sys2Proof

/-- The port has an IN binding in the port map (30_encoding.md R92). -/
def Config.boundIn (c : Config) (p : Byte) : Bool :=
  [c.pConStatus, c.pConData, c.pFdcStatus, c.pMmu, c.pRtcCmd, c.pRtcData, c.pHwctl, c.pFp, c.pFp2].contains p

/-- The port has an OUT binding in the port map: the console status port has none (R92). -/
def Config.boundOut (c : Config) (p : Byte) : Bool :=
  [c.pConData, c.pFdcCmd, c.pMmu, c.pRtcCmd, c.pRtcData, c.pHwctl, c.pFp, c.pFp2].contains p

/-- One of the three operation bytes of the FDC command port (R93). -/
def Config.isFdcOp (c : Config) (b : Byte) : Bool :=
  [c.opSetcmd, c.opSetdma, c.opExec].contains b

/-- Bank `b` exists: the whole byte compared with `NUMSEG` as a natural number (42_mmu.md R191, R192). -/
def Config.bankExists (c : Config) (b : Byte) : Bool :=
  b.toNat ≤ c.numSeg.toNat

/-- The operand conditions of the rows of the opcode table. -/
def Instr.wf (c : Config) : Instr → Bool
  | .outMmuBankExists v => c.bankExists v
  | .outMmuNoSuchBank v => !c.bankExists v
  | .inDefault p => !c.boundIn p
  | .outDefault p _ => !c.boundOut p
  | .fdcIgnored op => !c.isFdcOp op
  | .hwkeyIgnored key => key != Config.magic
  | .hwHalt low => (1#1 ++ low : BitVec 8) != Config.magic
  | .fdcblkOther kind _ _ _ => kind != c.kindRead && kind != c.kindWrite
  | .inConStatus | .inConData | .outConData _ | .inFdcStatus | .outFdcCmd _ | .inMmu | .inRtcCmd | .outRtcCmd _
  | .inRtcData | .outRtcData _ | .inHwctl | .outHwctl _ | .inFp2 | .outFp2 _ | .inFp | .outFp _ | .fdcSetcmd
  | .fdcSetdma | .fdcExec | .fdcAddrbyte _ | .hwkeyUnlock | .hwKeybyte | .hwReset _ | .hwZ80 _ | .hwI8080 _ | .hwNop _
  | .fdcblkRead _ _ _ | .fdcblkWrite _ _ _ => true

end Sys2Proof
end

