-- ==== Sys2Proof/Decode.lean ====
section
/-! DEFINITION. The decoder: the dispatch tables `PORT_IN` and `PORT_OUT` and the readings of the command bytes and of
the command block (30_encoding.md). It is total and never refuses a code (R100); what it refuses, by name, is a word
that is no code (`decodeBits`). After it the encoder. -/

namespace Sys2Proof

/-- `PORT_IN` (10_state.md R33, R92): what an `IN` of this port is; the last line is the explicit default entry. -/
def portIn (c : Config) (p : Byte) : Instr :=
  if p = c.pConStatus then .inConStatus
  else if p = c.pConData then .inConData
  else if p = c.pFdcStatus then .inFdcStatus
  else if p = c.pMmu then .inMmu
  else if p = c.pRtcCmd then .inRtcCmd
  else if p = c.pRtcData then .inRtcData
  else if p = c.pHwctl then .inHwctl
  else if p = c.pFp2 then .inFp2
  else if p = c.pFp then .inFp
  else .inDefault p

/-- Bank `b` is selectable: the whole byte compared with `NUMSEG` as a natural number (30_encoding.md R97, 42_mmu.md R191). -/
def Config.hasBank (c : Config) (b : Byte) : Bool :=
  decide (b.toNat ≤ c.numSeg.toNat)

/-- `PORT_OUT` (R33, R92): what an `OUT` of value `v` to this port is. The MMU port has two rows, told apart by the value
compare `v ≤ NUMSEG` (R191, R192). -/
def portOut (c : Config) (p v : Byte) : Instr :=
  if p = c.pConData then .outConData v
  else if p = c.pFdcCmd then .outFdcCmd v
  else if p = c.pMmu then if c.hasBank v then .outMmuBankExists v else .outMmuNoSuchBank v
  else if p = c.pRtcCmd then .outRtcCmd v
  else if p = c.pRtcData then .outRtcData v
  else if p = c.pHwctl then .outHwctl v
  else if p = c.pFp2 then .outFp2 v
  else if p = c.pFp then .outFp v
  else .outDefault p v

/-- Level-1 decode (R90, R91): direction and port alone select the handler; an `IN`'s data bits are ignored. -/
def decodeIo (c : Config) (w : BitVec 17) : Instr :=
  if w.extractLsb' 16 1 = 0#1 then portIn c (w.extractLsb' 8 8)
  else portOut c (w.extractLsb' 8 8) (w.extractLsb' 0 8)

/-- Format `FDCOP`: the whole byte is the operation code (R93). -/
def decodeFdcOp (c : Config) (b : Byte) : Instr :=
  if b = c.opSetcmd then .fdcSetcmd
  else if b = c.opSetdma then .fdcSetdma
  else if b = c.opExec then .fdcExec
  else .fdcIgnored b

/-- Format `HWKEY` (R96, 43_hwctl.md R201, R202). -/
def decodeHwKey (b : Byte) : Instr :=
  if b = Config.magic then .hwkeyUnlock else .hwkeyIgnored b

/-- Format `HWCMD`: "most-significant first, first matching bit wins"; the byte 0xAA stands before them (R96, R210). -/
def decodeHwCmd (b : Byte) : Instr :=
  if b = Config.magic then .hwKeybyte
  else if b.getLsbD 7 then .hwHalt (b.extractLsb' 0 7)
  else if b.getLsbD 6 then .hwReset (b.extractLsb' 0 6)
  else if b.getLsbD 5 then .hwZ80 (b.extractLsb' 0 5)
  else if b.getLsbD 4 then .hwI8080 (b.extractLsb' 0 4)
  else .hwNop (b.extractLsb' 0 4)

/-- Format `FDCBLK`: the kind is compared with read and write "and with nothing else" (R95, 41_fdc.md R158). -/
def decodeFdcBlk (c : Config) (kind drive track sector : Byte) : Instr :=
  if kind = c.kindRead then .fdcblkRead drive track sector
  else if kind = c.kindWrite then .fdcblkWrite drive track sector
  else .fdcblkOther kind drive track sector

/-- The decoder: total on every code, since no encoding of any level faults (R100). -/
def decode (c : Config) : Code → Instr
  | .io w => decodeIo c w
  | .fdcOp b => decodeFdcOp c b
  | .fdcAddr b => .fdcAddrbyte b
  | .hwKey b => decodeHwKey b
  | .hwCmd b => decodeHwCmd b
  | .fdcBlk w =>
    decodeFdcBlk c (w.extractLsb' 24 8) (w.extractLsb' 16 8) (w.extractLsb' 8 8) (w.extractLsb' 0 8)

/-- How the byte written to `P_FDC_CMD` is read (10_state.md R25, R93, R94). -/
def fdcCode (seq : FdcSeq) (b : Byte) : Code :=
  match seq with
  | .idle => .fdcOp b
  | .cmdLo | .cmdHi | .dmaLo | .dmaHi => .fdcAddr b

/-- How the byte written to `P_HWCTL` is read (R28, R96). -/
def hwCode (lock : Lock) (b : Byte) : Code :=
  match lock with
  | .locked => .hwKey b
  | .unlocked => .hwCmd b

/-- Which reading a command byte gets when no port and no state register are given with it. The hardware has no such
byte: a level-2 byte always comes on a port. DESIGN CHOICE (log 4): the row of the table with the most fixed bits wins,
the earlier row on a tie. -/
def loneByteCode (c : Config) (b : Byte) : Code :=
  if b = c.opSetcmd ∨ b = c.opSetdma ∨ b = c.opExec then .fdcOp b
  else if b = Config.magic then .hwKey b
  else .hwCmd b

/-- Why a word given as a number is no code. -/
inductive DecodeError where
  /-- No format has this many bits. -/
  | noSuchLength (nbits : Nat)
  /-- A bit above the format's bits is set (above bit 16 for a transaction word, R90). -/
  | bitsAboveFormat (nbits w : Nat)
  deriving DecidableEq, Repr

/-- The code of a word numbered as spec/opcode_table.json numbers it: 17 bits (in whole bytes, 24) are a transaction
word, 8 a lone command byte, 32 a command block. -/
def codeOfBits (c : Config) (nbits w : Nat) : Except DecodeError Code :=
  if nbits = 8 then
    if w < 2 ^ 8 then .ok (loneByteCode c (BitVec.ofNat 8 w)) else .error (.bitsAboveFormat nbits w)
  else if 17 ≤ nbits ∧ nbits ≤ 24 then
    if w < 2 ^ 17 then .ok (.io (BitVec.ofNat 17 w)) else .error (.bitsAboveFormat nbits w)
  else if nbits = 32 then
    if w < 2 ^ 32 then .ok (.fdcBlk (BitVec.ofNat 32 w)) else .error (.bitsAboveFormat nbits w)
  else .error (.noSuchLength nbits)

/-- The instruction of such a word, refused by name where it is no code. -/
def decodeBits (c : Config) (nbits w : Nat) : Except DecodeError Instr :=
  match codeOfBits c nbits w with
  | .ok code => .ok (decode c code)
  | .error e => .error e

/-- The table's words in `CFG_REF`, which is the configuration of spec/opcode_table.json (INDEX.md). -/
def decodeTableWord (nbits w : Nat) : Option Instr :=
  match decodeBits Config.ref nbits w with
  | .ok i => some i
  | .error _ => none

/-- The word of an `IN`: its data bits are "written as 0 in listings" (R90). -/
def inWord (p : Byte) : Code := .io (0#1 ++ p ++ 0#8 : BitVec 17)

/-- The word of an `OUT` (R90). -/
def outWord (p v : Byte) : Code := .io (1#1 ++ p ++ v : BitVec 17)

/-- The encoder: the code of a well-formed instruction, from the tables of 30_encoding.md. -/
def encode (c : Config) : Instr → Code
  | .inConStatus => inWord c.pConStatus
  | .inConData => inWord c.pConData
  | .outConData v => outWord c.pConData v
  | .inFdcStatus => inWord c.pFdcStatus
  | .outFdcCmd v => outWord c.pFdcCmd v
  | .inMmu => inWord c.pMmu
  | .outMmuBankExists v => outWord c.pMmu v
  | .outMmuNoSuchBank v => outWord c.pMmu v
  | .inRtcCmd => inWord c.pRtcCmd
  | .outRtcCmd v => outWord c.pRtcCmd v
  | .inRtcData => inWord c.pRtcData
  | .outRtcData v => outWord c.pRtcData v
  | .inHwctl => inWord c.pHwctl
  | .outHwctl v => outWord c.pHwctl v
  | .inFp2 => inWord c.pFp2
  | .outFp2 v => outWord c.pFp2 v
  | .inFp => inWord c.pFp
  | .outFp v => outWord c.pFp v
  | .inDefault p => inWord p
  | .outDefault p v => outWord p v
  | .fdcSetcmd => .fdcOp c.opSetcmd
  | .fdcSetdma => .fdcOp c.opSetdma
  | .fdcExec => .fdcOp c.opExec
  | .fdcIgnored op => .fdcOp op
  | .fdcAddrbyte b => .fdcAddr b
  | .hwkeyUnlock => .hwKey Config.magic
  | .hwkeyIgnored key => .hwKey key
  | .hwKeybyte => .hwCmd Config.magic
  | .hwHalt low => .hwCmd (1#1 ++ low : BitVec 8)
  | .hwReset low => .hwCmd (0b01#2 ++ low : BitVec 8)
  | .hwZ80 low => .hwCmd (0b001#3 ++ low : BitVec 8)
  | .hwI8080 low => .hwCmd (0b0001#4 ++ low : BitVec 8)
  | .hwNop low => .hwCmd (0b0000#4 ++ low : BitVec 8)
  | .fdcblkRead d t n => .fdcBlk (c.kindRead ++ d ++ t ++ n : BitVec 32)
  | .fdcblkWrite d t n => .fdcBlk (c.kindWrite ++ d ++ t ++ n : BitVec 32)
  | .fdcblkOther k d t n => .fdcBlk (k ++ d ++ t ++ n : BitVec 32)

end Sys2Proof
end

