-- ==== Sys2Proof/Machine/Hwctl.lean ====
section
/-! DEFINITION. The hardware control port (43_hwctl.md). Each command row is one `OUT` that finds the port `UNLOCKED`, so
it begins with the re-lock of R203, "before any side effect" (log 5). -/

namespace Sys2Proof.Machine

/-- `IN HWCTL` (R200): "always returns the current lock status byte ... with no side effect". -/
def execInHwctl (s : State) : Result :=
  .next (s.answer s.lockByte)

/-- `HWKEY.UNLOCK`: the key while `LOCKED` (R202). -/
def execHwkeyUnlock (s : State) : Result :=
  .next (s.noAnswer.setLock .unlocked)

/-- `HWKEY.IGNORED`: any other byte while `LOCKED` (R201). -/
def execHwkeyIgnored (_key : Byte) (s : State) : Result :=
  .next s.noAnswer

/-- `HWCTL_LOCK <- LOCKED`, the first act of every command (R203). -/
def State.relock (s : State) : State :=
  s.noAnswer.setLock .locked

/-- `HW.HALT` (R204). -/
def execHwHalt (_low : BitVec 7) (s : State) : Result :=
  .next (s.relock.haltCpu .ioHalt)

/-- `HW.RESET` (R205). -/
def execHwReset (_low : BitVec 6) (s : State) : Result :=
  .next s.relock.hwReset

/-- Switching needs both models in the build (R206, R207, R209). -/
def State.switchIfBoth (s : State) (m : CpuModel) : State :=
  if s.cfg.hasZ80 && s.cfg.has8080 then s.switchCpu m else s

/-- `HW.Z80` (R206, R209). -/
def execHwZ80 (_low : BitVec 5) (s : State) : Result :=
  .next (s.relock.switchIfBoth .z80)

/-- `HW.I8080` (R207, R209). -/
def execHwI8080 (_low : BitVec 4) (s : State) : Result :=
  .next (s.relock.switchIfBoth .i8080)

/-- `HW.NOP` (R208): nothing beyond the re-lock. -/
def execHwNop (_low : BitVec 4) (s : State) : Result :=
  .next s.relock

/-- `HW.KEYBYTE`: 0xAA while `UNLOCKED`, by the parameter `HWCTL_DOUBLE_UNLOCK` (R210). -/
def execHwKeybyte (s : State) : Result :=
  match s.cfg.doubleUnlock with
  | .decode => .next (s.relock.haltCpu .ioHalt)
  | .noop => .next s.relock

/-- `OUT HWCTL` (R201 to R203): the byte is read under `HWCTL_LOCK`, and the row it is does the rest. -/
def execOutHwctl (value : Byte) (s : State) : Result :=
  match s.hwctlLock with
  | .locked => if value = Config.magic then execHwkeyUnlock s else execHwkeyIgnored value s
  | .unlocked =>
    if value = Config.magic then execHwKeybyte s
    else if value.getLsbD 7 then execHwHalt (value.extractLsb' 0 7) s
    else if value.getLsbD 6 then execHwReset (value.extractLsb' 0 6) s
    else if value.getLsbD 5 then execHwZ80 (value.extractLsb' 0 5) s
    else if value.getLsbD 4 then execHwI8080 (value.extractLsb' 0 4) s
    else execHwNop (value.extractLsb' 0 4) s

end Sys2Proof.Machine
end

