-- ==== Sys2Proof/Machine/Mmu.lean ====
section
/-! DEFINITION. The MMU bank-select register (42_mmu.md R190 to R192). -/

namespace Sys2Proof.Machine

/-- `IN MMU` (R190). -/
def execInMmu (s : State) : Result :=
  .next (s.answer s.mmuByte)

/-- `OUT MMU` with an existing bank (R191): only the selector changes. -/
def execOutMmuBankExists (value : Byte) (s : State) : Result :=
  if s.cfg.hasBank value then .next { s.noAnswer with bankSel := value.setWidth 4 }
  else .next s.noAnswer

/-- `OUT MMU` with a bank that does not exist (R192): the CPU halts with `IOERROR`, the selector is unchanged. -/
def execOutMmuNoSuchBank (value : Byte) (s : State) : Result :=
  if s.cfg.hasBank value then .next s.noAnswer
  else .next (s.noAnswer.haltCpu .ioError)

end Sys2Proof.Machine
end

