-- ==== Sys2Proof/Machine/Dispatch.lean ====
section
/-! DEFINITION. One arm per instruction, in the order of spec/opcode_table.json; the meanings stand in the family files. -/

namespace Sys2Proof.Machine

def exec (i : Instr) (s : State) : Host.Outcome State Fault Refusal :=
  match i with
  | .inConStatus => Sys2Proof.Machine.execInConStatus s
  | .inConData => Sys2Proof.Machine.execInConData s
  | .outConData value => Sys2Proof.Machine.execOutConData value s
  | .inFdcStatus => Sys2Proof.Machine.execInFdcStatus s
  | .outFdcCmd value => Sys2Proof.Machine.execOutFdcCmd value s
  | .inMmu => Sys2Proof.Machine.execInMmu s
  | .outMmuBankExists value => Sys2Proof.Machine.execOutMmuBankExists value s
  | .outMmuNoSuchBank value => Sys2Proof.Machine.execOutMmuNoSuchBank value s
  | .inRtcCmd => Sys2Proof.Machine.execInRtcCmd s
  | .outRtcCmd value => Sys2Proof.Machine.execOutRtcCmd value s
  | .inRtcData => Sys2Proof.Machine.execInRtcData s
  | .outRtcData value => Sys2Proof.Machine.execOutRtcData value s
  | .inHwctl => Sys2Proof.Machine.execInHwctl s
  | .outHwctl value => Sys2Proof.Machine.execOutHwctl value s
  | .inFp2 => Sys2Proof.Machine.execInFp2 s
  | .outFp2 value => Sys2Proof.Machine.execOutFp2 value s
  | .inFp => Sys2Proof.Machine.execInFp s
  | .outFp value => Sys2Proof.Machine.execOutFp value s
  | .inDefault port => Sys2Proof.Machine.execInDefault port s
  | .outDefault port value => Sys2Proof.Machine.execOutDefault port value s
  | .fdcSetcmd => Sys2Proof.Machine.execFdcSetcmd s
  | .fdcSetdma => Sys2Proof.Machine.execFdcSetdma s
  | .fdcExec => Sys2Proof.Machine.execFdcExec s
  | .fdcIgnored op => Sys2Proof.Machine.execFdcIgnored op s
  | .fdcAddrbyte addr8 => Sys2Proof.Machine.execFdcAddrbyte addr8 s
  | .hwkeyUnlock => Sys2Proof.Machine.execHwkeyUnlock s
  | .hwkeyIgnored key => Sys2Proof.Machine.execHwkeyIgnored key s
  | .hwKeybyte => Sys2Proof.Machine.execHwKeybyte s
  | .hwHalt low => Sys2Proof.Machine.execHwHalt low s
  | .hwReset low => Sys2Proof.Machine.execHwReset low s
  | .hwZ80 low => Sys2Proof.Machine.execHwZ80 low s
  | .hwI8080 low => Sys2Proof.Machine.execHwI8080 low s
  | .hwNop low => Sys2Proof.Machine.execHwNop low s
  | .fdcblkRead drive track sector => Sys2Proof.Machine.execFdcblkRead drive track sector s
  | .fdcblkWrite drive track sector => Sys2Proof.Machine.execFdcblkWrite drive track sector s
  | .fdcblkOther kind drive track sector => Sys2Proof.Machine.execFdcblkOther kind drive track sector s

end Sys2Proof.Machine
end

