-- ==== Sys2Proof/Machine/Registry.lean ====
section
/-! DEFINITION. The host interface (44_host_disk_registry.md): the Disk Registry, the bulk loader and the configuration
record. Each operation is one step; none is a bus transaction (30_encoding.md R104). -/

namespace Sys2Proof.Machine

/-- A host operation answers. -/
def State.hostAnswer (s : State) (r : HostResult) : State :=
  { s with hostResult := some r }

/-- Whether the storage layer opens the file for read: it is in `FS` and the open is not answered with a failure
(10_state.md R36, 20_memory.md R70). The probe takes one answer and holds no file open. -/
def State.opens (s : State) (path : Path) : Bool :=
  (s.fileOf path).isSome && decide (s.nextOutcome ≠ .openFail)

/-! ## mount, unmount, verify_all, list -/

/-- "a *different* drive already has that exact path mounted" (R220); an empty slot has no path mounted (log 36). -/
def State.mountedElsewhere (s : State) (drive : Nat) (path : Path) : Bool :=
  decide (path ≠ []) && (List.range s.disk.length).any fun d => decide (d ≠ drive) && decide (s.slot d = path)

/-- `mount(drive, name)` (R220). -/
def hostMount (drive : Nat) (name : Path) (s : State) : Result :=
  let path := canonicalPath s.cfg name
  if s.cfg.numDrives ≤ drive then .refused .badDriveIndex
  else if s.cfg.pathLen < path.length then .refused .pathTooLong
  else if s.mountedElsewhere drive path then .next (s.hostAnswer (.mounted false))
  else if s.storageStalled then .fault .storageStalled
  else if s.opens path then
    .next ({ s.outcomeTaken with disk := s.disk.set drive path }.hostAnswer (.mounted true))
  else .next (s.outcomeTaken.hostAnswer (.mounted false))

/-- `unmount(drive)` (R222). -/
def hostUnmount (drive : Nat) (s : State) : Result :=
  if s.cfg.numDrives ≤ drive then .refused .badDriveIndex
  else .next ({ s with disk := s.disk.set drive [] }.hostAnswer .unmounted)

/-- The loop of `verify_all` (R223) over the slots from `ps` on: the slots left, how many were emptied, and the state
after the probes. -/
def State.verifySlots (s : State) : List Path → List Path × Nat × State
  | [] => ([], 0, s)
  | p :: ps =>
    if p = [] then
      let r := s.verifySlots ps
      ([] :: r.1, r.2.1, r.2.2)
    else
      let r := s.outcomeTaken.verifySlots ps
      if s.opens p then (p :: r.1, r.2.1, r.2.2) else ([] :: r.1, r.2.1 + 1, r.2.2)

/-- Some slot must be probed, and the storage layer never answers (70 R289). -/
def State.verifyHangs (s : State) : Bool :=
  s.storageStalled && s.disk.any fun p => decide (p ≠ [])

/-- `DISK` after `verify_all` (R223). -/
def State.verified (s : State) : State :=
  { (s.verifySlots s.disk).2.2 with disk := (s.verifySlots s.disk).1 }

/-- `verify_all()` (R223). -/
def hostVerifyAll (s : State) : Result :=
  if s.verifyHangs then .fault .storageStalled
  else .next (s.verified.hostAnswer (.verified (s.verifySlots s.disk).2.1))

/-- The rest of a path below a directory. -/
def stripDirectory : Path → Path → Option Path
  | [], p => some p
  | _ :: _, [] => none
  | d :: ds, b :: bs => if d = b then stripDirectory ds bs else none

/-- `list(directory, pattern)` (R224): "engines may ignore it and return all entries" (log 32). -/
def hostList (directory _pattern : Path) (s : State) : Result :=
  .next (s.hostAnswer (.names (s.fs.filterMap fun e => stripDirectory directory e.1)))

/-! ## The bulk loader (R225) -/

/-- The length of the loader's next read, where `room` bytes are left to read into the buffer: all of them; where the
storage layer answers with a short read, fewer, by an open amount; a failed read counts as length 0, with which the
source joins it (90 C7, log 31). -/
def State.chunkLength (s : State) (room : Nat) : Nat :=
  match s.nextOutcome with
  | .ok => room
  | .short => Config.freeNat s.outcomeTaken.draws 0 % max room 1
  | .seekFail | .openFail => 0

/-- One chunk of `n` bytes: the buffer's first `n` bytes, `SECBUF[0..n-1]`, then memory from `a` on; the buffer's other
bytes stay (log 42). -/
def State.loadChunk (s : State) (f : File) (a n : Nat) : State :=
  (s.setSecBuf (f.read a n ++ s.secBuf.drop n)).memWriteN (BitVec.ofNat 16 a) (f.read a n)

/-- Memory from the end of a short last chunk to the end of its buffer, as far as memory goes, is unspecified (R225 c,
93 U12). -/
def State.scrambleTail (s : State) (a n : Nat) : State :=
  (s.memWriteN (BitVec.ofNat 16 (a + n)) (s.freeBytes (min (a + s.cfg.secSz) memSize - (a + n)))).drawn

/-- The read that ends the load with length zero or less (R225). A failed read leaves SECBUF unspecified (10_state.md R27,
log 42); a read that returns no byte writes none. -/
def State.loadEnd (s : State) : State :=
  match s.nextOutcome with
  | .ok | .short => s.outcomeTaken.drawn
  | .seekFail | .openFail => s.outcomeTaken.secBufUnspecified

/-- The loop of `load_image` from address `a` on; `fuel` bounds the chunks. -/
def State.loadLoop (f : File) : Nat → Nat → State → State × LoadResult
  | 0, _, s => (s, .stoppedZero)
  | fuel + 1, a, s =>
    let n := s.chunkLength (min s.cfg.secSz (f.size - a))
    if n = 0 then (s.loadEnd, .stoppedZero)
    else if n < s.cfg.secSz then
      ((s.outcomeTaken.drawn.loadChunk f a n).scrambleTail a n, .eof)
    else State.loadLoop f fuel (a + s.cfg.secSz) (s.outcomeTaken.drawn.loadChunk f a n)

/-- `load_image(name)` (R225): it does not touch FDC_STAT. -/
def hostLoadImage (name : Path) (s : State) : Result :=
  let path := codePath s.cfg name
  if s.storageStalled then .fault .storageStalled
  else
    match s.fileOf path with
    | none => .next (s.outcomeTaken.hostAnswer (.loaded .openFailed))
    | some f =>
      if s.nextOutcome = .openFail then .next (s.outcomeTaken.hostAnswer (.loaded .openFailed))
      else if memSize < f.size then .refused .imageTooLong
      else
        let r := State.loadLoop f (f.size / s.cfg.secSz + 1) 0 s.outcomeTaken
        .next (r.1.hostAnswer (.loaded r.2))

/-! ## The front-panel byte and the configuration record -/

/-- The host sets `FP_VALUE` directly (R226, R228). -/
def hostSetFrontPanel (b : Byte) (s : State) : Result :=
  .next ({ s with fpValue := b }.hostAnswer .frontPanelSet)

/-- A field of fixed width, filled up with 0x00 (log 33). -/
def padField (n : Nat) (bytes : List Byte) : List Byte :=
  (bytes ++ List.replicate n 0#8).take n

/-- Bytes off .. off+n−1 of the record. -/
def recordField (r : List Byte) (off n : Nat) : List Byte :=
  (r.drop off).take n

/-- The path a fixed-length string stands for: the bytes before the first 0x00 (log 33). -/
def pathOfField (bytes : List Byte) : Path :=
  bytes.takeWhile fun b => decide (b ≠ 0#8)

/-- The selector's encoding of a CPU model (R226). -/
def selectorOf (c : Config) : CpuModel → List Byte
  | .z80 => c.selZ80
  | .i8080 => c.selI8080

/-- The model a selector names; a selector that names neither leaves it open (log 33). -/
def modelOf (c : Config) (d : Nat) (sel : List Byte) : CpuModel :=
  if sel = c.selZ80 then .z80 else if sel = c.selI8080 then .i8080 else Config.freeModel d

/-- The record as written: selector, speed, front-panel byte, one path string per drive, no delimiters (R226). DESIGN
CHOICE (log 44): the spec gives what each field is loaded into and not what the writer takes; the record takes `CPU.model`,
the speed value, `FP_VALUE` and `DISK` as they are when it is saved. -/
def State.recordBytes (s : State) : List Byte :=
  padField s.cfg.modelW (selectorOf s.cfg s.cpu.model) ++ padField s.cfg.speedW s.cpu.speed ++ [s.fpValue]
    ++ (List.range s.cfg.numDrives).flatMap fun d => padField s.cfg.pathLen (s.slot d)

/-- Saving the configuration: "writing it changes no state of the block" (R226). -/
def hostSaveRecord (s : State) : Result :=
  .next ({ s with record := some s.recordBytes }.hostAnswer .recordSaved)

/-- The fields of a record loaded (R226, 70 R280 step 3). -/
def State.loadRecord (s : State) (r : List Byte) : State :=
  { s with
    cpu := { s.cpu with
      model := modelOf s.cfg s.draws (recordField r 0 s.cfg.modelW)
      speed := recordField r s.cfg.modelW s.cfg.speedW }
    fpValue := r.getD (s.cfg.modelW + s.cfg.speedW) 0#8
    disk := (List.range s.cfg.numDrives).map fun d =>
      pathOfField (recordField r (s.cfg.modelW + s.cfg.speedW + 1 + d * s.cfg.pathLen) s.cfg.pathLen)
    draws := s.draws + 1 }

/-- The host's operations. -/
def runHost : HostOp → State → Result
  | .mount drive name, s => hostMount drive name s
  | .unmount drive, s => hostUnmount drive s
  | .verifyAll, s => hostVerifyAll s
  | .list directory pattern, s => hostList directory pattern s
  | .loadImage name, s => hostLoadImage name s
  | .setFrontPanel b, s => hostSetFrontPanel b s
  | .saveRecord, s => hostSaveRecord s

end Sys2Proof.Machine
end

