-- ==== Sys2Proof/Machine/Environment.lean ====
section
/-! DEFINITION. Power-on reset (70_reset_and_hazards.md R280), what else happens outside the block between two
transactions, and placing an instruction's code where the step takes it. -/

namespace Sys2Proof.Machine

/-- Steps 1, 2, 5 and the "else" of step 3 of R280. The unspecified registers, the CPU engine's state and every memory
byte are free values; `FS`, the record, the console streams and the storage layer are not the block's to reset (R281;
log 35). -/
def State.powerOnBase (s : State) : State :=
  { s with
    bankSel := 0#4
    fdcStat := s.cfg.stOk
    fdcCmdAddr := 0#16
    fdcDmaAddr := 0#16
    fdcSeq := .idle
    fdcCmdBuf := ⟨Config.freeByte s.draws 0, Config.freeByte s.draws 1, Config.freeByte s.draws 2, Config.freeByte s.draws 3⟩
    secBuf := (List.range s.cfg.secSz).map (Config.freeByte (s.draws + 1))
    hwctlLock := .locked
    fpValue := Config.freeByte s.draws 4
    conLast := Config.freeByte s.draws 5
    disk := List.replicate s.cfg.numDrives []
    stopReq := false
    cpu := ⟨Config.freePc s.draws, Config.freeCpuState s.draws, Config.freeCpuError s.draws, Config.freeModel s.draws,
      (List.range s.cfg.speedW).map (Config.freeByte (s.draws + 2))⟩
    mem := []
    memEpoch := s.memEpoch + 1
    ledRead := false
    ledWrite := false
    draws := s.draws + 3
    result := none
    hostResult := none }

/-- Power-on reset (R280): the record, when there is one, is loaded, and then `verify_all` runs. -/
def envPowerOn (s : State) : Result :=
  match s.record with
  | none => .next s.powerOnBase
  | some r =>
    if r.length ≠ s.cfg.recordSize then .refused .badConfigRecord
    else if (s.powerOnBase.loadRecord r).verifyHangs then .fault .storageStalled
    else .next (s.powerOnBase.loadRecord r).verified

/-- What happens outside the block (Machine/State.lean's EnvEvent names the rules). -/
def runEnv : EnvEvent → State → Result
  | .powerOn, s => envPowerOn s
  | .breakSignal, s => .next { s with stopReq := true }
  | .conInput b, s => .next { s with conIn := s.conIn ++ [b] }
  | .cpuStore a v, s => .next (s.memWrite a v)
  | .cpuEngine cpu stopReq, s => .next { s with cpu := cpu, stopReq := stopReq }
  | .filePut p content, s => .next (s.setFile p (File.ofBytes content))
  | .fileRemove p, s => .next { s with fs := Fs.del p s.fs }
  | .recordPut r, s => .next { s with record := r }
  | .storageNext o, s => .next { s with storage := s.storage ++ [o] }
  | .storageStall stuck, s => .next { s with storageStalled := stuck }

/-- The instruction of a transaction word (30_encoding.md R91). -/
def fetchInstr (s : State) (w : BitVec 17) : Instr :=
  decode s.cfg (.io w)

/-- `OUT p,v` as the next event. -/
def State.pushOut (s : State) (p v : Byte) : State :=
  { s with pending := .transaction (1#1 ++ p ++ v : BitVec 17) :: s.pending }

/-- The four bytes of a command block in memory at FDC_CMDADDR. They are listed as they are, without asking what an
unlisted byte reads as (log 3). -/
def State.placeBlock (s : State) (w : BitVec 32) : State :=
  { s with
    mem :=
      Cells.put (s.phys s.fdcCmdAddr) (w.extractLsb' 24 8) <|
      Cells.put (s.phys (s.fdcCmdAddr + 1#16)) (w.extractLsb' 16 8) <|
      Cells.put (s.phys (s.fdcCmdAddr + 2#16)) (w.extractLsb' 8 8) <|
      Cells.put (s.phys (s.fdcCmdAddr + 3#16)) (w.extractLsb' 0 8) s.mem }

/-- Places a code so that the very next step runs its instruction: a transaction is put in front of the pending events; a
level-2 byte is put there as the `OUT` of its port, under the state register that reads it so; a command block is put in
memory at FDC_CMDADDR with the `OUT` that runs it (log 3). -/
def State.placeCode (s : State) : Code → State
  | .io w => { s with pending := .transaction w :: s.pending }
  | .fdcOp b => { s with fdcSeq := FdcSeq.idle }.pushOut s.cfg.pFdcCmd b
  | .fdcAddr b => { s with fdcSeq := if s.fdcSeq = FdcSeq.idle then FdcSeq.cmdLo else s.fdcSeq }.pushOut s.cfg.pFdcCmd b
  | .hwKey b => (s.setLock .locked).pushOut s.cfg.pHwctl b
  | .hwCmd b => (s.setLock .unlocked).pushOut s.cfg.pHwctl b
  | .fdcBlk w => ({ s with fdcSeq := FdcSeq.idle }.placeBlock w).pushOut s.cfg.pFdcCmd s.cfg.opExec

end Sys2Proof.Machine
end

