-- ==== Sys2Proof/Machine/Step.lean ====
section
/-! DEFINITION. One step of the machine (00_scope.md R14): the next pending event, a whole bus transaction, a whole host
operation or an outside event. With nothing pending the block does nothing: it "acts only when the CPU engine issues a
transaction or the host calls an operation" (10_state.md R39). -/

namespace Sys2Proof.Machine

def step (s : State) : Host.Outcome State Fault Refusal :=
  match s.pending with
  | [] => .next s
  | .transaction w :: rest => exec (fetchInstr s w) { s with pending := rest }
  | .host op :: rest => runHost op { s with pending := rest }
  | .env e :: rest => runEnv e { s with pending := rest }

/-- `s` with the instruction of this word as what the next step runs; a word that is no code changes nothing. -/
def State.withFetchWord (s : State) (nbits w : Nat) : State :=
  match codeOfBits s.cfg nbits w with
  | .ok code => s.placeCode code
  | .error _ => s

end Sys2Proof.Machine
end

