-- ==== Sys2Proof/Safety.lean ====
section
/-! DEFINITION. What statements about runs are stated with: the invariant of the machine, the slot invariant, the end of a
run and a safe state, and the healthy storage premise. -/

namespace Sys2Proof.Machine

/-- "no two different slots hold the same non-empty path" (10_state.md R31, 44 R229). -/
def SlotsDistinct (s : State) : Prop :=
  ∀ d d', d < s.disk.length → d' < s.disk.length → d ≠ d' → s.slot d ≠ [] → s.slot d ≠ s.slot d'

/-- The file store's form: no path twice, every file in canonical form. -/
def Fs.Wf (fs : List (Path × File)) : Prop :=
  (fs.map Prod.fst).Nodup ∧ ∀ e ∈ fs, e.2.Wf

/-- What every step keeps. -/
structure Inv (s : State) : Prop where
  /-- The configuration meets the constraints of 00_scope.md R4 to R10. -/
  valid : s.cfg.Valid
  /-- BANK_SEL ≤ NUMSEG (10_state.md R21). -/
  bank : s.bankSel.toNat ≤ s.cfg.numSeg.toNat
  /-- FDC_STAT is one of the nine codes (R22). -/
  stat : s.fdcStat ∈ s.cfg.statusBytes
  /-- There are NUM_DRIVES slots (R31). -/
  slots : s.disk.length = s.cfg.numDrives
  /-- Each holds a path of at most PATH_LEN bytes (R31). -/
  paths : ∀ p ∈ s.disk, p.length ≤ s.cfg.pathLen
  /-- SECBUF holds exactly SEC_SZ bytes (R27). -/
  secBuf : s.secBuf.length = s.cfg.secSz
  /-- Both indicators are off between steps (R38). -/
  leds : s.ledRead = false ∧ s.ledWrite = false
  /-- The memory is in canonical form. -/
  mem : Memory.wf s
  /-- So is the file store. -/
  files : Fs.Wf s.fs

/-- "a stopped state ends the run" (60_exceptions.md R260, D39). -/
def RunEnded (s : State) : Prop := s.cpu.state = .stopped

/-- A run has gone wrong when it stopped through `IOERROR` (R260, D39). -/
def Safe (s : State) : Prop := ¬ (s.cpu.state = .stopped ∧ s.cpu.error = .ioError)

/-- What power-on reset leaves in the block's registers, with a record or without: step 2 of 70_reset_and_hazards.md
R280. -/
structure PoweredOn (t : State) : Prop where
  lock : t.hwctlLock = .locked
  bank : t.bankSel = 0#4
  seq : t.fdcSeq = .idle
  stat : t.fdcStat = t.cfg.stOk
  cmdAddr : t.fdcCmdAddr = 0#16
  dmaAddr : t.fdcDmaAddr = 0#16
  stopReq : t.stopReq = false
  leds : t.ledRead = false ∧ t.ledWrite = false

/-- The path string of drive `d` in a configuration record (44_host_disk_registry.md R226). -/
def recordPath (c : Config) (r : List Byte) (d : Nat) : Path :=
  pathOfField (recordField r (c.modelW + c.speedW + 1 + d * c.pathLen) c.pathLen)

/-- The image of a path is well formed: exactly IMG_SIZE bytes (20_memory.md R69). -/
def WellFormedImage (s : State) (p : Path) : Prop :=
  ∃ f, s.fileOf p = some f ∧ f.size = s.cfg.imgSize

/-- The healthy storage premise for the next sector operation (R70): the storage layer answers, with `S_OK`, and every
mounted image is well formed. -/
def HealthyStorage (s : State) : Prop :=
  s.storageStalled = false ∧ s.nextOutcome = .ok ∧ ∀ p ∈ s.disk, p ≠ [] → WellFormedImage s p

/-- Instructions one after the other, stopping at the first fault or refusal. -/
def execSeq : List Instr → State → Result
  | [], s => .next s
  | i :: is, s =>
    match exec i s with
    | .next t => execSeq is t
    | .fault r => .fault r
    | .refused r => .refused r

/-- The request meets the five checks of 41_fdc.md R159, in the rule's own words: "drive index in range", "track ≤
TRK_MAX", "sector in [1, SPT_MAX]", the address "leaves room for a full sector within the addressable space", "drive has
an image mounted". -/
structure Admitted (s : State) (drive track sector : Byte) : Prop where
  driveOk : drive.toNat < s.cfg.numDrives
  trackOk : track.toNat ≤ s.cfg.trkMax.toNat
  sectorPos : 1 ≤ sector.toNat
  sectorLe : sector.toNat ≤ s.cfg.sptMax.toNat
  room : s.fdcDmaAddr.toNat + s.cfg.secSz ≤ memSize
  mounted : s.slot drive.toNat ≠ []

/-- The image file of the drive is `f` and holds the whole sector. -/
structure SectorInFile (s : State) (drive track sector : Byte) (f : File) : Prop where
  file : s.fileOf (s.slot drive.toNat) = some f
  inside : sectorOffset s.cfg track sector + s.cfg.secSz ≤ f.size

/-- Memory key `key` is no byte of the DMA range `addr .. addr+SEC_SZ−1`. -/
def OutsideDma (s : State) (addr : Addr) (key : Nat) : Prop :=
  ∀ i < s.cfg.secSz, key ≠ s.phys (addr + BitVec.ofNat 16 i)

end Sys2Proof.Machine
end

