-- ==== Sys2Proof/Certificates/Slice0/Obligations.lean ====
section
/-! DEFINITION. The statements for the provers. Each docstring names the rule of spec/ it formalises; "derived" marks the
ones that rest on a decision or inference of the spec (its sentence or D number is named) or on a choice of the model
(its log entry is named). A frame is written `t = { s with changed fields }`: every other field of State, every other
register, flag, special register, and with an unchanged `mem` every byte of memory, is as before. -/

open Sys2Proof Sys2Proof.Machine

/-! ## Encodings -/

/-- Derived from 30_encoding.md sections 1 and 2: no bit of an encoding is dropped and every row's code reads back as the
row, for every valid configuration. -/
def Obligations.DecodeUndoesEncode : Prop :=
  ∀ (c : Config) (i : Instr), c.Valid → i.wf c = true → decode c (encode c i) = i

/-- Derived from 30_encoding.md: the decoder answers well-formed instructions only, so a value never falls to a
neighbouring row; and every code has its reading back, an `IN`'s ignored data bits (R90) read as 0. -/
def Obligations.EncodeUndoesDecode : Prop :=
  ∀ (c : Config) (code : Code),
    (decode c code).wf c = true ∧
    encode c (decode c code) =
      match code with
      | .io w => .io (if w.getLsbD 16 then w else w &&& 0x0FF00#17)
      | .fdcOp b => .fdcOp b
      | .fdcAddr b => .fdcAddr b
      | .hwKey b => .hwKey b
      | .hwCmd b => .hwCmd b
      | .fdcBlk w => .fdcBlk w

/-- Derived from 30_encoding.md R90 to R96 in `CFG_REF`: words written out from the tables decode to what they stand
for. -/
def Obligations.WrittenOutWordsDecode : Prop :=
  decodeTableWord 24 0x04000 = some .inMmu ∧
  decodeTableWord 24 0x14002 = some (.outMmuBankExists 2#8) ∧
  decodeTableWord 24 0x14008 = some (.outMmuNoSuchBank 8#8) ∧
  decodeTableWord 24 0x10755 = some (.outDefault 7#8 0x55#8) ∧
  decodeTableWord 24 0x101C1 = some (.outConData 0xC1#8) ∧
  decodeTableWord 24 0x10440 = some (.outFdcCmd 0x40#8) ∧
  decodeTableWord 24 0x1A0AA = some (.outHwctl 0xAA#8) ∧
  decodeTableWord 24 0x0FE00 = some .inFp2 ∧
  decode Config.ref (.fdcOp 0x40#8) = .fdcExec ∧
  decode Config.ref (.hwCmd 0xC0#8) = .hwHalt 0x40#7 ∧
  decodeTableWord 32 0x02014C1A = some (.fdcblkWrite 0x01#8 0x4C#8 0x1A#8)

/-- Derived from 30_encoding.md R91, R92, R93, R94, R96: which handler a transaction has depends on direction and port
alone (bits 16 to 8) but for the MMU's value compare. An `IN` word is read by those bits; an `OUT` word of any other port
than the MMU's has one row for its port, bound or not, and bits 7 to 0 are that row's data; on the MMU port they are the
data of the row that the compare with NUMSEG chooses. The words of unbound ports are the two default rows, and an address
byte is never read as an operation code. -/
def Obligations.DispatchByDirectionAndPort : Prop :=
  (∀ (c : Config) (w w' : BitVec 17), w.getLsbD 16 = false → w'.extractLsb' 8 9 = w.extractLsb' 8 9 →
    decode c (.io w') = decode c (.io w)) ∧
  (∀ (c : Config) (p : Byte), p ≠ c.pMmu →
    ∃ row ∈ [Instr.outConData, .outFdcCmd, .outRtcCmd, .outRtcData, .outHwctl, .outFp2, .outFp, .outDefault p],
      ∀ w : BitVec 17, w.getLsbD 16 = true → w.extractLsb' 8 8 = p → decode c (.io w) = row (w.extractLsb' 0 8)) ∧
  (∀ (c : Config) (w : BitVec 17), c.Valid → w.getLsbD 16 = true → w.extractLsb' 8 8 = c.pMmu →
    decode c (.io w) =
      if (w.extractLsb' 0 8).toNat ≤ c.numSeg.toNat then .outMmuBankExists (w.extractLsb' 0 8)
      else .outMmuNoSuchBank (w.extractLsb' 0 8)) ∧
  (∀ (c : Config) (p : Byte), c.boundIn p = false → decode c (inWord p) = .inDefault p) ∧
  (∀ (c : Config) (p v : Byte), c.boundOut p = false → decode c (outWord p v) = .outDefault p v) ∧
  (∀ (c : Config) (seq : FdcSeq) (b : Byte), seq ≠ .idle → decode c (fdcCode seq b) = .fdcAddrbyte b)

/-! ## The step -/

/-- Derived from 00_scope.md R14 and log 3: a step with a transaction next runs exactly the decoded instruction, on the
state with that event taken off; with nothing pending it changes nothing; every other event runs as it is. -/
def Obligations.StepRunsNextEvent : Prop :=
  (∀ (s : State) (w : BitVec 17) (rest : List Event), s.pending = .transaction w :: rest →
    step s = exec (decode s.cfg (.io w)) { s with pending := rest }) ∧
  (∀ s : State, s.pending = [] → step s = .next s) ∧
  (∀ (s : State) (op : HostOp) (rest : List Event), s.pending = .host op :: rest →
    step s = runHost op { s with pending := rest }) ∧
  (∀ (s : State) (e : EnvEvent) (rest : List Event), s.pending = .env e :: rest →
    step s = runEnv e { s with pending := rest })

/-- Derived from 30_encoding.md section 2 and log 5: the two command ports run the row their byte is under the state
register, and `FDC.EXEC` runs the row of the block it fetched. -/
def Obligations.CommandBytesRunTheirRow : Prop :=
  ∀ (s : State) (v : Byte),
    exec (.outFdcCmd v) s = exec (decode s.cfg (fdcCode s.fdcSeq v)) s ∧
    exec (.outHwctl v) s = exec (decode s.cfg (hwCode s.hwctlLock v)) s ∧
    exec .fdcExec s =
      exec (decodeFdcBlk s.cfg s.fetchBlock.kind s.fetchBlock.drive s.fetchBlock.track s.fetchBlock.sector)
        { s with fdcCmdBuf := s.fetchBlock }

/-- R135: every handler terminates with its result, "subject only to the storage layer returning", and none of the
handlers R122 to R134 writes a status code or a CPU-state flag. -/
def Obligations.EveryHandlerTerminates : Prop :=
  (∀ (i : Instr) (s : State), s.storageStalled = false → ∃ t, exec i s = .next t) ∧
  (∀ (i : Instr) (s : State), i ≠ .fdcExec → (∀ v, i ≠ .outFdcCmd v) → (∀ d t n, i ≠ .fdcblkRead d t n) →
    (∀ d t n, i ≠ .fdcblkWrite d t n) → ∃ t, exec i s = .next t) ∧
  (∀ (s t : State) (i : Instr),
    (i = .inConStatus ∨ i = .inConData ∨ (∃ v, i = .outConData v) ∨ i = .inRtcCmd ∨ (∃ v, i = .outRtcCmd v) ∨
      i = .inRtcData ∨ (∃ v, i = .outRtcData v) ∨ i = .inFp ∨ (∃ v, i = .outFp v) ∨ i = .inFp2 ∨ (∃ v, i = .outFp2 v) ∨
      (∃ p, i = .inDefault p) ∨ (∃ p v, i = .outDefault p v)) →
    exec i s = .next t → t.fdcStat = s.fdcStat ∧ t.cpu = s.cpu)

/-- Derived from 20_memory.md R66 ("[derived: ...]"): of the port reads only `IN CON_DATA` changes a register of the
block or anything else; the others change at most the result and the count of draws. -/
def Obligations.PortReadsHaveNoSideEffect : Prop :=
  ∀ (s : State) (i : Instr),
    i = .inConStatus ∨ i = .inFdcStatus ∨ i = .inMmu ∨ i = .inRtcCmd ∨ i = .inRtcData ∨ i = .inHwctl ∨ i = .inFp2 ∨
      i = .inFp ∨ (∃ p, i = .inDefault p) →
    ∃ b n, exec i s = .next { s with result := some b, draws := n }

/-! ## Unbound ports, console, clock, front panel -/

/-- R122: every `IN` word of a port without an IN binding is `IN DEFAULT`, which returns the idle value, the same for every
port and every time, and changes nothing. -/
def Obligations.UnboundInReturnsIdle : Prop :=
  (∀ (c : Config) (w : BitVec 17), w.getLsbD 16 = false → c.boundIn (w.extractLsb' 8 8) = false →
    decode c (.io w) = .inDefault (w.extractLsb' 8 8)) ∧
  (∀ (p : Byte) (s : State), exec (.inDefault p) s = .next { s with result := some s.cfg.idleVal })

/-- R123: every `OUT` word of a port without an OUT binding is `OUT DEFAULT`, which changes nothing, whatever the value. -/
def Obligations.UnboundOutChangesNothing : Prop :=
  (∀ (c : Config) (w : BitVec 17), w.getLsbD 16 = true → c.boundOut (w.extractLsb' 8 8) = false →
    decode c (.io w) = .outDefault (w.extractLsb' 8 8) (w.extractLsb' 0 8)) ∧
  (∀ (p v : Byte) (s : State), exec (.outDefault p v) s = .next { s with result := none })

/-- Derived from 40_port_dispatch.md R124 (the undefined bits as a draw: decision D25): bit 0 is 0 when an input byte is available and 1 when none is; the other bits are a draw; nothing is
consumed. -/
def Obligations.ConsoleStatusInvertedSense : Prop :=
  ∀ s : State, ∃ b : Byte,
    exec .inConStatus s = .next { s with result := some b, draws := s.draws + 1 } ∧ b.getLsbD 0 = s.conIn.isEmpty

/-- Derived from 40_port_dispatch.md section 3 (`IN CON_DATA`, decision D25: oldest first, one byte a read). -/
def Obligations.ConsoleReadTakesOldestByte : Prop :=
  (∀ (s : State) (b : Byte) (rest : List Byte), s.conIn = b :: rest →
    exec .inConData s = .next { s with conLast := b, conIn := rest, result := some b }) ∧
  (∀ s : State, s.conIn = [] → exec .inConData s = .next { s with result := some s.conLast })

/-- R126: the `OUT` of the console data port emits the byte with the top bit stripped, and changes nothing else. -/
def Obligations.ConsoleWriteStripsTopBit : Prop :=
  ∀ (v : Byte) (s : State),
    decode s.cfg (outWord s.cfg.pConData v) = .outConData v ∧
    exec (.outConData v) s = .next { s with conOut := s.conOut ++ [v &&& 0x7F#8], result := none }

/-- Derived from 40_port_dispatch.md section 4 (decision D26; the write as a signal, log 23): a clock read returns some
byte, of which nothing is said, and changes nothing but the count of draws; a clock write changes no register. -/
def Obligations.ClockPortsPassThrough : Prop :=
  ∀ (s : State) (v : Byte),
    (∃ b, exec .inRtcCmd s = .next { s with result := some b, draws := s.draws + 1 }) ∧
    (∃ b, exec .inRtcData s = .next { s with result := some b, draws := s.draws + 1 }) ∧
    exec (.outRtcCmd v) s = .next { s with signals := s.signals ++ [.rtcOut .cmd v], result := none } ∧
    exec (.outRtcData v) s = .next { s with signals := s.signals ++ [.rtcOut .data v], result := none }

/-- R131, R132: the front-panel port reads the front-panel byte and stores any of the 256 values in it, and does nothing
else. -/
def Obligations.FrontPanelReadAndWrite : Prop :=
  ∀ (s : State) (v : Byte), s.cfg.Valid →
    decode s.cfg (inWord s.cfg.pFp) = .inFp ∧ decode s.cfg (outWord s.cfg.pFp v) = .outFp v ∧
    exec .inFp s = .next { s with result := some s.fpValue } ∧
    exec (.outFp v) s = .next { s with fpValue := v, result := none }

/-- Derived from 40_port_dispatch.md section 5 (decision D27): the second port reads the same byte in both modes and
writes it in `SWITCHES` only. -/
def Obligations.SecondFrontPanelByMode : Prop :=
  ∀ (s : State) (v : Byte),
    exec .inFp2 s = .next { s with result := some s.fpValue } ∧
    (s.cfg.fp2Mode = .switches → exec (.outFp2 v) s = .next { s with fpValue := v, result := none }) ∧
    (s.cfg.fp2Mode = .mirrorRo → exec (.outFp2 v) s = .next { s with result := none })

/-! ## Memory and the MMU -/

/-- Derived from 42_mmu.md R190 (the nibbles are exact by decision D18): the largest bank in the high nibble, the current
one in the low nibble. -/
def Obligations.MmuReadPacksBanks : Prop :=
  ∀ s : State, ∃ b : Byte,
    exec .inMmu s = .next { s with result := some b } ∧ b.toNat = 16 * s.cfg.numSeg.toNat + s.bankSel.toNat

/-- R191: an existing bank is selected, and nothing else changes, no byte of memory either; selecting bank 0 restores the
base map, under which address `a` is byte `a` of BANK0. -/
def Obligations.MmuWriteSelectsBank : Prop :=
  ∀ (s : State) (v : Byte), s.cfg.Valid → v.toNat ≤ s.cfg.numSeg.toNat →
    decode s.cfg (outWord s.cfg.pMmu v) = .outMmuBankExists v ∧
    ∃ b : BitVec 4, b.toNat = v.toNat ∧ exec (.outMmuBankExists v) s = .next { s with bankSel := b, result := none } ∧
      (v = 0#8 → ∀ a : Addr, ({ s with bankSel := b, result := none } : State).memRead a = s.byteAt a.toNat)

/-- Derived from 42_mmu.md R192 (BANK_SEL unchanged is the spec's own inference there, the names of the CPU fields are
decision D18): the CPU stops with `IOERROR` and BANK_SEL keeps its value. -/
def Obligations.MmuBadBankStopsCpu : Prop :=
  ∀ (s : State) (v : Byte), s.cfg.numSeg.toNat < v.toNat →
    exec (.outMmuNoSuchBank v) s =
      .next { s with cpu := { s.cpu with error := .ioError, state := .stopped }, result := none }

/-- Derived from 42_mmu.md R193 ("[derived: ...]"): of all instructions only the MMU write of an existing bank and the
reset command write BANK_SEL. -/
def Obligations.OnlyMmuAndResetWriteBank : Prop :=
  ∀ (i : Instr) (s t : State), exec i s = .next t →
    t.bankSel = s.bankSel ∨ (∃ v, i = .outMmuBankExists v) ∨ (∃ l, i = .hwReset l) ∨
      (∃ v : Byte, i = .outHwctl v ∧ s.hwctlLock = .unlocked ∧ v.getLsbD 7 = false ∧ v.getLsbD 6 = true)

/-- Derived from 20_memory.md R60, R61 (decision D19, the reference memory model): a byte stored under one bank is read
back under that bank, and under another bank exactly when it lies at or above SEGSIZ; every other byte, under any bank,
is as before. So bank 0 after bank k shows the base map again. -/
def Obligations.StoredByteBelongsToBank : Prop :=
  ∀ (s : State) (a a' : Addr) (v : Byte) (k : BitVec 4),
    ({ s.memWrite a v with bankSel := k } : State).memRead a' =
      if a' = a ∧ (k = s.bankSel ∨ s.cfg.segSiz ≤ a.toNat) then v else ({ s with bankSel := k } : State).memRead a'

/-! ## The FDC -/

/-- Derived from 41_fdc.md section 1 (decision D9). -/
def Obligations.FdcStatusReadReturnsCode : Prop :=
  ∀ s : State, exec .inFdcStatus s = .next { s with result := some s.fdcStat }

/-- Derived from 41_fdc.md section 2 (decisions D10, D12): what each operation byte and each address byte does; in `IDLE`
no byte is an address byte, and the row would write nothing (log 5). -/
def Obligations.FdcSequencerMoves : Prop :=
  ∀ (s : State) (b : Byte),
    exec .fdcSetcmd s = .next { s with fdcSeq := .cmdLo, result := none } ∧
    exec .fdcSetdma s = .next { s with fdcSeq := .dmaLo, result := none } ∧
    exec (.fdcIgnored b) s = .next { s with result := none } ∧
    exec (.fdcAddrbyte b) s = .next
      (match s.fdcSeq with
        | .idle => { s with result := none }
        | .cmdLo => { s with fdcCmdAddr := s.fdcCmdAddr.extractLsb' 8 8 ++ b, fdcSeq := .cmdHi, result := none }
        | .cmdHi => { s with fdcCmdAddr := b ++ s.fdcCmdAddr.extractLsb' 0 8, fdcSeq := .idle, result := none }
        | .dmaLo => { s with fdcDmaAddr := s.fdcDmaAddr.extractLsb' 8 8 ++ b, fdcSeq := .dmaHi, result := none }
        | .dmaHi => { s with fdcDmaAddr := b ++ s.fdcDmaAddr.extractLsb' 0 8, fdcSeq := .idle, result := none })

/-- Derived from 41_fdc.md section 2 (decisions D10, D12): the write to the command port completes, with the effect of the
operation byte, of the address byte or of none. In `IDLE`, `EXEC` fetches the block and is the sector operation on it (or
nothing, for another kind), which completes with a storage layer that answers, the sequencer and both addresses kept;
elsewhere the byte replaces the half of the register that the state names, and the state moves on. -/
def Obligations.CommandPortCompletes : Prop :=
  ∀ s : State, s.cfg.Valid →
    (s.fdcSeq = .idle →
      exec (.outFdcCmd s.cfg.opSetcmd) s = .next { s with fdcSeq := .cmdLo, result := none } ∧
      exec (.outFdcCmd s.cfg.opSetdma) s = .next { s with fdcSeq := .dmaLo, result := none } ∧
      (∀ b, s.cfg.isFdcOp b = false → exec (.outFdcCmd b) s = .next { s with result := none }) ∧
      (let b := s.fetchBlock
       let t : State := { s with fdcCmdBuf := b }
       exec (.outFdcCmd s.cfg.opExec) s =
        if b.kind = s.cfg.kindRead then exec (.fdcblkRead b.drive b.track b.sector) t
        else if b.kind = s.cfg.kindWrite then exec (.fdcblkWrite b.drive b.track b.sector) t
        else .next { t with result := none }) ∧
      (s.storageStalled = false → ∃ t, exec (.outFdcCmd s.cfg.opExec) s = .next t ∧ t.fdcSeq = .idle ∧
        t.fdcCmdBuf = s.fetchBlock ∧ t.fdcCmdAddr = s.fdcCmdAddr ∧ t.fdcDmaAddr = s.fdcDmaAddr)) ∧
    (s.fdcSeq ≠ .idle → ∀ b,
      exec (.outFdcCmd b) s = .next
        (match s.fdcSeq with
          | .idle => { s with result := none }
          | .cmdLo => { s with fdcCmdAddr := s.fdcCmdAddr.extractLsb' 8 8 ++ b, fdcSeq := .cmdHi, result := none }
          | .cmdHi => { s with fdcCmdAddr := b ++ s.fdcCmdAddr.extractLsb' 0 8, fdcSeq := .idle, result := none }
          | .dmaLo => { s with fdcDmaAddr := s.fdcDmaAddr.extractLsb' 8 8 ++ b, fdcSeq := .dmaHi, result := none }
          | .dmaHi => { s with fdcDmaAddr := b ++ s.fdcDmaAddr.extractLsb' 0 8, fdcSeq := .idle, result := none }))

/-- Derived from 41_fdc.md section 2 (decision D10): the three bytes on the command port load a whole address, whatever
the two address bytes are. -/
def Obligations.ThreeBytesLoadAddress : Prop :=
  ∀ (s : State) (lo hi : Byte), s.cfg.Valid → s.fdcSeq = .idle →
    execSeq [.outFdcCmd s.cfg.opSetcmd, .outFdcCmd lo, .outFdcCmd hi] s
      = .next { s with fdcCmdAddr := addrOf hi lo, result := none } ∧
    execSeq [.outFdcCmd s.cfg.opSetdma, .outFdcCmd lo, .outFdcCmd hi] s
      = .next { s with fdcDmaAddr := addrOf hi lo, result := none }

/-- Derived from 70_reset_and_hazards.md R285 (decision D10): two writes of a byte that is no operation byte force `IDLE`
from every sequencer state, and only the two address registers may have changed. -/
def Obligations.TwoStrayBytesForceIdle : Prop :=
  ∀ (s : State) (b : Byte), s.cfg.isFdcOp b = false →
    ∃ a d, execSeq [.outFdcCmd b, .outFdcCmd b] s
      = .next { s with fdcSeq := .idle, fdcCmdAddr := a, fdcDmaAddr := d, result := none }

/-- Derived from 41_fdc.md R157, R158 (decisions D12, D13): the block's four bytes are fetched at FDC_CMDADDR with the
address wrapping at the top of memory; a block of neither kind causes no sector operation. -/
def Obligations.FetchWrapsAndOtherKindIgnored : Prop :=
  (∀ (s : State) (a : Addr), s.fdcCmdAddr = a →
    s.fetchBlock.kind = s.memRead (BitVec.ofNat 16 a.toNat) ∧
    s.fetchBlock.drive = s.memRead (BitVec.ofNat 16 ((a.toNat + 1) % memSize)) ∧
    s.fetchBlock.track = s.memRead (BitVec.ofNat 16 ((a.toNat + 2) % memSize)) ∧
    s.fetchBlock.sector = s.memRead (BitVec.ofNat 16 ((a.toNat + 3) % memSize))) ∧
  (∀ (s : State) (k d t n : Byte), exec (.fdcblkOther k d t n) s = .next { s with result := none }) ∧
  (∀ s : State, s.fetchBlock.kind ≠ s.cfg.kindRead → s.fetchBlock.kind ≠ s.cfg.kindWrite →
    exec .fdcExec s = .next { s with fdcCmdBuf := s.fetchBlock, result := none })

/-- Derived from 41_fdc.md R159 (its check 4 is decision D14, stated here in the source's words, "leaves room for a full
sector within the addressable space"): the request checks in their order, each the code of the first that fails, for a read and for a write; a request
that fails one touches nothing but FDC_STAT: no file, no byte of memory, no indicator. -/
def Obligations.FirstFailingCheckWins : Prop :=
  ∀ (s : State) (d t n : Byte), s.cfg.Valid →
    let reports (code : Byte) : Prop :=
      exec (.fdcblkRead d t n) s = .next { s with fdcStat := code, result := none } ∧
      exec (.fdcblkWrite d t n) s = .next { s with fdcStat := code, result := none }
    if s.cfg.numDrives ≤ d.toNat then reports s.cfg.stBadDrive
    else if s.cfg.trkMax.toNat < t.toNat then reports s.cfg.stBadTrack
    else if n.toNat = 0 ∨ s.cfg.sptMax.toNat < n.toNat then reports s.cfg.stBadSector
    else if memSize < s.fdcDmaAddr.toNat + s.cfg.secSz then reports s.cfg.stBadDmaAddress
    else if s.slot d.toNat = [] then reports s.cfg.stNoDisk
    else Admitted s d t n

/-- Derived from 41_fdc.md R161, on success: the sector's bytes go to memory at FDC_DMAADDR, ascending, every other byte of memory is as before,
no file changes, the code is `OK`. The recorded indicator signals are the model's choice (log 25; R163, decision D35). -/
def Obligations.SectorReadCopiesImageToMemory : Prop :=
  ∀ (s : State) (d t n : Byte) (f : File), s.cfg.Valid → Admitted s d t n → SectorInFile s d t n f →
    s.storageStalled = false → s.nextOutcome = .ok →
    ∃ u, exec (.fdcblkRead d t n) s = .next u ∧
      u = { s with fdcStat := s.cfg.stOk, secBuf := u.secBuf, mem := u.mem, ledRead := false, storage := u.storage,
                   draws := u.draws, signals := s.signals ++ [.ledRead true, .ledRead false], result := none } ∧
      (∀ i < s.cfg.secSz, u.memRead (s.fdcDmaAddr + BitVec.ofNat 16 i) = f.byte (sectorOffset s.cfg t n + i)) ∧
      (∀ key, OutsideDma s s.fdcDmaAddr key → u.byteAt key = s.byteAt key)

/-- Derived from 41_fdc.md R161, on failure (the oracle's laws are 20_memory.md R70, decision D16; open failure as NO_DISK is decision D15; the
read beyond the end of a short image is R69): the code of the step that failed, memory and files unchanged.
The recorded indicator signals are the model's choice (log 25; R163, decision D35). -/
def Obligations.FailedReadLeavesMemory : Prop :=
  ∀ (s : State) (d t n : Byte), s.cfg.Valid → Admitted s d t n → s.storageStalled = false →
    let fails (code : Byte) : Prop := ∃ u, exec (.fdcblkRead d t n) s = .next u ∧
      u = { s with fdcStat := code, secBuf := u.secBuf, ledRead := false, storage := u.storage, draws := u.draws,
                   signals := s.signals ++ [.ledRead true, .ledRead false], result := none }
    (s.fileOf (s.slot d.toNat) = none → fails s.cfg.stNoDisk) ∧
    (∀ f, s.fileOf (s.slot d.toNat) = some f →
      (s.nextOutcome = .openFail → fails s.cfg.stNoDisk) ∧
      (s.nextOutcome = .seekFail → fails s.cfg.stSeekFailed) ∧
      (s.nextOutcome = .short → fails s.cfg.stReadFailed) ∧
      (s.nextOutcome = .ok → f.size < sectorOffset s.cfg t n + s.cfg.secSz → fails s.cfg.stReadFailed))

/-- Derived from 41_fdc.md R162, on success: exactly the SEC_SZ bytes of the addressed sector change in the image of the drive, and they become
the bytes of memory from FDC_DMAADDR on; no other file and no byte of memory changes; the code is `OK`. The recorded
indicator signals are the model's choice (log 25; R163, decision D35). -/
def Obligations.SectorWriteCopiesMemoryToImage : Prop :=
  ∀ (s : State) (d t n : Byte) (f : File), s.cfg.Valid → Admitted s d t n → SectorInFile s d t n f →
    s.storageStalled = false → s.nextOutcome = .ok →
    ∃ u g, exec (.fdcblkWrite d t n) s = .next u ∧
      u = { s with fdcStat := s.cfg.stOk, secBuf := u.secBuf, fs := u.fs, ledWrite := false, storage := u.storage,
                   draws := u.draws, signals := s.signals ++ [.ledWrite true, .ledWrite false], result := none } ∧
      u.fileOf (s.slot d.toNat) = some g ∧ g.size = f.size ∧
      (∀ i, g.byte i =
        if sectorOffset s.cfg t n ≤ i ∧ i < sectorOffset s.cfg t n + s.cfg.secSz
        then s.memRead (s.fdcDmaAddr + BitVec.ofNat 16 (i - sectorOffset s.cfg t n)) else f.byte i) ∧
      (∀ p, p ≠ s.slot d.toNat → u.fileOf p = s.fileOf p)

/-- Derived from 41_fdc.md R162, on failure (decisions D15, D16): open and seek failures leave the image as it was; a short write leaves the
addressed sector's bytes unspecified and the rest of the image unchanged: the file is never shorter, and as long as before
where the sector lies inside it (a file that ends before the sector does may have grown: log 20). Memory never changes. The
recorded indicator signals are the model's choice (log 25; R163, decision D35). -/
def Obligations.FailedWriteSparesOtherSectors : Prop :=
  ∀ (s : State) (d t n : Byte), s.cfg.Valid → Admitted s d t n → s.storageStalled = false →
    let frame (u : State) (code : Byte) : Prop :=
      u = { s with fdcStat := code, secBuf := u.secBuf, fs := u.fs, ledWrite := false, storage := u.storage,
                   draws := u.draws, signals := s.signals ++ [.ledWrite true, .ledWrite false], result := none }
    (s.fileOf (s.slot d.toNat) = none →
      ∃ u, exec (.fdcblkWrite d t n) s = .next u ∧ frame u s.cfg.stNoDisk ∧ u.fs = s.fs) ∧
    (∀ f, s.fileOf (s.slot d.toNat) = some f →
      (s.nextOutcome = .openFail →
        ∃ u, exec (.fdcblkWrite d t n) s = .next u ∧ frame u s.cfg.stNoDisk ∧ u.fs = s.fs) ∧
      (s.nextOutcome = .seekFail →
        ∃ u, exec (.fdcblkWrite d t n) s = .next u ∧ frame u s.cfg.stSeekFailed ∧ u.fs = s.fs) ∧
      (s.nextOutcome = .short →
        ∃ u g, exec (.fdcblkWrite d t n) s = .next u ∧ frame u s.cfg.stWriteFailed ∧
          u.fileOf (s.slot d.toNat) = some g ∧ f.size ≤ g.size ∧
          (sectorOffset s.cfg t n + s.cfg.secSz ≤ f.size → g.size = f.size) ∧
          (∀ i < f.size, i < sectorOffset s.cfg t n ∨ sectorOffset s.cfg t n + s.cfg.secSz ≤ i → g.byte i = f.byte i) ∧
          (∀ p, p ≠ s.slot d.toNat → u.fileOf p = s.fileOf p)))

/-- Derived from 41_fdc.md R166 (never returning is the model's fault `storageStalled`, log 18): a sector operation that passes its checks
while the storage layer never answers never completes. The `OUT` that starts it is that operation on the fetched block
(`CommandBytesRunTheirRow`). -/
def Obligations.StuckStorageHangsMachine : Prop :=
  ∀ (s : State) (d t n : Byte), s.cfg.Valid → s.storageStalled = true → Admitted s d t n →
    exec (.fdcblkRead d t n) s = .fault .storageStalled ∧
    exec (.fdcblkWrite d t n) s = .fault .storageStalled

/-- Derived from 41_fdc.md R154, R164 and 10_state.md R22: an `EXEC` with a read or write kind completes, when the storage
layer answers, with one code in FDC_STAT that the operation can return, and leaves `FDC_SEQ` as it is. -/
def Obligations.ExecStoresOneCode : Prop :=
  ∀ s : State, s.storageStalled = false →
    (s.fetchBlock.kind = s.cfg.kindRead →
      ∃ u, exec .fdcExec s = .next u ∧ u.fdcSeq = s.fdcSeq ∧ u.fdcCmdBuf = s.fetchBlock ∧
        u.fdcStat ∈ [s.cfg.stOk, s.cfg.stBadDrive, s.cfg.stBadTrack, s.cfg.stBadSector, s.cfg.stBadDmaAddress,
          s.cfg.stNoDisk, s.cfg.stSeekFailed, s.cfg.stReadFailed]) ∧
    (s.fetchBlock.kind = s.cfg.kindWrite → s.cfg.kindWrite ≠ s.cfg.kindRead →
      ∃ u, exec .fdcExec s = .next u ∧ u.fdcSeq = s.fdcSeq ∧ u.fdcCmdBuf = s.fetchBlock ∧
        u.fdcStat ∈ [s.cfg.stOk, s.cfg.stBadDrive, s.cfg.stBadTrack, s.cfg.stBadSector, s.cfg.stBadDmaAddress,
          s.cfg.stNoDisk, s.cfg.stSeekFailed, s.cfg.stWriteFailed])

/-- Derived from 41_fdc.md R167 (for an image that holds the whole sector, which 20_memory.md R69 makes the host's duty): a
sector written with `OK` and then read with `OK`, with nothing in between that changes the drive's slot or the file, comes
back byte for byte, at any DMA address and under any bank. -/
def Obligations.SectorRoundTrip : Prop :=
  ∀ (s u v w : State) (d t n : Byte) (f : File), s.cfg.Valid → SectorInFile s d t n f →
    exec (.fdcblkWrite d t n) s = .next u → u.fdcStat = s.cfg.stOk →
    v.cfg = u.cfg → v.slot d.toNat = u.slot d.toNat → v.fileOf (u.slot d.toNat) = u.fileOf (u.slot d.toNat) →
    exec (.fdcblkRead d t n) v = .next w → w.fdcStat = s.cfg.stOk →
    ∀ i < s.cfg.secSz, w.memRead (v.fdcDmaAddr + BitVec.ofNat 16 i) = s.memRead (s.fdcDmaAddr + BitVec.ofNat 16 i)

/-- Derived from 20_memory.md R68 (unbounded naturals: decision D36) and R69: every sector lies inside a well-formed image,
the last of the last track too; and the offset is strictly increasing in sector within a track and in track across tracks,
so distinct sectors do not overlap. -/
def Obligations.DistinctSectorsDoNotOverlap : Prop :=
  ∀ (c : Config) (t n : Byte), c.Valid → t.toNat ≤ c.trkMax.toNat → 1 ≤ n.toNat → n.toNat ≤ c.sptMax.toNat →
    sectorOffset c t n + c.secSz ≤ c.imgSize ∧
    ∀ t' n' : Byte, 1 ≤ n'.toNat → n'.toNat ≤ c.sptMax.toNat → t.toNat < t'.toNat ∨ t = t' ∧ n.toNat < n'.toNat →
      sectorOffset c t n + c.secSz ≤ sectorOffset c t' n'

/-- Derived from 41_fdc.md R169 ("[derived: ...]"): what no write to the FDC command port touches: BANK_SEL, HWCTL_LOCK,
FP_VALUE, the slots, STOP_REQ and the CPU; memory outside the DMA range; any file but the addressed drive's. -/
def Obligations.FdcTouchesOnlyItsOwn : Prop :=
  ∀ (s u : State) (v : Byte), exec (.outFdcCmd v) s = .next u →
    u.bankSel = s.bankSel ∧ u.hwctlLock = s.hwctlLock ∧ u.fpValue = s.fpValue ∧ u.conLast = s.conLast ∧
    u.disk = s.disk ∧ u.stopReq = s.stopReq ∧ u.cpu = s.cpu ∧ u.cfg = s.cfg ∧ u.record = s.record ∧
    u.conIn = s.conIn ∧ u.conOut = s.conOut ∧ u.pending = s.pending ∧
    (∀ key, OutsideDma s s.fdcDmaAddr key → u.byteAt key = s.byteAt key) ∧
    (∀ p, p ≠ s.slot s.fetchBlock.drive.toNat → u.fileOf p = s.fileOf p)

/-! ## The hardware control port -/

/-- Derived from 43_hwctl.md R200 (the two bytes are parameters by decision D20): the port reads the lock status, with no
side effect. -/
def Obligations.LockStatusReadBack : Prop :=
  ∀ s : State, exec .inHwctl s
    = .next { s with result := some (if s.hwctlLock = .locked then s.cfg.lockedVal else s.cfg.unlockedVal) }

/-- R201: while `LOCKED`, every byte but 0xAA is ignored. -/
def Obligations.LockedPortIgnoresBytes : Prop :=
  ∀ (s : State) (v : Byte), s.cfg.Valid → s.hwctlLock = .locked → v ≠ 0xAA#8 →
    decode s.cfg (outWord s.cfg.pHwctl v) = .outHwctl v ∧
    exec (.outHwctl v) s = .next { s with result := none } ∧ exec (.hwkeyIgnored v) s = .next { s with result := none }

/-- R202: while `LOCKED`, 0xAA unlocks and has no other effect. -/
def Obligations.KeyUnlocks : Prop :=
  ∀ s : State, s.cfg.Valid → s.hwctlLock = .locked →
    decode s.cfg (outWord s.cfg.pHwctl 0xAA#8) = .outHwctl 0xAA#8 ∧
    exec (.outHwctl 0xAA#8) s = .next { s with hwctlLock := .unlocked, result := none } ∧
    exec .hwkeyUnlock s = .next { s with hwctlLock := .unlocked, result := none }

/-- Derived from 43_hwctl.md R204 (the two fields and the kind are decision D18): while `UNLOCKED`, a byte with bit 7 set (other than the key byte) re-locks and halts, and nothing else. -/
def Obligations.HaltCommandStopsCpu : Prop :=
  ∀ (s : State) (low : BitVec 7), s.hwctlLock = .unlocked → low ≠ 0x2A#7 →
    let t : State := { s with hwctlLock := .locked, cpu := { s.cpu with error := .ioHalt, state := .stopped },
                              result := none }
    exec (.hwHalt low) s = .next t ∧ exec (.outHwctl (1#1 ++ low)) s = .next t

/-- Derived from 43_hwctl.md section 3 (`HW.RESET`; the bank selector and the unspecified memory are decision D23, the
CPU engine's state log 16): bit 6 re-locks, resets CPU and memory state and sets the PC to the boot address last; the
FDC, the front panel, the console, the slots and STOP_REQ keep their values. -/
def Obligations.ResetCommandBootsCpu : Prop :=
  ∀ (s : State) (low : BitVec 6), s.hwctlLock = .unlocked →
    ∃ t, exec (.hwReset low) s = .next t ∧ exec (.outHwctl (0b01#2 ++ low)) s = .next t ∧
      t.cpu.pc = s.cfg.bootAddr ∧ t.cpu.model = s.cpu.model ∧
      t = { s with hwctlLock := .locked, bankSel := if s.cfg.resetClearsBank then 0#4 else s.bankSel, cpu := t.cpu,
                   mem := t.mem, memEpoch := t.memEpoch, draws := t.draws,
                   signals := s.signals ++ [.cpuReset, .memReset], result := none }

/-- Derived from 43_hwctl.md section 3 (R206, R207, and R209 with decision D24): bits 5 and 4 re-lock and switch the CPU
model when the build has both models, else they only re-lock. That the step leaves the rest of the CPU interface is the
model's choice where R206 puts the engine's part outside the source (log 43). -/
def Obligations.ModelSwitchNeedsBothModels : Prop :=
  ∀ (s : State) (l5 : BitVec 5) (l4 : BitVec 4), s.hwctlLock = .unlocked →
    let switched (m : CpuModel) : State :=
      if s.cfg.hasZ80 = true ∧ s.cfg.has8080 = true then
        { s with hwctlLock := .locked, cpu := { s.cpu with model := m }, signals := s.signals ++ [.switchCpu m],
                 result := none }
      else { s with hwctlLock := .locked, result := none }
    exec (.hwZ80 l5) s = .next (switched .z80) ∧ exec (.outHwctl (0b001#3 ++ l5)) s = .next (switched .z80) ∧
    exec (.hwI8080 l4) s = .next (switched .i8080) ∧ exec (.outHwctl (0b0001#4 ++ l4)) s = .next (switched .i8080)

/-- R208: a byte with bits 7:4 all zero only re-locks. -/
def Obligations.NopCommandSpendsUnlock : Prop :=
  ∀ (s : State) (low : BitVec 4), s.hwctlLock = .unlocked →
    exec (.hwNop low) s = .next { s with hwctlLock := .locked, result := none } ∧
    exec (.outHwctl (0b0000#4 ++ low)) s = .next { s with hwctlLock := .locked, result := none }

/-- Derived from 43_hwctl.md R210 (decision D21): 0xAA while `UNLOCKED` re-locks; it halts under `DECODE` and does nothing
more under `NOOP`. -/
def Obligations.SecondKeyByteByParameter : Prop :=
  ∀ s : State, s.hwctlLock = .unlocked →
    let t : State :=
      match s.cfg.doubleUnlock with
      | .decode => { s with hwctlLock := .locked, cpu := { s.cpu with error := .ioHalt, state := .stopped }, result := none }
      | .noop => { s with hwctlLock := .locked, result := none }
    exec .hwKeybyte s = .next t ∧ exec (.outHwctl 0xAA#8) s = .next t

/-- Derived from 43_hwctl.md R211, R212 ("[derived: ...]"): a write that finds the port `LOCKED` changes nothing but the
lock, which only the key opens; a write that finds it `UNLOCKED` leaves it `LOCKED`; no other transaction moves the lock;
and the port never writes the FDC, the front panel, the console byte, the slots or STOP_REQ. -/
def Obligations.OneCommandPerUnlock : Prop :=
  (∀ (s t : State) (v : Byte), exec (.outHwctl v) s = .next t →
    (s.hwctlLock = .locked → t = { s with hwctlLock := if v = 0xAA#8 then .unlocked else .locked, result := none }) ∧
    (s.hwctlLock = .unlocked → t.hwctlLock = .locked) ∧
    t.fdcStat = s.fdcStat ∧ t.fdcCmdAddr = s.fdcCmdAddr ∧ t.fdcDmaAddr = s.fdcDmaAddr ∧ t.fdcSeq = s.fdcSeq ∧
    t.fpValue = s.fpValue ∧ t.conLast = s.conLast ∧ t.disk = s.disk ∧ t.stopReq = s.stopReq ∧ t.fs = s.fs) ∧
  (∀ (s t : State) (c : Config) (w : BitVec 17), (∀ v, decode c (.io w) ≠ .outHwctl v) →
    exec (decode c (.io w)) s = .next t → t.hwctlLock = s.hwctlLock)

/-- Derived from 60_exceptions.md R253, R254 (the kinds are decision D18): the bad bank number and nothing else stops the CPU with `IOERROR`, an accepted command byte with bit 7 set
and nothing else with `IOHALT`: a transaction that changes any CPU-interface field is one of these or a reset or a model
switch, all of them accepted commands. That a model switch keeps error and state is log 43. -/
def Obligations.OnlyTwoHaltCauses : Prop :=
  ∀ (s t : State) (w : BitVec 17) (rest : List Event), s.pending = .transaction w :: rest → step s = .next t →
    t.cpu ≠ s.cpu →
    (∃ v, decode s.cfg (.io w) = .outMmuNoSuchBank v ∧ s.cfg.numSeg.toNat < v.toNat ∧ t.cpu.error = .ioError ∧
      t.cpu.state = .stopped) ∨
    (∃ v : Byte, decode s.cfg (.io w) = .outHwctl v ∧ s.hwctlLock = .unlocked ∧ t.hwctlLock = .locked ∧
      (v.getLsbD 7 = true → t.cpu.error = .ioHalt ∧ t.cpu.state = .stopped) ∧
      (v.getLsbD 7 = false → v.getLsbD 6 = true → t.cpu.pc = s.cfg.bootAddr) ∧
      (v.getLsbD 7 = false → v.getLsbD 6 = false → t.cpu.error = s.cpu.error ∧ t.cpu.state = s.cpu.state ∧
        t.cpu.pc = s.cpu.pc))

/-! ## The host and the outside -/

/-- Derived from 44_host_disk_registry.md R220 (the canonical path: decision D30): `mount` rejects a path a different drive holds and a file that does not open, leaving every slot as it was, and
stores the canonical path otherwise. The refused calls are a bad drive index and a path that does not fit (log 30). -/
def Obligations.MountGuardsAndStores : Prop :=
  ∀ (s : State) (drive : Nat) (name : Path), drive < s.cfg.numDrives → s.disk.length = s.cfg.numDrives →
    canonicalPath s.cfg name ≠ [] → (canonicalPath s.cfg name).length ≤ s.cfg.pathLen → s.storageStalled = false →
    ((∃ d' < s.cfg.numDrives, d' ≠ drive ∧ s.slot d' = canonicalPath s.cfg name) →
      hostMount drive name s = .next { s with hostResult := some (.mounted false) }) ∧
    ((∀ d' < s.cfg.numDrives, d' ≠ drive → s.slot d' ≠ canonicalPath s.cfg name) →
      (s.opens (canonicalPath s.cfg name) = false →
        ∃ t, hostMount drive name s = .next t ∧ t.hostResult = some (.mounted false) ∧ t.disk = s.disk) ∧
      (s.opens (canonicalPath s.cfg name) = true →
        ∃ t, hostMount drive name s = .next t ∧ t.hostResult = some (.mounted true) ∧
          t.slot drive = canonicalPath s.cfg name ∧ ∀ d' ≠ drive, t.slot d' = s.slot d'))

/-- R222: `unmount` clears the path unconditionally and changes nothing else. -/
def Obligations.UnmountEmptiesSlot : Prop :=
  ∀ (s : State) (drive : Nat), drive < s.cfg.numDrives →
    ∃ t, hostUnmount drive s = .next t ∧ t = { s with disk := t.disk, hostResult := some .unmounted } ∧
      t.slot drive = [] ∧ ∀ d' ≠ drive, t.slot d' = s.slot d'

/-- Derived from 44_host_disk_registry.md R223, under a storage layer that answers with success: `verify_all` empties exactly the non-empty slots whose file is
not in `FS` and counts them. -/
def Obligations.VerifyDropsDanglingMounts : Prop :=
  ∀ s : State, s.storageStalled = false → (∀ o ∈ s.storage, o = .ok) → s.disk.length ≤ s.storage.length →
    ∃ t, hostVerifyAll s = .next t ∧
      t.disk = s.disk.map (fun p => if p ≠ [] ∧ s.fileOf p = none then [] else p) ∧
      t.hostResult = some (.verified (s.disk.countP fun p => decide (p ≠ [] ∧ s.fileOf p = none))) ∧
      t = { s with disk := t.disk, storage := t.storage, draws := t.draws, hostResult := t.hostResult }

/-- Derived from 44_host_disk_registry.md R225 and 20_memory.md R65 (the loader's chunks; the draws of its reads are log
31): a file whose length is a whole number of sectors, loaded with every read answered, is in memory from address 0, every
other byte of memory is as before, no FDC register changes and the loader stops at the zero-length read. -/
def Obligations.BulkLoadFillsMemoryFromZero : Prop :=
  ∀ (s : State) (name : Path) (f : File) (chunks : Nat), s.cfg.Valid → s.storageStalled = false →
    s.fileOf (codePath s.cfg name) = some f → f.size = chunks * s.cfg.secSz → f.size ≤ memSize →
    (∀ o ∈ s.storage, o = .ok) → chunks + 2 ≤ s.storage.length →
    ∃ t, hostLoadImage name s = .next t ∧ t.hostResult = some (.loaded .stoppedZero) ∧
      t = { s with mem := t.mem, secBuf := t.secBuf, storage := t.storage, draws := t.draws, hostResult := t.hostResult } ∧
      (∀ i < f.size, t.memRead (BitVec.ofNat 16 i) = f.byte i) ∧
      (∀ key, (∀ i < f.size, key ≠ s.phys (BitVec.ofNat 16 i)) → t.byteAt key = s.byteAt key)

/-- Derived from 44_host_disk_registry.md R226 (the empty path as a field of zeros and the padding are log 33, the
values the writer takes log 44): the record
as saved has the fixed size, and read back in any state of the same configuration it gives the front-panel byte, the CPU
model, the speed value and the slots again. -/
def Obligations.RecordRoundTrip : Prop :=
  ∀ s t : State, s.cfg.Valid → t.cfg = s.cfg → s.disk.length = s.cfg.numDrives →
    (∀ p ∈ s.disk, p.length ≤ s.cfg.pathLen ∧ 0#8 ∉ p) → s.cpu.speed.length = s.cfg.speedW →
    ∃ r : List Byte,
      hostSaveRecord s = .next { s with record := some r, hostResult := some .recordSaved } ∧
      r.length = s.cfg.recordSize ∧ (t.loadRecord r).fpValue = s.fpValue ∧ (t.loadRecord r).disk = s.disk ∧
      (t.loadRecord r).cpu.model = s.cpu.model ∧ (t.loadRecord r).cpu.speed = s.cpu.speed

/-- Derived from 44_host_disk_registry.md R228 ("[derived: ...]"), 42_mmu.md R193 and 10_state.md R30, R32, R34: no host
operation reaches the bank selector, the lock, an FDC register but SECBUF, the console byte, STOP_REQ or the CPU
interface, and none writes a file. -/
def Obligations.HostCannotReachBlockRegisters : Prop :=
  ∀ (op : HostOp) (s t : State), runHost op s = .next t →
    t.bankSel = s.bankSel ∧ t.hwctlLock = s.hwctlLock ∧ t.fdcStat = s.fdcStat ∧ t.fdcCmdAddr = s.fdcCmdAddr ∧
    t.fdcDmaAddr = s.fdcDmaAddr ∧ t.fdcSeq = s.fdcSeq ∧ t.fdcCmdBuf = s.fdcCmdBuf ∧ t.conLast = s.conLast ∧
    t.stopReq = s.stopReq ∧ t.cpu = s.cpu ∧ t.fs = s.fs

/-- Derived from 10_state.md R31, R32 and 60_exceptions.md R256: no instruction writes a drive's slot, the flag STOP_REQ,
the configuration record or a parameter, takes an event, or answers for the host. -/
def Obligations.InstructionsNeverWriteSlots : Prop :=
  ∀ (i : Instr) (s t : State), exec i s = .next t →
    t.disk = s.disk ∧ t.stopReq = s.stopReq ∧ t.record = s.record ∧ t.cfg = s.cfg ∧ t.pending = s.pending ∧
    t.hostResult = s.hostResult

/-- R78: the listener's write sets `STOP_REQ` and touches nothing else. -/
def Obligations.BreakSetsOnlyStopReq : Prop :=
  ∀ (s : State) (rest : List Event), s.pending = .env .breakSignal :: rest →
    step s = .next { s with stopReq := true, pending := rest }

/-! ## Reset and invariants -/

/-- Derived from 70_reset_and_hazards.md R280 (decision D28; "Initial: LOCKED" is the source's own): what power-on reset
leaves where no record is read, as the reset state and as the power-on event. That the event keeps `FS` is R281 ("[derived:
...]"), and so is, as the model reads it, the kept console input (log 35). -/
def Obligations.ResetValues : Prop :=
  let leaves (t : State) : Prop := PoweredOn t ∧ t.disk = List.replicate t.cfg.numDrives []
  leaves State.reset ∧ ∀ s : State, s.record = none → ∃ t, runEnv .powerOn s = .next t ∧ leaves t ∧ t.cfg = s.cfg ∧
    t.fs = s.fs ∧ t.conIn = s.conIn

/-- The invariant holds right after reset. -/
def Obligations.ResetMeetsInvariant : Prop :=
  Inv State.reset ∧ SlotsDistinct State.reset

/-- Derived from 10_state.md R21, R22, R27, R31, R38: every step, of a transaction, of a host operation or of an outside
event, keeps the machine's invariant: BANK_SEL ≤ NUMSEG, FDC_STAT one of the nine codes, SECBUF of SEC_SZ bytes,
NUM_DRIVES slots of bounded paths, both indicators off, memory and files in canonical form. -/
def Obligations.StepKeepsInvariant : Prop :=
  ∀ s t : State, Inv s → step s = .next t → Inv t

/-- Derived from 44_host_disk_registry.md R229 ("[derived: ...]"): no step but a power-on, whose record the host answers
for, makes two slots hold one path. -/
def Obligations.StepKeepsSlotsDistinct : Prop :=
  ∀ s t : State, SlotsDistinct s → s.pending.head? ≠ some (.env .powerOn) → step s = .next t → SlotsDistinct t

/-- Derived from 70_reset_and_hazards.md R280 steps 2 to 4 (decision D28), 44_host_disk_registry.md R223, R226 and, for the
storage layer that never answers, 70 R289 (log 18); where a path string ends is log 33. A power-on with a stored record of
the fixed size (another size: log 34) loads the CPU model, the speed value, the front-panel byte and the path of each drive,
and then drops the dangling ones: a slot holds its path or is empty, and is empty where the file is not there; when every
probe is answered with success, a path whose file is there stays. -/
def Obligations.PowerOnLoadsRecord : Prop :=
  ∀ (s : State) (r : List Byte), s.cfg.Valid → s.record = some r → r.length = s.cfg.recordSize →
    (s.storageStalled = false → ∃ t, runEnv .powerOn s = .next t ∧ PoweredOn t ∧ t.cfg = s.cfg ∧ t.fs = s.fs ∧
      t.record = s.record ∧ r[s.cfg.modelW + s.cfg.speedW]? = some t.fpValue ∧
      (recordField r 0 s.cfg.modelW = s.cfg.selZ80 → t.cpu.model = .z80) ∧
      (recordField r 0 s.cfg.modelW = s.cfg.selI8080 → t.cpu.model = .i8080) ∧
      t.cpu.speed = recordField r s.cfg.modelW s.cfg.speedW ∧ t.disk.length = s.cfg.numDrives ∧
      (∀ d < s.cfg.numDrives, t.slot d = recordPath s.cfg r d ∨ t.slot d = []) ∧
      (∀ d < s.cfg.numDrives, s.fileOf (recordPath s.cfg r d) = none → t.slot d = []) ∧
      ((∀ o ∈ s.storage, o = .ok) → s.cfg.numDrives ≤ s.storage.length →
        ∀ d < s.cfg.numDrives, s.fileOf (recordPath s.cfg r d) ≠ none → t.slot d = recordPath s.cfg r d)) ∧
    (s.storageStalled = true → (∃ d < s.cfg.numDrives, recordPath s.cfg r d ≠ []) →
      runEnv .powerOn s = .fault .storageStalled)
end

