-- ==== Sys2Proof/Laws/Cells.lean ====
section
/-! SUPPORT. The laws of cells and of the file store: a read after a write, the canonical form kept by every operation,
and equal reads are equal data. -/

namespace Sys2Proof.Machine

variable (bg : Nat → Byte)

/-! ## Reads after writes -/

theorem Cells.get_put (j k : Nat) (v : Byte) (cs : List Host.Cell) :
    Cells.get bg j (Cells.put k v cs) = if j = k then v else Cells.get bg j cs := by
  induction cs with
  | nil => simp only [Cells.put, Cells.get, eq_comm]
  | cons c cs ih =>
    by_cases h1 : k < c.1
    · rw [Cells.put, if_pos h1, Cells.get]
      simp only [eq_comm]
    by_cases h2 : k = c.1
    · rw [Cells.put, if_neg h1, if_pos h2, Cells.get, Cells.get]
      by_cases hj : j = k
      · rw [if_pos hj, if_pos hj.symm]
      · rw [if_neg hj, if_neg (Ne.symm hj), if_neg (h2 ▸ Ne.symm hj)]
    · rw [Cells.put, if_neg h1, if_neg h2, Cells.get, ih, Cells.get]
      by_cases hc : c.1 = j
      · rw [if_pos hc, if_pos hc, if_neg fun h => h2 (h.symm.trans hc.symm)]
      · rw [if_neg hc, if_neg hc]

theorem Cells.get_del (j k : Nat) (cs : List Host.Cell) :
    Cells.get bg j (Cells.del k cs) = if j = k then bg k else Cells.get bg j cs := by
  induction cs with
  | nil => simp only [Cells.del, Cells.get]; split_ifs <;> simp_all
  | cons c cs ih =>
    simp only [Cells.del]
    split_ifs with h1 h2
    · rw [ih, if_pos h2]
    · rw [ih, if_neg h2, Cells.get, if_neg]; rintro rfl; exact h2 h1
    · simp only [Cells.get, ih]; split_ifs <;> simp_all
    · simp only [Cells.get, ih]; split_ifs <;> simp_all

/-- The law of a byte store: the byte written reads back, every other byte is left alone. -/
theorem Cells.get_set (j k : Nat) (v : Byte) (cs : List Host.Cell) :
    Cells.get bg j (Cells.set bg k v cs) = if j = k then v else Cells.get bg j cs := by
  unfold Cells.set
  split_ifs with h1 h2 h2
  · rw [Cells.get_del, if_pos h2, h1]
  · rw [Cells.get_del, if_neg h2]
  · rw [Cells.get_put, if_pos h2]
  · rw [Cells.get_put, if_neg h2]

theorem Cells.get_setRange (j k : Nat) (l : List Byte) (cs : List Host.Cell) :
    Cells.get bg j (Cells.setRange bg k l cs)
      = if k ≤ j ∧ j < k + l.length then l.getD (j - k) 0#8 else Cells.get bg j cs := by
  induction l generalizing k cs with
  | nil => rw [Cells.setRange, if_neg]; simp only [List.length_nil]; omega
  | cons b l ih =>
    rw [Cells.setRange, ih, Cells.get_set]
    rcases lt_trichotomy j k with h | rfl | h
    · rw [if_neg (by omega), if_neg (by omega), if_neg (by omega)]
    · rw [if_neg (by omega), if_pos rfl, if_pos (by simp)]; simp
    · have hj : j - k = (j - (k + 1)) + 1 := by omega
      rw [if_neg (show ¬ j = k by omega), hj, List.getD_cons_succ]
      simp only [List.length_cons]
      split_ifs <;> first | rfl | omega

/-! ## The canonical form -/

theorem Cells.mem_put {c : Host.Cell} {k : Nat} {v : Byte} {cs : List Host.Cell} (h : c ∈ Cells.put k v cs) :
    c = (k, v) ∨ c ∈ cs := by
  induction cs with
  | nil => simpa [Cells.put] using h
  | cons d cs ih =>
    simp only [Cells.put] at h
    split_ifs at h with h1 h2
    · simpa using h
    · rcases List.mem_cons.1 h with h | h
      · exact .inl h
      · exact .inr (List.mem_cons_of_mem _ h)
    · rcases List.mem_cons.1 h with h | h
      · exact .inr (h ▸ List.mem_cons_self ..)
      · exact (ih h).imp_right (List.mem_cons_of_mem _)

theorem Cells.mem_del {c : Host.Cell} {k : Nat} {cs : List Host.Cell} (h : c ∈ Cells.del k cs) : c ∈ cs := by
  induction cs with
  | nil => simp [Cells.del] at h
  | cons d cs ih =>
    simp only [Cells.del] at h
    split_ifs at h
    · exact List.mem_cons_of_mem _ (ih h)
    · rcases List.mem_cons.1 h with h | h
      · exact h ▸ List.mem_cons_self ..
      · exact List.mem_cons_of_mem _ (ih h)

theorem Cells.mem_set {c : Host.Cell} {k : Nat} {v : Byte} {cs : List Host.Cell} (h : c ∈ Cells.set bg k v cs) :
    c = (k, v) ∨ c ∈ cs := by
  unfold Cells.set at h
  split_ifs at h
  · exact .inr (Cells.mem_del h)
  · exact Cells.mem_put h

theorem Cells.sorted_put {k : Nat} {v : Byte} {cs : List Host.Cell} (h : cs.Pairwise (fun a b => a.1 < b.1)) :
    (Cells.put k v cs).Pairwise (fun a b => a.1 < b.1) := by
  induction cs with
  | nil => simp [Cells.put]
  | cons c cs ih =>
    obtain ⟨hc, hcs⟩ := List.pairwise_cons.1 h
    simp only [Cells.put]
    split_ifs with h1 h2
    · refine List.pairwise_cons.2 ⟨fun d hd => ?_, h⟩
      rcases List.mem_cons.1 hd with rfl | hd
      · exact h1
      · exact h1.trans (hc d hd)
    · exact List.pairwise_cons.2 ⟨fun d hd => h2 ▸ hc d hd, hcs⟩
    · refine List.pairwise_cons.2 ⟨fun d hd => ?_, ih hcs⟩
      rcases Cells.mem_put hd with rfl | hd
      · exact lt_of_le_of_ne (Nat.le_of_not_lt h1) (Ne.symm h2)
      · exact hc d hd

theorem Cells.sorted_del {k : Nat} {cs : List Host.Cell} (h : cs.Pairwise (fun a b => a.1 < b.1)) :
    (Cells.del k cs).Pairwise (fun a b => a.1 < b.1) := by
  induction cs with
  | nil => simp [Cells.del]
  | cons c cs ih =>
    obtain ⟨hc, hcs⟩ := List.pairwise_cons.1 h
    simp only [Cells.del]
    split_ifs
    · exact ih hcs
    · exact List.pairwise_cons.2 ⟨fun d hd => hc d (Cells.mem_del hd), ih hcs⟩

/-- A store keeps the canonical form. -/
theorem Cells.set_wf {k : Nat} {v : Byte} {cs : List Host.Cell} (h : Cells.Wf bg cs) :
    Cells.Wf bg (Cells.set bg k v cs) := by
  unfold Cells.set
  split_ifs with hv
  · exact ⟨Cells.sorted_del h.1, fun c hc => h.2 c (Cells.mem_del hc)⟩
  · refine ⟨Cells.sorted_put h.1, fun c hc => ?_⟩
    rcases Cells.mem_put hc with rfl | hc
    · exact hv
    · exact h.2 c hc

theorem Cells.setRange_wf {k : Nat} {l : List Byte} {cs : List Host.Cell} (h : Cells.Wf bg cs) :
    Cells.Wf bg (Cells.setRange bg k l cs) := by
  induction l generalizing k cs with
  | nil => exact h
  | cons b l ih => exact ih (Cells.set_wf bg h)

/-- A range store lists keys of the range or keys that were listed. -/
theorem Cells.mem_setRange {c : Host.Cell} {k : Nat} {l : List Byte} {cs : List Host.Cell}
    (h : c ∈ Cells.setRange bg k l cs) : (k ≤ c.1 ∧ c.1 < k + l.length) ∨ c ∈ cs := by
  induction l generalizing k cs with
  | nil => exact .inr h
  | cons b l ih =>
    rcases ih h with ⟨h1, h2⟩ | h'
    · exact .inl ⟨by omega, by simp only [List.length_cons]; omega⟩
    · rcases Cells.mem_set bg h' with rfl | h''
      · exact .inl ⟨le_rfl, by simp⟩
      · exact .inr h''

theorem Cells.get_of_forall_ne {k : Nat} {cs : List Host.Cell} (h : ∀ c ∈ cs, c.1 ≠ k) : Cells.get bg k cs = bg k := by
  induction cs with
  | nil => rfl
  | cons c cs ih =>
    rw [Cells.get, if_neg (h c (List.mem_cons_self ..))]
    exact ih fun d hd => h d (List.mem_cons_of_mem _ hd)

/-- Equal memories are equal data: two canonical forms that read alike everywhere are the same list. -/
theorem Cells.ext_of_wf {cs ds : List Host.Cell} (hc : Cells.Wf bg cs) (hd : Cells.Wf bg ds)
    (h : ∀ k, Cells.get bg k cs = Cells.get bg k ds) : cs = ds := by
  induction cs generalizing ds with
  | nil =>
    cases ds with
    | nil => rfl
    | cons d ds =>
      have := h d.1
      simp only [Cells.get, if_true] at this
      exact absurd this.symm (hd.2 d (List.mem_cons_self ..))
  | cons c cs ih =>
    cases ds with
    | nil =>
      have := h c.1
      simp only [Cells.get, if_true] at this
      exact absurd this (hc.2 c (List.mem_cons_self ..))
    | cons d ds =>
      obtain ⟨hc1, hc2⟩ := List.pairwise_cons.1 hc.1
      obtain ⟨hd1, hd2⟩ := List.pairwise_cons.1 hd.1
      have below : ∀ (x : Host.Cell) (xs : List Host.Cell) (k : Nat), (∀ y ∈ xs, x.1 < y.1) → k < x.1 →
          Cells.get bg k (x :: xs) = bg k := by
        intro x xs k hx hk
        refine Cells.get_of_forall_ne bg fun y hy => ?_
        rcases List.mem_cons.1 hy with rfl | hy
        · exact hk.ne'
        · exact (hk.trans (hx y hy)).ne'
      have hkey : c.1 = d.1 := by
        rcases lt_trichotomy c.1 d.1 with hlt | heq | hlt
        · have := h c.1
          rw [below d ds c.1 hd1 hlt] at this
          simp only [Cells.get, if_true] at this
          exact absurd this (hc.2 c (List.mem_cons_self ..))
        · exact heq
        · have := h d.1
          rw [below c cs d.1 hc1 hlt] at this
          simp only [Cells.get, if_true] at this
          exact absurd this.symm (hd.2 d (List.mem_cons_self ..))
      have hval : c.2 = d.2 := by
        have := h c.1
        simpa only [Cells.get, if_true, if_pos hkey.symm] using this
      have htail : cs = ds := by
        refine ih ⟨hc2, fun x hx => hc.2 x (List.mem_cons_of_mem _ hx)⟩ ⟨hd2, fun x hx => hd.2 x (List.mem_cons_of_mem _ hx)⟩
          fun k => ?_
        by_cases hk : c.1 = k
        · rw [Cells.get_of_forall_ne bg fun y hy => hk ▸ (hc1 y hy).ne',
            Cells.get_of_forall_ne bg fun y hy => hk ▸ hkey ▸ (hd1 y hy).ne']
        · have := h k
          simpa only [Cells.get, if_neg hk, if_neg (hkey ▸ hk)] using this
      rw [htail, Prod.ext hkey hval]

/-! ## Files -/

theorem File.cellsFrom_spec (k : Nat) (l : List Byte) :
    Cells.Wf File.background (File.cellsFrom k l) ∧ ∀ c ∈ File.cellsFrom k l, k ≤ c.1 ∧ c.1 < k + l.length := by
  induction l generalizing k with
  | nil => exact ⟨⟨List.Pairwise.nil, by simp [File.cellsFrom]⟩, by simp [File.cellsFrom]⟩
  | cons b l ih =>
    obtain ⟨hw, hk⟩ := ih (k + 1)
    simp only [File.cellsFrom, List.length_cons]
    split_ifs with hb
    · exact ⟨hw, fun c hc => ⟨by have := hk c hc; omega, by have := hk c hc; omega⟩⟩
    · refine ⟨⟨List.pairwise_cons.2 ⟨fun c hc => ?_, hw.1⟩, fun c hc => ?_⟩, fun c hc => ?_⟩
      · have := hk c hc; simp only; omega
      · rcases List.mem_cons.1 hc with rfl | hc
        · exact hb
        · exact hw.2 c hc
      · rcases List.mem_cons.1 hc with rfl | hc
        · simp
        · have := hk c hc; omega

theorem File.ofBytes_wf (l : List Byte) : (File.ofBytes l).Wf := by
  obtain ⟨hw, hk⟩ := File.cellsFrom_spec 0 l
  exact ⟨hw, fun c hc => by simpa [File.ofBytes] using (hk c hc).2⟩

theorem File.get_cellsFrom (j k : Nat) (l : List Byte) :
    Cells.get File.background j (File.cellsFrom k l)
      = if k ≤ j ∧ j < k + l.length then l.getD (j - k) 0#8 else 0#8 := by
  induction l generalizing k with
  | nil => rw [if_neg (by simp only [List.length_nil]; omega)]; rfl
  | cons b l ih =>
    have hstep : Cells.get File.background j (File.cellsFrom k (b :: l))
        = if k = j then b else Cells.get File.background j (File.cellsFrom (k + 1) l) := by
      simp only [File.cellsFrom]
      split_ifs with hb hk hk
      · subst hk hb
        rw [Cells.get_of_forall_ne]
        · rfl
        · intro c hc; have := ((File.cellsFrom_spec (k + 1) l).2 c hc).1; omega
      · rfl
      · simp [Cells.get, hk]
      · simp [Cells.get, hk]
    rw [hstep, ih]
    rcases lt_trichotomy j k with h | rfl | h
    · rw [if_neg (by omega), if_neg (by omega), if_neg (by omega)]
    · rw [if_pos rfl, if_pos (by simp)]; simp
    · have hj : j - k = (j - (k + 1)) + 1 := by omega
      rw [if_neg (by omega), hj, List.getD_cons_succ]
      simp only [List.length_cons]
      split_ifs <;> first | rfl | omega

/-- The file of a content holds that content. -/
theorem File.byte_ofBytes (l : List Byte) (i : Nat) : (File.ofBytes l).byte i = l.getD i 0#8 := by
  rw [File.byte, File.ofBytes, File.get_cellsFrom]
  simp only [Nat.zero_le, true_and, Nat.zero_add, Nat.sub_zero]
  split_ifs with h
  · rfl
  · rw [List.getD_eq_default _ _ (by omega)]

/-- A write replaces the bytes it writes and no others. -/
theorem File.byte_write (f : File) (off : Nat) (l : List Byte) (i : Nat) :
    (f.write off l).byte i = if off ≤ i ∧ i < off + l.length then l.getD (i - off) 0#8 else f.byte i :=
  Cells.get_setRange File.background i off l f.cells

theorem File.write_wf {f : File} {off : Nat} {l : List Byte} (h : f.Wf) (hin : off + l.length ≤ f.size) :
    (f.write off l).Wf := by
  refine ⟨Cells.setRange_wf _ h.1, fun c hc => ?_⟩
  rcases Cells.mem_setRange _ hc with ⟨_, h2⟩ | hc
  · exact h2.trans_le hin
  · exact h.2 c hc

/-- An unspecified write leaves every byte before the old end and outside the target alone. -/
theorem File.byte_scramble (f : File) {off n d i : Nat} (hi : i < f.size) (hout : i < off ∨ off + n ≤ i) :
    (f.scramble off n d).byte i = f.byte i := by
  simp only [File.scramble, File.byte]
  rw [Cells.get_setRange, if_neg]
  simp only [List.length_map, List.length_range]
  omega

theorem File.size_scramble (f : File) (off n d : Nat) :
    f.size ≤ (f.scramble off n d).size ∧ (f.scramble off n d).size ≤ max f.size (off + n) := by
  have := Nat.mod_lt (Config.freeNat d 0) (show 0 < off + n - f.size + 1 by omega)
  simp only [File.scramble]
  omega

theorem File.scramble_wf {f : File} (off n d : Nat) (h : f.Wf) : (f.scramble off n d).Wf := by
  refine ⟨Cells.setRange_wf _ h.1, fun c hc => ?_⟩
  have hs := (File.size_scramble f off n d).1
  rcases Cells.mem_setRange _ hc with ⟨_, h2⟩ | hc
  · simp only [List.length_map, List.length_range] at h2
    simp only [File.scramble] at hs ⊢
    omega
  · exact (h.2 c hc).trans_le hs

/-- A full-sector write, inside the image or beyond its end, keeps the file's form. -/
theorem File.write_or_scramble_wf {f : File} (off d : Nat) (l : List Byte) (h : f.Wf) :
    (if off + l.length ≤ f.size then f.write off l else f.scramble off l.length d).Wf := by
  split_ifs with hin
  · exact File.write_wf h hin
  · exact File.scramble_wf _ _ _ h

/-! ## The file store -/

theorem Fs.get_set (p q : Path) (f : File) (fs : List (Path × File)) :
    Fs.get q (Fs.set p f fs) = if q = p then some f else Fs.get q fs := by
  induction fs with
  | nil => simp only [Fs.set, Fs.get, eq_comm]
  | cons e es ih =>
    simp only [Fs.set]
    split_ifs with h1 h2 h2
    · subst h1; simp [Fs.get, h2]
    · simp only [Fs.get]; rw [if_neg (fun h => h2 h.symm), if_neg (fun h => h2 (h1 ▸ h.symm))]
    · simp only [Fs.get, ih, if_pos h2]; rw [if_neg (h2 ▸ h1)]
    · simp only [Fs.get, ih, if_neg h2]

theorem Fs.get_mem {p : Path} {f : File} {fs : List (Path × File)} (h : Fs.get p fs = some f) : (p, f) ∈ fs := by
  induction fs with
  | nil => simp [Fs.get] at h
  | cons e es ih =>
    simp only [Fs.get] at h
    split_ifs at h with h1
    · cases h; subst h1; exact List.mem_cons_self ..
    · exact List.mem_cons_of_mem _ (ih h)

theorem Fs.mem_set {e : Path × File} {p : Path} {f : File} {fs : List (Path × File)} (h : e ∈ Fs.set p f fs) :
    e = (p, f) ∨ e ∈ fs := by
  induction fs with
  | nil => simpa [Fs.set] using h
  | cons d ds ih =>
    simp only [Fs.set] at h
    split_ifs at h
    · exact (List.mem_cons.1 h).imp_right (List.mem_cons_of_mem _)
    · rcases List.mem_cons.1 h with h | h
      · exact .inr (h ▸ List.mem_cons_self ..)
      · exact (ih h).imp_right (List.mem_cons_of_mem _)

theorem Fs.mem_del {e : Path × File} {p : Path} {fs : List (Path × File)} (h : e ∈ Fs.del p fs) : e ∈ fs := by
  induction fs with
  | nil => simp [Fs.del] at h
  | cons d ds ih =>
    simp only [Fs.del] at h
    split_ifs at h
    · exact List.mem_cons_of_mem _ (ih h)
    · rcases List.mem_cons.1 h with h | h
      · exact h ▸ List.mem_cons_self ..
      · exact List.mem_cons_of_mem _ (ih h)

theorem Fs.keys_set (p : Path) (f : File) (fs : List (Path × File)) (h : (fs.map Prod.fst).Nodup) :
    ((Fs.set p f fs).map Prod.fst).Nodup := by
  induction fs with
  | nil => simp [Fs.set]
  | cons e es ih =>
    simp only [List.map_cons, List.nodup_cons] at h
    simp only [Fs.set]
    split_ifs with h1
    · simpa [h1] using h
    · simp only [List.map_cons, List.nodup_cons]
      refine ⟨fun hm => ?_, ih h.2⟩
      obtain ⟨x, hx, hxe⟩ := List.mem_map.1 hm
      rcases Fs.mem_set hx with rfl | hx
      · exact h1 hxe.symm
      · exact h.1 (hxe ▸ List.mem_map_of_mem hx)

theorem Fs.keys_del (p : Path) (fs : List (Path × File)) (h : (fs.map Prod.fst).Nodup) :
    ((Fs.del p fs).map Prod.fst).Nodup := by
  induction fs with
  | nil => simp [Fs.del]
  | cons e es ih =>
    simp only [List.map_cons, List.nodup_cons] at h
    simp only [Fs.del]
    split_ifs
    · exact ih h.2
    · simp only [List.map_cons, List.nodup_cons]
      refine ⟨fun hm => ?_, ih h.2⟩
      obtain ⟨x, hx, hxe⟩ := List.mem_map.1 hm
      exact h.1 (hxe ▸ List.mem_map_of_mem (Fs.mem_del hx))

end Sys2Proof.Machine
end

