-- ==== Sys2Proof/Laws/State.lean ====
section
/-! SUPPORT. One lemma per field per update of State, so that no proof unfolds a record update. -/

namespace Sys2Proof.Machine

/-! ### answer -/

@[simp] theorem State.answer_cfg (s : State) (b : Byte) : (s.answer b).cfg = s.cfg := rfl
@[simp] theorem State.answer_bankSel (s : State) (b : Byte) : (s.answer b).bankSel = s.bankSel := rfl
@[simp] theorem State.answer_fdcStat (s : State) (b : Byte) : (s.answer b).fdcStat = s.fdcStat := rfl
@[simp] theorem State.answer_fdcCmdAddr (s : State) (b : Byte) : (s.answer b).fdcCmdAddr = s.fdcCmdAddr := rfl
@[simp] theorem State.answer_fdcDmaAddr (s : State) (b : Byte) : (s.answer b).fdcDmaAddr = s.fdcDmaAddr := rfl
@[simp] theorem State.answer_fdcSeq (s : State) (b : Byte) : (s.answer b).fdcSeq = s.fdcSeq := rfl
@[simp] theorem State.answer_fdcCmdBuf (s : State) (b : Byte) : (s.answer b).fdcCmdBuf = s.fdcCmdBuf := rfl
@[simp] theorem State.answer_secBuf (s : State) (b : Byte) : (s.answer b).secBuf = s.secBuf := rfl
@[simp] theorem State.answer_hwctlLock (s : State) (b : Byte) : (s.answer b).hwctlLock = s.hwctlLock := rfl
@[simp] theorem State.answer_fpValue (s : State) (b : Byte) : (s.answer b).fpValue = s.fpValue := rfl
@[simp] theorem State.answer_conLast (s : State) (b : Byte) : (s.answer b).conLast = s.conLast := rfl
@[simp] theorem State.answer_disk (s : State) (b : Byte) : (s.answer b).disk = s.disk := rfl
@[simp] theorem State.answer_stopReq (s : State) (b : Byte) : (s.answer b).stopReq = s.stopReq := rfl
@[simp] theorem State.answer_cpu (s : State) (b : Byte) : (s.answer b).cpu = s.cpu := rfl
@[simp] theorem State.answer_mem (s : State) (b : Byte) : (s.answer b).mem = s.mem := rfl
@[simp] theorem State.answer_memEpoch (s : State) (b : Byte) : (s.answer b).memEpoch = s.memEpoch := rfl
@[simp] theorem State.answer_fs (s : State) (b : Byte) : (s.answer b).fs = s.fs := rfl
@[simp] theorem State.answer_record (s : State) (b : Byte) : (s.answer b).record = s.record := rfl
@[simp] theorem State.answer_conIn (s : State) (b : Byte) : (s.answer b).conIn = s.conIn := rfl
@[simp] theorem State.answer_conOut (s : State) (b : Byte) : (s.answer b).conOut = s.conOut := rfl
@[simp] theorem State.answer_ledRead (s : State) (b : Byte) : (s.answer b).ledRead = s.ledRead := rfl
@[simp] theorem State.answer_ledWrite (s : State) (b : Byte) : (s.answer b).ledWrite = s.ledWrite := rfl
@[simp] theorem State.answer_storage (s : State) (b : Byte) : (s.answer b).storage = s.storage := rfl
@[simp] theorem State.answer_storageStalled (s : State) (b : Byte) : (s.answer b).storageStalled = s.storageStalled := rfl
@[simp] theorem State.answer_draws (s : State) (b : Byte) : (s.answer b).draws = s.draws := rfl
@[simp] theorem State.answer_signals (s : State) (b : Byte) : (s.answer b).signals = s.signals := rfl
@[simp] theorem State.answer_result (s : State) (b : Byte) : (s.answer b).result = some b := rfl
@[simp] theorem State.answer_hostResult (s : State) (b : Byte) : (s.answer b).hostResult = s.hostResult := rfl
@[simp] theorem State.answer_pending (s : State) (b : Byte) : (s.answer b).pending = s.pending := rfl

/-! ### noAnswer -/

@[simp] theorem State.noAnswer_cfg (s : State) : (s.noAnswer).cfg = s.cfg := rfl
@[simp] theorem State.noAnswer_bankSel (s : State) : (s.noAnswer).bankSel = s.bankSel := rfl
@[simp] theorem State.noAnswer_fdcStat (s : State) : (s.noAnswer).fdcStat = s.fdcStat := rfl
@[simp] theorem State.noAnswer_fdcCmdAddr (s : State) : (s.noAnswer).fdcCmdAddr = s.fdcCmdAddr := rfl
@[simp] theorem State.noAnswer_fdcDmaAddr (s : State) : (s.noAnswer).fdcDmaAddr = s.fdcDmaAddr := rfl
@[simp] theorem State.noAnswer_fdcSeq (s : State) : (s.noAnswer).fdcSeq = s.fdcSeq := rfl
@[simp] theorem State.noAnswer_fdcCmdBuf (s : State) : (s.noAnswer).fdcCmdBuf = s.fdcCmdBuf := rfl
@[simp] theorem State.noAnswer_secBuf (s : State) : (s.noAnswer).secBuf = s.secBuf := rfl
@[simp] theorem State.noAnswer_hwctlLock (s : State) : (s.noAnswer).hwctlLock = s.hwctlLock := rfl
@[simp] theorem State.noAnswer_fpValue (s : State) : (s.noAnswer).fpValue = s.fpValue := rfl
@[simp] theorem State.noAnswer_conLast (s : State) : (s.noAnswer).conLast = s.conLast := rfl
@[simp] theorem State.noAnswer_disk (s : State) : (s.noAnswer).disk = s.disk := rfl
@[simp] theorem State.noAnswer_stopReq (s : State) : (s.noAnswer).stopReq = s.stopReq := rfl
@[simp] theorem State.noAnswer_cpu (s : State) : (s.noAnswer).cpu = s.cpu := rfl
@[simp] theorem State.noAnswer_mem (s : State) : (s.noAnswer).mem = s.mem := rfl
@[simp] theorem State.noAnswer_memEpoch (s : State) : (s.noAnswer).memEpoch = s.memEpoch := rfl
@[simp] theorem State.noAnswer_fs (s : State) : (s.noAnswer).fs = s.fs := rfl
@[simp] theorem State.noAnswer_record (s : State) : (s.noAnswer).record = s.record := rfl
@[simp] theorem State.noAnswer_conIn (s : State) : (s.noAnswer).conIn = s.conIn := rfl
@[simp] theorem State.noAnswer_conOut (s : State) : (s.noAnswer).conOut = s.conOut := rfl
@[simp] theorem State.noAnswer_ledRead (s : State) : (s.noAnswer).ledRead = s.ledRead := rfl
@[simp] theorem State.noAnswer_ledWrite (s : State) : (s.noAnswer).ledWrite = s.ledWrite := rfl
@[simp] theorem State.noAnswer_storage (s : State) : (s.noAnswer).storage = s.storage := rfl
@[simp] theorem State.noAnswer_storageStalled (s : State) : (s.noAnswer).storageStalled = s.storageStalled := rfl
@[simp] theorem State.noAnswer_draws (s : State) : (s.noAnswer).draws = s.draws := rfl
@[simp] theorem State.noAnswer_signals (s : State) : (s.noAnswer).signals = s.signals := rfl
@[simp] theorem State.noAnswer_result (s : State) : (s.noAnswer).result = none := rfl
@[simp] theorem State.noAnswer_hostResult (s : State) : (s.noAnswer).hostResult = s.hostResult := rfl
@[simp] theorem State.noAnswer_pending (s : State) : (s.noAnswer).pending = s.pending := rfl

/-! ### hostAnswer -/

@[simp] theorem State.hostAnswer_cfg (s : State) (r : HostResult) : (s.hostAnswer r).cfg = s.cfg := rfl
@[simp] theorem State.hostAnswer_bankSel (s : State) (r : HostResult) : (s.hostAnswer r).bankSel = s.bankSel := rfl
@[simp] theorem State.hostAnswer_fdcStat (s : State) (r : HostResult) : (s.hostAnswer r).fdcStat = s.fdcStat := rfl
@[simp] theorem State.hostAnswer_fdcCmdAddr (s : State) (r : HostResult) : (s.hostAnswer r).fdcCmdAddr = s.fdcCmdAddr := rfl
@[simp] theorem State.hostAnswer_fdcDmaAddr (s : State) (r : HostResult) : (s.hostAnswer r).fdcDmaAddr = s.fdcDmaAddr := rfl
@[simp] theorem State.hostAnswer_fdcSeq (s : State) (r : HostResult) : (s.hostAnswer r).fdcSeq = s.fdcSeq := rfl
@[simp] theorem State.hostAnswer_fdcCmdBuf (s : State) (r : HostResult) : (s.hostAnswer r).fdcCmdBuf = s.fdcCmdBuf := rfl
@[simp] theorem State.hostAnswer_secBuf (s : State) (r : HostResult) : (s.hostAnswer r).secBuf = s.secBuf := rfl
@[simp] theorem State.hostAnswer_hwctlLock (s : State) (r : HostResult) : (s.hostAnswer r).hwctlLock = s.hwctlLock := rfl
@[simp] theorem State.hostAnswer_fpValue (s : State) (r : HostResult) : (s.hostAnswer r).fpValue = s.fpValue := rfl
@[simp] theorem State.hostAnswer_conLast (s : State) (r : HostResult) : (s.hostAnswer r).conLast = s.conLast := rfl
@[simp] theorem State.hostAnswer_disk (s : State) (r : HostResult) : (s.hostAnswer r).disk = s.disk := rfl
@[simp] theorem State.hostAnswer_stopReq (s : State) (r : HostResult) : (s.hostAnswer r).stopReq = s.stopReq := rfl
@[simp] theorem State.hostAnswer_cpu (s : State) (r : HostResult) : (s.hostAnswer r).cpu = s.cpu := rfl
@[simp] theorem State.hostAnswer_mem (s : State) (r : HostResult) : (s.hostAnswer r).mem = s.mem := rfl
@[simp] theorem State.hostAnswer_memEpoch (s : State) (r : HostResult) : (s.hostAnswer r).memEpoch = s.memEpoch := rfl
@[simp] theorem State.hostAnswer_fs (s : State) (r : HostResult) : (s.hostAnswer r).fs = s.fs := rfl
@[simp] theorem State.hostAnswer_record (s : State) (r : HostResult) : (s.hostAnswer r).record = s.record := rfl
@[simp] theorem State.hostAnswer_conIn (s : State) (r : HostResult) : (s.hostAnswer r).conIn = s.conIn := rfl
@[simp] theorem State.hostAnswer_conOut (s : State) (r : HostResult) : (s.hostAnswer r).conOut = s.conOut := rfl
@[simp] theorem State.hostAnswer_ledRead (s : State) (r : HostResult) : (s.hostAnswer r).ledRead = s.ledRead := rfl
@[simp] theorem State.hostAnswer_ledWrite (s : State) (r : HostResult) : (s.hostAnswer r).ledWrite = s.ledWrite := rfl
@[simp] theorem State.hostAnswer_storage (s : State) (r : HostResult) : (s.hostAnswer r).storage = s.storage := rfl
@[simp] theorem State.hostAnswer_storageStalled (s : State) (r : HostResult) : (s.hostAnswer r).storageStalled = s.storageStalled := rfl
@[simp] theorem State.hostAnswer_draws (s : State) (r : HostResult) : (s.hostAnswer r).draws = s.draws := rfl
@[simp] theorem State.hostAnswer_signals (s : State) (r : HostResult) : (s.hostAnswer r).signals = s.signals := rfl
@[simp] theorem State.hostAnswer_result (s : State) (r : HostResult) : (s.hostAnswer r).result = s.result := rfl
@[simp] theorem State.hostAnswer_hostResult (s : State) (r : HostResult) : (s.hostAnswer r).hostResult = some r := rfl
@[simp] theorem State.hostAnswer_pending (s : State) (r : HostResult) : (s.hostAnswer r).pending = s.pending := rfl

/-! ### drawn -/

@[simp] theorem State.drawn_cfg (s : State) : (s.drawn).cfg = s.cfg := rfl
@[simp] theorem State.drawn_bankSel (s : State) : (s.drawn).bankSel = s.bankSel := rfl
@[simp] theorem State.drawn_fdcStat (s : State) : (s.drawn).fdcStat = s.fdcStat := rfl
@[simp] theorem State.drawn_fdcCmdAddr (s : State) : (s.drawn).fdcCmdAddr = s.fdcCmdAddr := rfl
@[simp] theorem State.drawn_fdcDmaAddr (s : State) : (s.drawn).fdcDmaAddr = s.fdcDmaAddr := rfl
@[simp] theorem State.drawn_fdcSeq (s : State) : (s.drawn).fdcSeq = s.fdcSeq := rfl
@[simp] theorem State.drawn_fdcCmdBuf (s : State) : (s.drawn).fdcCmdBuf = s.fdcCmdBuf := rfl
@[simp] theorem State.drawn_secBuf (s : State) : (s.drawn).secBuf = s.secBuf := rfl
@[simp] theorem State.drawn_hwctlLock (s : State) : (s.drawn).hwctlLock = s.hwctlLock := rfl
@[simp] theorem State.drawn_fpValue (s : State) : (s.drawn).fpValue = s.fpValue := rfl
@[simp] theorem State.drawn_conLast (s : State) : (s.drawn).conLast = s.conLast := rfl
@[simp] theorem State.drawn_disk (s : State) : (s.drawn).disk = s.disk := rfl
@[simp] theorem State.drawn_stopReq (s : State) : (s.drawn).stopReq = s.stopReq := rfl
@[simp] theorem State.drawn_cpu (s : State) : (s.drawn).cpu = s.cpu := rfl
@[simp] theorem State.drawn_mem (s : State) : (s.drawn).mem = s.mem := rfl
@[simp] theorem State.drawn_memEpoch (s : State) : (s.drawn).memEpoch = s.memEpoch := rfl
@[simp] theorem State.drawn_fs (s : State) : (s.drawn).fs = s.fs := rfl
@[simp] theorem State.drawn_record (s : State) : (s.drawn).record = s.record := rfl
@[simp] theorem State.drawn_conIn (s : State) : (s.drawn).conIn = s.conIn := rfl
@[simp] theorem State.drawn_conOut (s : State) : (s.drawn).conOut = s.conOut := rfl
@[simp] theorem State.drawn_ledRead (s : State) : (s.drawn).ledRead = s.ledRead := rfl
@[simp] theorem State.drawn_ledWrite (s : State) : (s.drawn).ledWrite = s.ledWrite := rfl
@[simp] theorem State.drawn_storage (s : State) : (s.drawn).storage = s.storage := rfl
@[simp] theorem State.drawn_storageStalled (s : State) : (s.drawn).storageStalled = s.storageStalled := rfl
@[simp] theorem State.drawn_draws (s : State) : (s.drawn).draws = s.draws + 1 := rfl
@[simp] theorem State.drawn_signals (s : State) : (s.drawn).signals = s.signals := rfl
@[simp] theorem State.drawn_result (s : State) : (s.drawn).result = s.result := rfl
@[simp] theorem State.drawn_hostResult (s : State) : (s.drawn).hostResult = s.hostResult := rfl
@[simp] theorem State.drawn_pending (s : State) : (s.drawn).pending = s.pending := rfl

/-! ### signal -/

@[simp] theorem State.signal_cfg (s : State) (x : Signal) : (s.signal x).cfg = s.cfg := rfl
@[simp] theorem State.signal_bankSel (s : State) (x : Signal) : (s.signal x).bankSel = s.bankSel := rfl
@[simp] theorem State.signal_fdcStat (s : State) (x : Signal) : (s.signal x).fdcStat = s.fdcStat := rfl
@[simp] theorem State.signal_fdcCmdAddr (s : State) (x : Signal) : (s.signal x).fdcCmdAddr = s.fdcCmdAddr := rfl
@[simp] theorem State.signal_fdcDmaAddr (s : State) (x : Signal) : (s.signal x).fdcDmaAddr = s.fdcDmaAddr := rfl
@[simp] theorem State.signal_fdcSeq (s : State) (x : Signal) : (s.signal x).fdcSeq = s.fdcSeq := rfl
@[simp] theorem State.signal_fdcCmdBuf (s : State) (x : Signal) : (s.signal x).fdcCmdBuf = s.fdcCmdBuf := rfl
@[simp] theorem State.signal_secBuf (s : State) (x : Signal) : (s.signal x).secBuf = s.secBuf := rfl
@[simp] theorem State.signal_hwctlLock (s : State) (x : Signal) : (s.signal x).hwctlLock = s.hwctlLock := rfl
@[simp] theorem State.signal_fpValue (s : State) (x : Signal) : (s.signal x).fpValue = s.fpValue := rfl
@[simp] theorem State.signal_conLast (s : State) (x : Signal) : (s.signal x).conLast = s.conLast := rfl
@[simp] theorem State.signal_disk (s : State) (x : Signal) : (s.signal x).disk = s.disk := rfl
@[simp] theorem State.signal_stopReq (s : State) (x : Signal) : (s.signal x).stopReq = s.stopReq := rfl
@[simp] theorem State.signal_cpu (s : State) (x : Signal) : (s.signal x).cpu = s.cpu := rfl
@[simp] theorem State.signal_mem (s : State) (x : Signal) : (s.signal x).mem = s.mem := rfl
@[simp] theorem State.signal_memEpoch (s : State) (x : Signal) : (s.signal x).memEpoch = s.memEpoch := rfl
@[simp] theorem State.signal_fs (s : State) (x : Signal) : (s.signal x).fs = s.fs := rfl
@[simp] theorem State.signal_record (s : State) (x : Signal) : (s.signal x).record = s.record := rfl
@[simp] theorem State.signal_conIn (s : State) (x : Signal) : (s.signal x).conIn = s.conIn := rfl
@[simp] theorem State.signal_conOut (s : State) (x : Signal) : (s.signal x).conOut = s.conOut := rfl
@[simp] theorem State.signal_ledRead (s : State) (x : Signal) : (s.signal x).ledRead = s.ledRead := rfl
@[simp] theorem State.signal_ledWrite (s : State) (x : Signal) : (s.signal x).ledWrite = s.ledWrite := rfl
@[simp] theorem State.signal_storage (s : State) (x : Signal) : (s.signal x).storage = s.storage := rfl
@[simp] theorem State.signal_storageStalled (s : State) (x : Signal) : (s.signal x).storageStalled = s.storageStalled := rfl
@[simp] theorem State.signal_draws (s : State) (x : Signal) : (s.signal x).draws = s.draws := rfl
@[simp] theorem State.signal_signals (s : State) (x : Signal) : (s.signal x).signals = s.signals ++ [x] := rfl
@[simp] theorem State.signal_result (s : State) (x : Signal) : (s.signal x).result = s.result := rfl
@[simp] theorem State.signal_hostResult (s : State) (x : Signal) : (s.signal x).hostResult = s.hostResult := rfl
@[simp] theorem State.signal_pending (s : State) (x : Signal) : (s.signal x).pending = s.pending := rfl

/-! ### setLedRead -/

@[simp] theorem State.setLedRead_cfg (s : State) (on : Bool) : (s.setLedRead on).cfg = s.cfg := rfl
@[simp] theorem State.setLedRead_bankSel (s : State) (on : Bool) : (s.setLedRead on).bankSel = s.bankSel := rfl
@[simp] theorem State.setLedRead_fdcStat (s : State) (on : Bool) : (s.setLedRead on).fdcStat = s.fdcStat := rfl
@[simp] theorem State.setLedRead_fdcCmdAddr (s : State) (on : Bool) : (s.setLedRead on).fdcCmdAddr = s.fdcCmdAddr := rfl
@[simp] theorem State.setLedRead_fdcDmaAddr (s : State) (on : Bool) : (s.setLedRead on).fdcDmaAddr = s.fdcDmaAddr := rfl
@[simp] theorem State.setLedRead_fdcSeq (s : State) (on : Bool) : (s.setLedRead on).fdcSeq = s.fdcSeq := rfl
@[simp] theorem State.setLedRead_fdcCmdBuf (s : State) (on : Bool) : (s.setLedRead on).fdcCmdBuf = s.fdcCmdBuf := rfl
@[simp] theorem State.setLedRead_secBuf (s : State) (on : Bool) : (s.setLedRead on).secBuf = s.secBuf := rfl
@[simp] theorem State.setLedRead_hwctlLock (s : State) (on : Bool) : (s.setLedRead on).hwctlLock = s.hwctlLock := rfl
@[simp] theorem State.setLedRead_fpValue (s : State) (on : Bool) : (s.setLedRead on).fpValue = s.fpValue := rfl
@[simp] theorem State.setLedRead_conLast (s : State) (on : Bool) : (s.setLedRead on).conLast = s.conLast := rfl
@[simp] theorem State.setLedRead_disk (s : State) (on : Bool) : (s.setLedRead on).disk = s.disk := rfl
@[simp] theorem State.setLedRead_stopReq (s : State) (on : Bool) : (s.setLedRead on).stopReq = s.stopReq := rfl
@[simp] theorem State.setLedRead_cpu (s : State) (on : Bool) : (s.setLedRead on).cpu = s.cpu := rfl
@[simp] theorem State.setLedRead_mem (s : State) (on : Bool) : (s.setLedRead on).mem = s.mem := rfl
@[simp] theorem State.setLedRead_memEpoch (s : State) (on : Bool) : (s.setLedRead on).memEpoch = s.memEpoch := rfl
@[simp] theorem State.setLedRead_fs (s : State) (on : Bool) : (s.setLedRead on).fs = s.fs := rfl
@[simp] theorem State.setLedRead_record (s : State) (on : Bool) : (s.setLedRead on).record = s.record := rfl
@[simp] theorem State.setLedRead_conIn (s : State) (on : Bool) : (s.setLedRead on).conIn = s.conIn := rfl
@[simp] theorem State.setLedRead_conOut (s : State) (on : Bool) : (s.setLedRead on).conOut = s.conOut := rfl
@[simp] theorem State.setLedRead_ledRead (s : State) (on : Bool) : (s.setLedRead on).ledRead = on := rfl
@[simp] theorem State.setLedRead_ledWrite (s : State) (on : Bool) : (s.setLedRead on).ledWrite = s.ledWrite := rfl
@[simp] theorem State.setLedRead_storage (s : State) (on : Bool) : (s.setLedRead on).storage = s.storage := rfl
@[simp] theorem State.setLedRead_storageStalled (s : State) (on : Bool) : (s.setLedRead on).storageStalled = s.storageStalled := rfl
@[simp] theorem State.setLedRead_draws (s : State) (on : Bool) : (s.setLedRead on).draws = s.draws := rfl
@[simp] theorem State.setLedRead_signals (s : State) (on : Bool) : (s.setLedRead on).signals = s.signals ++ [.ledRead on] := rfl
@[simp] theorem State.setLedRead_result (s : State) (on : Bool) : (s.setLedRead on).result = s.result := rfl
@[simp] theorem State.setLedRead_hostResult (s : State) (on : Bool) : (s.setLedRead on).hostResult = s.hostResult := rfl
@[simp] theorem State.setLedRead_pending (s : State) (on : Bool) : (s.setLedRead on).pending = s.pending := rfl

/-! ### setLedWrite -/

@[simp] theorem State.setLedWrite_cfg (s : State) (on : Bool) : (s.setLedWrite on).cfg = s.cfg := rfl
@[simp] theorem State.setLedWrite_bankSel (s : State) (on : Bool) : (s.setLedWrite on).bankSel = s.bankSel := rfl
@[simp] theorem State.setLedWrite_fdcStat (s : State) (on : Bool) : (s.setLedWrite on).fdcStat = s.fdcStat := rfl
@[simp] theorem State.setLedWrite_fdcCmdAddr (s : State) (on : Bool) : (s.setLedWrite on).fdcCmdAddr = s.fdcCmdAddr := rfl
@[simp] theorem State.setLedWrite_fdcDmaAddr (s : State) (on : Bool) : (s.setLedWrite on).fdcDmaAddr = s.fdcDmaAddr := rfl
@[simp] theorem State.setLedWrite_fdcSeq (s : State) (on : Bool) : (s.setLedWrite on).fdcSeq = s.fdcSeq := rfl
@[simp] theorem State.setLedWrite_fdcCmdBuf (s : State) (on : Bool) : (s.setLedWrite on).fdcCmdBuf = s.fdcCmdBuf := rfl
@[simp] theorem State.setLedWrite_secBuf (s : State) (on : Bool) : (s.setLedWrite on).secBuf = s.secBuf := rfl
@[simp] theorem State.setLedWrite_hwctlLock (s : State) (on : Bool) : (s.setLedWrite on).hwctlLock = s.hwctlLock := rfl
@[simp] theorem State.setLedWrite_fpValue (s : State) (on : Bool) : (s.setLedWrite on).fpValue = s.fpValue := rfl
@[simp] theorem State.setLedWrite_conLast (s : State) (on : Bool) : (s.setLedWrite on).conLast = s.conLast := rfl
@[simp] theorem State.setLedWrite_disk (s : State) (on : Bool) : (s.setLedWrite on).disk = s.disk := rfl
@[simp] theorem State.setLedWrite_stopReq (s : State) (on : Bool) : (s.setLedWrite on).stopReq = s.stopReq := rfl
@[simp] theorem State.setLedWrite_cpu (s : State) (on : Bool) : (s.setLedWrite on).cpu = s.cpu := rfl
@[simp] theorem State.setLedWrite_mem (s : State) (on : Bool) : (s.setLedWrite on).mem = s.mem := rfl
@[simp] theorem State.setLedWrite_memEpoch (s : State) (on : Bool) : (s.setLedWrite on).memEpoch = s.memEpoch := rfl
@[simp] theorem State.setLedWrite_fs (s : State) (on : Bool) : (s.setLedWrite on).fs = s.fs := rfl
@[simp] theorem State.setLedWrite_record (s : State) (on : Bool) : (s.setLedWrite on).record = s.record := rfl
@[simp] theorem State.setLedWrite_conIn (s : State) (on : Bool) : (s.setLedWrite on).conIn = s.conIn := rfl
@[simp] theorem State.setLedWrite_conOut (s : State) (on : Bool) : (s.setLedWrite on).conOut = s.conOut := rfl
@[simp] theorem State.setLedWrite_ledRead (s : State) (on : Bool) : (s.setLedWrite on).ledRead = s.ledRead := rfl
@[simp] theorem State.setLedWrite_ledWrite (s : State) (on : Bool) : (s.setLedWrite on).ledWrite = on := rfl
@[simp] theorem State.setLedWrite_storage (s : State) (on : Bool) : (s.setLedWrite on).storage = s.storage := rfl
@[simp] theorem State.setLedWrite_storageStalled (s : State) (on : Bool) : (s.setLedWrite on).storageStalled = s.storageStalled := rfl
@[simp] theorem State.setLedWrite_draws (s : State) (on : Bool) : (s.setLedWrite on).draws = s.draws := rfl
@[simp] theorem State.setLedWrite_signals (s : State) (on : Bool) : (s.setLedWrite on).signals = s.signals ++ [.ledWrite on] := rfl
@[simp] theorem State.setLedWrite_result (s : State) (on : Bool) : (s.setLedWrite on).result = s.result := rfl
@[simp] theorem State.setLedWrite_hostResult (s : State) (on : Bool) : (s.setLedWrite on).hostResult = s.hostResult := rfl
@[simp] theorem State.setLedWrite_pending (s : State) (on : Bool) : (s.setLedWrite on).pending = s.pending := rfl

/-! ### setLock -/

@[simp] theorem State.setLock_cfg (s : State) (l : Lock) : (s.setLock l).cfg = s.cfg := rfl
@[simp] theorem State.setLock_bankSel (s : State) (l : Lock) : (s.setLock l).bankSel = s.bankSel := rfl
@[simp] theorem State.setLock_fdcStat (s : State) (l : Lock) : (s.setLock l).fdcStat = s.fdcStat := rfl
@[simp] theorem State.setLock_fdcCmdAddr (s : State) (l : Lock) : (s.setLock l).fdcCmdAddr = s.fdcCmdAddr := rfl
@[simp] theorem State.setLock_fdcDmaAddr (s : State) (l : Lock) : (s.setLock l).fdcDmaAddr = s.fdcDmaAddr := rfl
@[simp] theorem State.setLock_fdcSeq (s : State) (l : Lock) : (s.setLock l).fdcSeq = s.fdcSeq := rfl
@[simp] theorem State.setLock_fdcCmdBuf (s : State) (l : Lock) : (s.setLock l).fdcCmdBuf = s.fdcCmdBuf := rfl
@[simp] theorem State.setLock_secBuf (s : State) (l : Lock) : (s.setLock l).secBuf = s.secBuf := rfl
@[simp] theorem State.setLock_hwctlLock (s : State) (l : Lock) : (s.setLock l).hwctlLock = l := rfl
@[simp] theorem State.setLock_fpValue (s : State) (l : Lock) : (s.setLock l).fpValue = s.fpValue := rfl
@[simp] theorem State.setLock_conLast (s : State) (l : Lock) : (s.setLock l).conLast = s.conLast := rfl
@[simp] theorem State.setLock_disk (s : State) (l : Lock) : (s.setLock l).disk = s.disk := rfl
@[simp] theorem State.setLock_stopReq (s : State) (l : Lock) : (s.setLock l).stopReq = s.stopReq := rfl
@[simp] theorem State.setLock_cpu (s : State) (l : Lock) : (s.setLock l).cpu = s.cpu := rfl
@[simp] theorem State.setLock_mem (s : State) (l : Lock) : (s.setLock l).mem = s.mem := rfl
@[simp] theorem State.setLock_memEpoch (s : State) (l : Lock) : (s.setLock l).memEpoch = s.memEpoch := rfl
@[simp] theorem State.setLock_fs (s : State) (l : Lock) : (s.setLock l).fs = s.fs := rfl
@[simp] theorem State.setLock_record (s : State) (l : Lock) : (s.setLock l).record = s.record := rfl
@[simp] theorem State.setLock_conIn (s : State) (l : Lock) : (s.setLock l).conIn = s.conIn := rfl
@[simp] theorem State.setLock_conOut (s : State) (l : Lock) : (s.setLock l).conOut = s.conOut := rfl
@[simp] theorem State.setLock_ledRead (s : State) (l : Lock) : (s.setLock l).ledRead = s.ledRead := rfl
@[simp] theorem State.setLock_ledWrite (s : State) (l : Lock) : (s.setLock l).ledWrite = s.ledWrite := rfl
@[simp] theorem State.setLock_storage (s : State) (l : Lock) : (s.setLock l).storage = s.storage := rfl
@[simp] theorem State.setLock_storageStalled (s : State) (l : Lock) : (s.setLock l).storageStalled = s.storageStalled := rfl
@[simp] theorem State.setLock_draws (s : State) (l : Lock) : (s.setLock l).draws = s.draws := rfl
@[simp] theorem State.setLock_signals (s : State) (l : Lock) : (s.setLock l).signals = s.signals := rfl
@[simp] theorem State.setLock_result (s : State) (l : Lock) : (s.setLock l).result = s.result := rfl
@[simp] theorem State.setLock_hostResult (s : State) (l : Lock) : (s.setLock l).hostResult = s.hostResult := rfl
@[simp] theorem State.setLock_pending (s : State) (l : Lock) : (s.setLock l).pending = s.pending := rfl

/-! ### relock -/

@[simp] theorem State.relock_cfg (s : State) : (s.relock).cfg = s.cfg := rfl
@[simp] theorem State.relock_bankSel (s : State) : (s.relock).bankSel = s.bankSel := rfl
@[simp] theorem State.relock_fdcStat (s : State) : (s.relock).fdcStat = s.fdcStat := rfl
@[simp] theorem State.relock_fdcCmdAddr (s : State) : (s.relock).fdcCmdAddr = s.fdcCmdAddr := rfl
@[simp] theorem State.relock_fdcDmaAddr (s : State) : (s.relock).fdcDmaAddr = s.fdcDmaAddr := rfl
@[simp] theorem State.relock_fdcSeq (s : State) : (s.relock).fdcSeq = s.fdcSeq := rfl
@[simp] theorem State.relock_fdcCmdBuf (s : State) : (s.relock).fdcCmdBuf = s.fdcCmdBuf := rfl
@[simp] theorem State.relock_secBuf (s : State) : (s.relock).secBuf = s.secBuf := rfl
@[simp] theorem State.relock_hwctlLock (s : State) : (s.relock).hwctlLock = .locked := rfl
@[simp] theorem State.relock_fpValue (s : State) : (s.relock).fpValue = s.fpValue := rfl
@[simp] theorem State.relock_conLast (s : State) : (s.relock).conLast = s.conLast := rfl
@[simp] theorem State.relock_disk (s : State) : (s.relock).disk = s.disk := rfl
@[simp] theorem State.relock_stopReq (s : State) : (s.relock).stopReq = s.stopReq := rfl
@[simp] theorem State.relock_cpu (s : State) : (s.relock).cpu = s.cpu := rfl
@[simp] theorem State.relock_mem (s : State) : (s.relock).mem = s.mem := rfl
@[simp] theorem State.relock_memEpoch (s : State) : (s.relock).memEpoch = s.memEpoch := rfl
@[simp] theorem State.relock_fs (s : State) : (s.relock).fs = s.fs := rfl
@[simp] theorem State.relock_record (s : State) : (s.relock).record = s.record := rfl
@[simp] theorem State.relock_conIn (s : State) : (s.relock).conIn = s.conIn := rfl
@[simp] theorem State.relock_conOut (s : State) : (s.relock).conOut = s.conOut := rfl
@[simp] theorem State.relock_ledRead (s : State) : (s.relock).ledRead = s.ledRead := rfl
@[simp] theorem State.relock_ledWrite (s : State) : (s.relock).ledWrite = s.ledWrite := rfl
@[simp] theorem State.relock_storage (s : State) : (s.relock).storage = s.storage := rfl
@[simp] theorem State.relock_storageStalled (s : State) : (s.relock).storageStalled = s.storageStalled := rfl
@[simp] theorem State.relock_draws (s : State) : (s.relock).draws = s.draws := rfl
@[simp] theorem State.relock_signals (s : State) : (s.relock).signals = s.signals := rfl
@[simp] theorem State.relock_result (s : State) : (s.relock).result = none := rfl
@[simp] theorem State.relock_hostResult (s : State) : (s.relock).hostResult = s.hostResult := rfl
@[simp] theorem State.relock_pending (s : State) : (s.relock).pending = s.pending := rfl

/-! ### setSecBuf -/

@[simp] theorem State.setSecBuf_cfg (s : State) (l : List Byte) : (s.setSecBuf l).cfg = s.cfg := rfl
@[simp] theorem State.setSecBuf_bankSel (s : State) (l : List Byte) : (s.setSecBuf l).bankSel = s.bankSel := rfl
@[simp] theorem State.setSecBuf_fdcStat (s : State) (l : List Byte) : (s.setSecBuf l).fdcStat = s.fdcStat := rfl
@[simp] theorem State.setSecBuf_fdcCmdAddr (s : State) (l : List Byte) : (s.setSecBuf l).fdcCmdAddr = s.fdcCmdAddr := rfl
@[simp] theorem State.setSecBuf_fdcDmaAddr (s : State) (l : List Byte) : (s.setSecBuf l).fdcDmaAddr = s.fdcDmaAddr := rfl
@[simp] theorem State.setSecBuf_fdcSeq (s : State) (l : List Byte) : (s.setSecBuf l).fdcSeq = s.fdcSeq := rfl
@[simp] theorem State.setSecBuf_fdcCmdBuf (s : State) (l : List Byte) : (s.setSecBuf l).fdcCmdBuf = s.fdcCmdBuf := rfl
@[simp] theorem State.setSecBuf_secBuf (s : State) (l : List Byte) : (s.setSecBuf l).secBuf = l := rfl
@[simp] theorem State.setSecBuf_hwctlLock (s : State) (l : List Byte) : (s.setSecBuf l).hwctlLock = s.hwctlLock := rfl
@[simp] theorem State.setSecBuf_fpValue (s : State) (l : List Byte) : (s.setSecBuf l).fpValue = s.fpValue := rfl
@[simp] theorem State.setSecBuf_conLast (s : State) (l : List Byte) : (s.setSecBuf l).conLast = s.conLast := rfl
@[simp] theorem State.setSecBuf_disk (s : State) (l : List Byte) : (s.setSecBuf l).disk = s.disk := rfl
@[simp] theorem State.setSecBuf_stopReq (s : State) (l : List Byte) : (s.setSecBuf l).stopReq = s.stopReq := rfl
@[simp] theorem State.setSecBuf_cpu (s : State) (l : List Byte) : (s.setSecBuf l).cpu = s.cpu := rfl
@[simp] theorem State.setSecBuf_mem (s : State) (l : List Byte) : (s.setSecBuf l).mem = s.mem := rfl
@[simp] theorem State.setSecBuf_memEpoch (s : State) (l : List Byte) : (s.setSecBuf l).memEpoch = s.memEpoch := rfl
@[simp] theorem State.setSecBuf_fs (s : State) (l : List Byte) : (s.setSecBuf l).fs = s.fs := rfl
@[simp] theorem State.setSecBuf_record (s : State) (l : List Byte) : (s.setSecBuf l).record = s.record := rfl
@[simp] theorem State.setSecBuf_conIn (s : State) (l : List Byte) : (s.setSecBuf l).conIn = s.conIn := rfl
@[simp] theorem State.setSecBuf_conOut (s : State) (l : List Byte) : (s.setSecBuf l).conOut = s.conOut := rfl
@[simp] theorem State.setSecBuf_ledRead (s : State) (l : List Byte) : (s.setSecBuf l).ledRead = s.ledRead := rfl
@[simp] theorem State.setSecBuf_ledWrite (s : State) (l : List Byte) : (s.setSecBuf l).ledWrite = s.ledWrite := rfl
@[simp] theorem State.setSecBuf_storage (s : State) (l : List Byte) : (s.setSecBuf l).storage = s.storage := rfl
@[simp] theorem State.setSecBuf_storageStalled (s : State) (l : List Byte) : (s.setSecBuf l).storageStalled = s.storageStalled := rfl
@[simp] theorem State.setSecBuf_draws (s : State) (l : List Byte) : (s.setSecBuf l).draws = s.draws := rfl
@[simp] theorem State.setSecBuf_signals (s : State) (l : List Byte) : (s.setSecBuf l).signals = s.signals := rfl
@[simp] theorem State.setSecBuf_result (s : State) (l : List Byte) : (s.setSecBuf l).result = s.result := rfl
@[simp] theorem State.setSecBuf_hostResult (s : State) (l : List Byte) : (s.setSecBuf l).hostResult = s.hostResult := rfl
@[simp] theorem State.setSecBuf_pending (s : State) (l : List Byte) : (s.setSecBuf l).pending = s.pending := rfl

/-! ### secBufUnspecified -/

@[simp] theorem State.secBufUnspecified_cfg (s : State) : (s.secBufUnspecified).cfg = s.cfg := rfl
@[simp] theorem State.secBufUnspecified_bankSel (s : State) : (s.secBufUnspecified).bankSel = s.bankSel := rfl
@[simp] theorem State.secBufUnspecified_fdcStat (s : State) : (s.secBufUnspecified).fdcStat = s.fdcStat := rfl
@[simp] theorem State.secBufUnspecified_fdcCmdAddr (s : State) : (s.secBufUnspecified).fdcCmdAddr = s.fdcCmdAddr := rfl
@[simp] theorem State.secBufUnspecified_fdcDmaAddr (s : State) : (s.secBufUnspecified).fdcDmaAddr = s.fdcDmaAddr := rfl
@[simp] theorem State.secBufUnspecified_fdcSeq (s : State) : (s.secBufUnspecified).fdcSeq = s.fdcSeq := rfl
@[simp] theorem State.secBufUnspecified_fdcCmdBuf (s : State) : (s.secBufUnspecified).fdcCmdBuf = s.fdcCmdBuf := rfl
@[simp] theorem State.secBufUnspecified_secBuf (s : State) : (s.secBufUnspecified).secBuf = s.freeBytes s.cfg.secSz := rfl
@[simp] theorem State.secBufUnspecified_hwctlLock (s : State) : (s.secBufUnspecified).hwctlLock = s.hwctlLock := rfl
@[simp] theorem State.secBufUnspecified_fpValue (s : State) : (s.secBufUnspecified).fpValue = s.fpValue := rfl
@[simp] theorem State.secBufUnspecified_conLast (s : State) : (s.secBufUnspecified).conLast = s.conLast := rfl
@[simp] theorem State.secBufUnspecified_disk (s : State) : (s.secBufUnspecified).disk = s.disk := rfl
@[simp] theorem State.secBufUnspecified_stopReq (s : State) : (s.secBufUnspecified).stopReq = s.stopReq := rfl
@[simp] theorem State.secBufUnspecified_cpu (s : State) : (s.secBufUnspecified).cpu = s.cpu := rfl
@[simp] theorem State.secBufUnspecified_mem (s : State) : (s.secBufUnspecified).mem = s.mem := rfl
@[simp] theorem State.secBufUnspecified_memEpoch (s : State) : (s.secBufUnspecified).memEpoch = s.memEpoch := rfl
@[simp] theorem State.secBufUnspecified_fs (s : State) : (s.secBufUnspecified).fs = s.fs := rfl
@[simp] theorem State.secBufUnspecified_record (s : State) : (s.secBufUnspecified).record = s.record := rfl
@[simp] theorem State.secBufUnspecified_conIn (s : State) : (s.secBufUnspecified).conIn = s.conIn := rfl
@[simp] theorem State.secBufUnspecified_conOut (s : State) : (s.secBufUnspecified).conOut = s.conOut := rfl
@[simp] theorem State.secBufUnspecified_ledRead (s : State) : (s.secBufUnspecified).ledRead = s.ledRead := rfl
@[simp] theorem State.secBufUnspecified_ledWrite (s : State) : (s.secBufUnspecified).ledWrite = s.ledWrite := rfl
@[simp] theorem State.secBufUnspecified_storage (s : State) : (s.secBufUnspecified).storage = s.storage := rfl
@[simp] theorem State.secBufUnspecified_storageStalled (s : State) : (s.secBufUnspecified).storageStalled = s.storageStalled := rfl
@[simp] theorem State.secBufUnspecified_draws (s : State) : (s.secBufUnspecified).draws = s.draws + 1 := rfl
@[simp] theorem State.secBufUnspecified_signals (s : State) : (s.secBufUnspecified).signals = s.signals := rfl
@[simp] theorem State.secBufUnspecified_result (s : State) : (s.secBufUnspecified).result = s.result := rfl
@[simp] theorem State.secBufUnspecified_hostResult (s : State) : (s.secBufUnspecified).hostResult = s.hostResult := rfl
@[simp] theorem State.secBufUnspecified_pending (s : State) : (s.secBufUnspecified).pending = s.pending := rfl

/-! ### setFdcStat -/

@[simp] theorem State.setFdcStat_cfg (s : State) (b : Byte) : (s.setFdcStat b).cfg = s.cfg := rfl
@[simp] theorem State.setFdcStat_bankSel (s : State) (b : Byte) : (s.setFdcStat b).bankSel = s.bankSel := rfl
@[simp] theorem State.setFdcStat_fdcStat (s : State) (b : Byte) : (s.setFdcStat b).fdcStat = b := rfl
@[simp] theorem State.setFdcStat_fdcCmdAddr (s : State) (b : Byte) : (s.setFdcStat b).fdcCmdAddr = s.fdcCmdAddr := rfl
@[simp] theorem State.setFdcStat_fdcDmaAddr (s : State) (b : Byte) : (s.setFdcStat b).fdcDmaAddr = s.fdcDmaAddr := rfl
@[simp] theorem State.setFdcStat_fdcSeq (s : State) (b : Byte) : (s.setFdcStat b).fdcSeq = s.fdcSeq := rfl
@[simp] theorem State.setFdcStat_fdcCmdBuf (s : State) (b : Byte) : (s.setFdcStat b).fdcCmdBuf = s.fdcCmdBuf := rfl
@[simp] theorem State.setFdcStat_secBuf (s : State) (b : Byte) : (s.setFdcStat b).secBuf = s.secBuf := rfl
@[simp] theorem State.setFdcStat_hwctlLock (s : State) (b : Byte) : (s.setFdcStat b).hwctlLock = s.hwctlLock := rfl
@[simp] theorem State.setFdcStat_fpValue (s : State) (b : Byte) : (s.setFdcStat b).fpValue = s.fpValue := rfl
@[simp] theorem State.setFdcStat_conLast (s : State) (b : Byte) : (s.setFdcStat b).conLast = s.conLast := rfl
@[simp] theorem State.setFdcStat_disk (s : State) (b : Byte) : (s.setFdcStat b).disk = s.disk := rfl
@[simp] theorem State.setFdcStat_stopReq (s : State) (b : Byte) : (s.setFdcStat b).stopReq = s.stopReq := rfl
@[simp] theorem State.setFdcStat_cpu (s : State) (b : Byte) : (s.setFdcStat b).cpu = s.cpu := rfl
@[simp] theorem State.setFdcStat_mem (s : State) (b : Byte) : (s.setFdcStat b).mem = s.mem := rfl
@[simp] theorem State.setFdcStat_memEpoch (s : State) (b : Byte) : (s.setFdcStat b).memEpoch = s.memEpoch := rfl
@[simp] theorem State.setFdcStat_fs (s : State) (b : Byte) : (s.setFdcStat b).fs = s.fs := rfl
@[simp] theorem State.setFdcStat_record (s : State) (b : Byte) : (s.setFdcStat b).record = s.record := rfl
@[simp] theorem State.setFdcStat_conIn (s : State) (b : Byte) : (s.setFdcStat b).conIn = s.conIn := rfl
@[simp] theorem State.setFdcStat_conOut (s : State) (b : Byte) : (s.setFdcStat b).conOut = s.conOut := rfl
@[simp] theorem State.setFdcStat_ledRead (s : State) (b : Byte) : (s.setFdcStat b).ledRead = s.ledRead := rfl
@[simp] theorem State.setFdcStat_ledWrite (s : State) (b : Byte) : (s.setFdcStat b).ledWrite = s.ledWrite := rfl
@[simp] theorem State.setFdcStat_storage (s : State) (b : Byte) : (s.setFdcStat b).storage = s.storage := rfl
@[simp] theorem State.setFdcStat_storageStalled (s : State) (b : Byte) : (s.setFdcStat b).storageStalled = s.storageStalled := rfl
@[simp] theorem State.setFdcStat_draws (s : State) (b : Byte) : (s.setFdcStat b).draws = s.draws := rfl
@[simp] theorem State.setFdcStat_signals (s : State) (b : Byte) : (s.setFdcStat b).signals = s.signals := rfl
@[simp] theorem State.setFdcStat_result (s : State) (b : Byte) : (s.setFdcStat b).result = s.result := rfl
@[simp] theorem State.setFdcStat_hostResult (s : State) (b : Byte) : (s.setFdcStat b).hostResult = s.hostResult := rfl
@[simp] theorem State.setFdcStat_pending (s : State) (b : Byte) : (s.setFdcStat b).pending = s.pending := rfl

/-! ### setFile -/

@[simp] theorem State.setFile_cfg (s : State) (p : Path) (f : File) : (s.setFile p f).cfg = s.cfg := rfl
@[simp] theorem State.setFile_bankSel (s : State) (p : Path) (f : File) : (s.setFile p f).bankSel = s.bankSel := rfl
@[simp] theorem State.setFile_fdcStat (s : State) (p : Path) (f : File) : (s.setFile p f).fdcStat = s.fdcStat := rfl
@[simp] theorem State.setFile_fdcCmdAddr (s : State) (p : Path) (f : File) : (s.setFile p f).fdcCmdAddr = s.fdcCmdAddr := rfl
@[simp] theorem State.setFile_fdcDmaAddr (s : State) (p : Path) (f : File) : (s.setFile p f).fdcDmaAddr = s.fdcDmaAddr := rfl
@[simp] theorem State.setFile_fdcSeq (s : State) (p : Path) (f : File) : (s.setFile p f).fdcSeq = s.fdcSeq := rfl
@[simp] theorem State.setFile_fdcCmdBuf (s : State) (p : Path) (f : File) : (s.setFile p f).fdcCmdBuf = s.fdcCmdBuf := rfl
@[simp] theorem State.setFile_secBuf (s : State) (p : Path) (f : File) : (s.setFile p f).secBuf = s.secBuf := rfl
@[simp] theorem State.setFile_hwctlLock (s : State) (p : Path) (f : File) : (s.setFile p f).hwctlLock = s.hwctlLock := rfl
@[simp] theorem State.setFile_fpValue (s : State) (p : Path) (f : File) : (s.setFile p f).fpValue = s.fpValue := rfl
@[simp] theorem State.setFile_conLast (s : State) (p : Path) (f : File) : (s.setFile p f).conLast = s.conLast := rfl
@[simp] theorem State.setFile_disk (s : State) (p : Path) (f : File) : (s.setFile p f).disk = s.disk := rfl
@[simp] theorem State.setFile_stopReq (s : State) (p : Path) (f : File) : (s.setFile p f).stopReq = s.stopReq := rfl
@[simp] theorem State.setFile_cpu (s : State) (p : Path) (f : File) : (s.setFile p f).cpu = s.cpu := rfl
@[simp] theorem State.setFile_mem (s : State) (p : Path) (f : File) : (s.setFile p f).mem = s.mem := rfl
@[simp] theorem State.setFile_memEpoch (s : State) (p : Path) (f : File) : (s.setFile p f).memEpoch = s.memEpoch := rfl
@[simp] theorem State.setFile_fs (s : State) (p : Path) (f : File) : (s.setFile p f).fs = Fs.set p f s.fs := rfl
@[simp] theorem State.setFile_record (s : State) (p : Path) (f : File) : (s.setFile p f).record = s.record := rfl
@[simp] theorem State.setFile_conIn (s : State) (p : Path) (f : File) : (s.setFile p f).conIn = s.conIn := rfl
@[simp] theorem State.setFile_conOut (s : State) (p : Path) (f : File) : (s.setFile p f).conOut = s.conOut := rfl
@[simp] theorem State.setFile_ledRead (s : State) (p : Path) (f : File) : (s.setFile p f).ledRead = s.ledRead := rfl
@[simp] theorem State.setFile_ledWrite (s : State) (p : Path) (f : File) : (s.setFile p f).ledWrite = s.ledWrite := rfl
@[simp] theorem State.setFile_storage (s : State) (p : Path) (f : File) : (s.setFile p f).storage = s.storage := rfl
@[simp] theorem State.setFile_storageStalled (s : State) (p : Path) (f : File) : (s.setFile p f).storageStalled = s.storageStalled := rfl
@[simp] theorem State.setFile_draws (s : State) (p : Path) (f : File) : (s.setFile p f).draws = s.draws := rfl
@[simp] theorem State.setFile_signals (s : State) (p : Path) (f : File) : (s.setFile p f).signals = s.signals := rfl
@[simp] theorem State.setFile_result (s : State) (p : Path) (f : File) : (s.setFile p f).result = s.result := rfl
@[simp] theorem State.setFile_hostResult (s : State) (p : Path) (f : File) : (s.setFile p f).hostResult = s.hostResult := rfl
@[simp] theorem State.setFile_pending (s : State) (p : Path) (f : File) : (s.setFile p f).pending = s.pending := rfl

/-! ### switchCpu -/

@[simp] theorem State.switchCpu_cfg (s : State) (m : CpuModel) : (s.switchCpu m).cfg = s.cfg := rfl
@[simp] theorem State.switchCpu_bankSel (s : State) (m : CpuModel) : (s.switchCpu m).bankSel = s.bankSel := rfl
@[simp] theorem State.switchCpu_fdcStat (s : State) (m : CpuModel) : (s.switchCpu m).fdcStat = s.fdcStat := rfl
@[simp] theorem State.switchCpu_fdcCmdAddr (s : State) (m : CpuModel) : (s.switchCpu m).fdcCmdAddr = s.fdcCmdAddr := rfl
@[simp] theorem State.switchCpu_fdcDmaAddr (s : State) (m : CpuModel) : (s.switchCpu m).fdcDmaAddr = s.fdcDmaAddr := rfl
@[simp] theorem State.switchCpu_fdcSeq (s : State) (m : CpuModel) : (s.switchCpu m).fdcSeq = s.fdcSeq := rfl
@[simp] theorem State.switchCpu_fdcCmdBuf (s : State) (m : CpuModel) : (s.switchCpu m).fdcCmdBuf = s.fdcCmdBuf := rfl
@[simp] theorem State.switchCpu_secBuf (s : State) (m : CpuModel) : (s.switchCpu m).secBuf = s.secBuf := rfl
@[simp] theorem State.switchCpu_hwctlLock (s : State) (m : CpuModel) : (s.switchCpu m).hwctlLock = s.hwctlLock := rfl
@[simp] theorem State.switchCpu_fpValue (s : State) (m : CpuModel) : (s.switchCpu m).fpValue = s.fpValue := rfl
@[simp] theorem State.switchCpu_conLast (s : State) (m : CpuModel) : (s.switchCpu m).conLast = s.conLast := rfl
@[simp] theorem State.switchCpu_disk (s : State) (m : CpuModel) : (s.switchCpu m).disk = s.disk := rfl
@[simp] theorem State.switchCpu_stopReq (s : State) (m : CpuModel) : (s.switchCpu m).stopReq = s.stopReq := rfl
@[simp] theorem State.switchCpu_cpu (s : State) (m : CpuModel) : (s.switchCpu m).cpu = { s.cpu with model := m } := rfl
@[simp] theorem State.switchCpu_mem (s : State) (m : CpuModel) : (s.switchCpu m).mem = s.mem := rfl
@[simp] theorem State.switchCpu_memEpoch (s : State) (m : CpuModel) : (s.switchCpu m).memEpoch = s.memEpoch := rfl
@[simp] theorem State.switchCpu_fs (s : State) (m : CpuModel) : (s.switchCpu m).fs = s.fs := rfl
@[simp] theorem State.switchCpu_record (s : State) (m : CpuModel) : (s.switchCpu m).record = s.record := rfl
@[simp] theorem State.switchCpu_conIn (s : State) (m : CpuModel) : (s.switchCpu m).conIn = s.conIn := rfl
@[simp] theorem State.switchCpu_conOut (s : State) (m : CpuModel) : (s.switchCpu m).conOut = s.conOut := rfl
@[simp] theorem State.switchCpu_ledRead (s : State) (m : CpuModel) : (s.switchCpu m).ledRead = s.ledRead := rfl
@[simp] theorem State.switchCpu_ledWrite (s : State) (m : CpuModel) : (s.switchCpu m).ledWrite = s.ledWrite := rfl
@[simp] theorem State.switchCpu_storage (s : State) (m : CpuModel) : (s.switchCpu m).storage = s.storage := rfl
@[simp] theorem State.switchCpu_storageStalled (s : State) (m : CpuModel) : (s.switchCpu m).storageStalled = s.storageStalled := rfl
@[simp] theorem State.switchCpu_draws (s : State) (m : CpuModel) : (s.switchCpu m).draws = s.draws := rfl
@[simp] theorem State.switchCpu_signals (s : State) (m : CpuModel) : (s.switchCpu m).signals = s.signals ++ [.switchCpu m] := rfl
@[simp] theorem State.switchCpu_result (s : State) (m : CpuModel) : (s.switchCpu m).result = s.result := rfl
@[simp] theorem State.switchCpu_hostResult (s : State) (m : CpuModel) : (s.switchCpu m).hostResult = s.hostResult := rfl
@[simp] theorem State.switchCpu_pending (s : State) (m : CpuModel) : (s.switchCpu m).pending = s.pending := rfl

/-! ### haltCpu -/

@[simp] theorem State.haltCpu_cfg (s : State) (k : CpuError) : (s.haltCpu k).cfg = s.cfg := rfl
@[simp] theorem State.haltCpu_bankSel (s : State) (k : CpuError) : (s.haltCpu k).bankSel = s.bankSel := rfl
@[simp] theorem State.haltCpu_fdcStat (s : State) (k : CpuError) : (s.haltCpu k).fdcStat = s.fdcStat := rfl
@[simp] theorem State.haltCpu_fdcCmdAddr (s : State) (k : CpuError) : (s.haltCpu k).fdcCmdAddr = s.fdcCmdAddr := rfl
@[simp] theorem State.haltCpu_fdcDmaAddr (s : State) (k : CpuError) : (s.haltCpu k).fdcDmaAddr = s.fdcDmaAddr := rfl
@[simp] theorem State.haltCpu_fdcSeq (s : State) (k : CpuError) : (s.haltCpu k).fdcSeq = s.fdcSeq := rfl
@[simp] theorem State.haltCpu_fdcCmdBuf (s : State) (k : CpuError) : (s.haltCpu k).fdcCmdBuf = s.fdcCmdBuf := rfl
@[simp] theorem State.haltCpu_secBuf (s : State) (k : CpuError) : (s.haltCpu k).secBuf = s.secBuf := rfl
@[simp] theorem State.haltCpu_hwctlLock (s : State) (k : CpuError) : (s.haltCpu k).hwctlLock = s.hwctlLock := rfl
@[simp] theorem State.haltCpu_fpValue (s : State) (k : CpuError) : (s.haltCpu k).fpValue = s.fpValue := rfl
@[simp] theorem State.haltCpu_conLast (s : State) (k : CpuError) : (s.haltCpu k).conLast = s.conLast := rfl
@[simp] theorem State.haltCpu_disk (s : State) (k : CpuError) : (s.haltCpu k).disk = s.disk := rfl
@[simp] theorem State.haltCpu_stopReq (s : State) (k : CpuError) : (s.haltCpu k).stopReq = s.stopReq := rfl
@[simp] theorem State.haltCpu_cpu (s : State) (k : CpuError) : (s.haltCpu k).cpu = { s.cpu with error := k, state := .stopped } := rfl
@[simp] theorem State.haltCpu_mem (s : State) (k : CpuError) : (s.haltCpu k).mem = s.mem := rfl
@[simp] theorem State.haltCpu_memEpoch (s : State) (k : CpuError) : (s.haltCpu k).memEpoch = s.memEpoch := rfl
@[simp] theorem State.haltCpu_fs (s : State) (k : CpuError) : (s.haltCpu k).fs = s.fs := rfl
@[simp] theorem State.haltCpu_record (s : State) (k : CpuError) : (s.haltCpu k).record = s.record := rfl
@[simp] theorem State.haltCpu_conIn (s : State) (k : CpuError) : (s.haltCpu k).conIn = s.conIn := rfl
@[simp] theorem State.haltCpu_conOut (s : State) (k : CpuError) : (s.haltCpu k).conOut = s.conOut := rfl
@[simp] theorem State.haltCpu_ledRead (s : State) (k : CpuError) : (s.haltCpu k).ledRead = s.ledRead := rfl
@[simp] theorem State.haltCpu_ledWrite (s : State) (k : CpuError) : (s.haltCpu k).ledWrite = s.ledWrite := rfl
@[simp] theorem State.haltCpu_storage (s : State) (k : CpuError) : (s.haltCpu k).storage = s.storage := rfl
@[simp] theorem State.haltCpu_storageStalled (s : State) (k : CpuError) : (s.haltCpu k).storageStalled = s.storageStalled := rfl
@[simp] theorem State.haltCpu_draws (s : State) (k : CpuError) : (s.haltCpu k).draws = s.draws := rfl
@[simp] theorem State.haltCpu_signals (s : State) (k : CpuError) : (s.haltCpu k).signals = s.signals := rfl
@[simp] theorem State.haltCpu_result (s : State) (k : CpuError) : (s.haltCpu k).result = s.result := rfl
@[simp] theorem State.haltCpu_hostResult (s : State) (k : CpuError) : (s.haltCpu k).hostResult = s.hostResult := rfl
@[simp] theorem State.haltCpu_pending (s : State) (k : CpuError) : (s.haltCpu k).pending = s.pending := rfl

/-! ### memWrite -/

@[simp] theorem State.memWrite_cfg (s : State) (a : Addr) (v : Byte) : (s.memWrite a v).cfg = s.cfg := rfl
@[simp] theorem State.memWrite_bankSel (s : State) (a : Addr) (v : Byte) : (s.memWrite a v).bankSel = s.bankSel := rfl
@[simp] theorem State.memWrite_fdcStat (s : State) (a : Addr) (v : Byte) : (s.memWrite a v).fdcStat = s.fdcStat := rfl
@[simp] theorem State.memWrite_fdcCmdAddr (s : State) (a : Addr) (v : Byte) : (s.memWrite a v).fdcCmdAddr = s.fdcCmdAddr := rfl
@[simp] theorem State.memWrite_fdcDmaAddr (s : State) (a : Addr) (v : Byte) : (s.memWrite a v).fdcDmaAddr = s.fdcDmaAddr := rfl
@[simp] theorem State.memWrite_fdcSeq (s : State) (a : Addr) (v : Byte) : (s.memWrite a v).fdcSeq = s.fdcSeq := rfl
@[simp] theorem State.memWrite_fdcCmdBuf (s : State) (a : Addr) (v : Byte) : (s.memWrite a v).fdcCmdBuf = s.fdcCmdBuf := rfl
@[simp] theorem State.memWrite_secBuf (s : State) (a : Addr) (v : Byte) : (s.memWrite a v).secBuf = s.secBuf := rfl
@[simp] theorem State.memWrite_hwctlLock (s : State) (a : Addr) (v : Byte) : (s.memWrite a v).hwctlLock = s.hwctlLock := rfl
@[simp] theorem State.memWrite_fpValue (s : State) (a : Addr) (v : Byte) : (s.memWrite a v).fpValue = s.fpValue := rfl
@[simp] theorem State.memWrite_conLast (s : State) (a : Addr) (v : Byte) : (s.memWrite a v).conLast = s.conLast := rfl
@[simp] theorem State.memWrite_disk (s : State) (a : Addr) (v : Byte) : (s.memWrite a v).disk = s.disk := rfl
@[simp] theorem State.memWrite_stopReq (s : State) (a : Addr) (v : Byte) : (s.memWrite a v).stopReq = s.stopReq := rfl
@[simp] theorem State.memWrite_cpu (s : State) (a : Addr) (v : Byte) : (s.memWrite a v).cpu = s.cpu := rfl
@[simp] theorem State.memWrite_mem (s : State) (a : Addr) (v : Byte) : (s.memWrite a v).mem = Cells.set (memBackground s.memEpoch) (s.phys a) v s.mem := rfl
@[simp] theorem State.memWrite_memEpoch (s : State) (a : Addr) (v : Byte) : (s.memWrite a v).memEpoch = s.memEpoch := rfl
@[simp] theorem State.memWrite_fs (s : State) (a : Addr) (v : Byte) : (s.memWrite a v).fs = s.fs := rfl
@[simp] theorem State.memWrite_record (s : State) (a : Addr) (v : Byte) : (s.memWrite a v).record = s.record := rfl
@[simp] theorem State.memWrite_conIn (s : State) (a : Addr) (v : Byte) : (s.memWrite a v).conIn = s.conIn := rfl
@[simp] theorem State.memWrite_conOut (s : State) (a : Addr) (v : Byte) : (s.memWrite a v).conOut = s.conOut := rfl
@[simp] theorem State.memWrite_ledRead (s : State) (a : Addr) (v : Byte) : (s.memWrite a v).ledRead = s.ledRead := rfl
@[simp] theorem State.memWrite_ledWrite (s : State) (a : Addr) (v : Byte) : (s.memWrite a v).ledWrite = s.ledWrite := rfl
@[simp] theorem State.memWrite_storage (s : State) (a : Addr) (v : Byte) : (s.memWrite a v).storage = s.storage := rfl
@[simp] theorem State.memWrite_storageStalled (s : State) (a : Addr) (v : Byte) : (s.memWrite a v).storageStalled = s.storageStalled := rfl
@[simp] theorem State.memWrite_draws (s : State) (a : Addr) (v : Byte) : (s.memWrite a v).draws = s.draws := rfl
@[simp] theorem State.memWrite_signals (s : State) (a : Addr) (v : Byte) : (s.memWrite a v).signals = s.signals := rfl
@[simp] theorem State.memWrite_result (s : State) (a : Addr) (v : Byte) : (s.memWrite a v).result = s.result := rfl
@[simp] theorem State.memWrite_hostResult (s : State) (a : Addr) (v : Byte) : (s.memWrite a v).hostResult = s.hostResult := rfl
@[simp] theorem State.memWrite_pending (s : State) (a : Addr) (v : Byte) : (s.memWrite a v).pending = s.pending := rfl

/-! ### memReset -/

@[simp] theorem State.memReset_cfg (s : State) : (s.memReset).cfg = s.cfg := rfl
@[simp] theorem State.memReset_bankSel (s : State) : (s.memReset).bankSel = s.bankSel := rfl
@[simp] theorem State.memReset_fdcStat (s : State) : (s.memReset).fdcStat = s.fdcStat := rfl
@[simp] theorem State.memReset_fdcCmdAddr (s : State) : (s.memReset).fdcCmdAddr = s.fdcCmdAddr := rfl
@[simp] theorem State.memReset_fdcDmaAddr (s : State) : (s.memReset).fdcDmaAddr = s.fdcDmaAddr := rfl
@[simp] theorem State.memReset_fdcSeq (s : State) : (s.memReset).fdcSeq = s.fdcSeq := rfl
@[simp] theorem State.memReset_fdcCmdBuf (s : State) : (s.memReset).fdcCmdBuf = s.fdcCmdBuf := rfl
@[simp] theorem State.memReset_secBuf (s : State) : (s.memReset).secBuf = s.secBuf := rfl
@[simp] theorem State.memReset_hwctlLock (s : State) : (s.memReset).hwctlLock = s.hwctlLock := rfl
@[simp] theorem State.memReset_fpValue (s : State) : (s.memReset).fpValue = s.fpValue := rfl
@[simp] theorem State.memReset_conLast (s : State) : (s.memReset).conLast = s.conLast := rfl
@[simp] theorem State.memReset_disk (s : State) : (s.memReset).disk = s.disk := rfl
@[simp] theorem State.memReset_stopReq (s : State) : (s.memReset).stopReq = s.stopReq := rfl
@[simp] theorem State.memReset_cpu (s : State) : (s.memReset).cpu = s.cpu := rfl
@[simp] theorem State.memReset_mem (s : State) : (s.memReset).mem = [] := rfl
@[simp] theorem State.memReset_memEpoch (s : State) : (s.memReset).memEpoch = s.memEpoch + 1 := rfl
@[simp] theorem State.memReset_fs (s : State) : (s.memReset).fs = s.fs := rfl
@[simp] theorem State.memReset_record (s : State) : (s.memReset).record = s.record := rfl
@[simp] theorem State.memReset_conIn (s : State) : (s.memReset).conIn = s.conIn := rfl
@[simp] theorem State.memReset_conOut (s : State) : (s.memReset).conOut = s.conOut := rfl
@[simp] theorem State.memReset_ledRead (s : State) : (s.memReset).ledRead = s.ledRead := rfl
@[simp] theorem State.memReset_ledWrite (s : State) : (s.memReset).ledWrite = s.ledWrite := rfl
@[simp] theorem State.memReset_storage (s : State) : (s.memReset).storage = s.storage := rfl
@[simp] theorem State.memReset_storageStalled (s : State) : (s.memReset).storageStalled = s.storageStalled := rfl
@[simp] theorem State.memReset_draws (s : State) : (s.memReset).draws = s.draws := rfl
@[simp] theorem State.memReset_signals (s : State) : (s.memReset).signals = s.signals ++ [.memReset] := rfl
@[simp] theorem State.memReset_result (s : State) : (s.memReset).result = s.result := rfl
@[simp] theorem State.memReset_hostResult (s : State) : (s.memReset).hostResult = s.hostResult := rfl
@[simp] theorem State.memReset_pending (s : State) : (s.memReset).pending = s.pending := rfl

/-! ### resetBank -/

@[simp] theorem State.resetBank_cfg (s : State) : (s.resetBank).cfg = s.cfg := rfl
@[simp] theorem State.resetBank_bankSel (s : State) : (s.resetBank).bankSel = if s.cfg.resetClearsBank then 0#4 else s.bankSel := rfl
@[simp] theorem State.resetBank_fdcStat (s : State) : (s.resetBank).fdcStat = s.fdcStat := rfl
@[simp] theorem State.resetBank_fdcCmdAddr (s : State) : (s.resetBank).fdcCmdAddr = s.fdcCmdAddr := rfl
@[simp] theorem State.resetBank_fdcDmaAddr (s : State) : (s.resetBank).fdcDmaAddr = s.fdcDmaAddr := rfl
@[simp] theorem State.resetBank_fdcSeq (s : State) : (s.resetBank).fdcSeq = s.fdcSeq := rfl
@[simp] theorem State.resetBank_fdcCmdBuf (s : State) : (s.resetBank).fdcCmdBuf = s.fdcCmdBuf := rfl
@[simp] theorem State.resetBank_secBuf (s : State) : (s.resetBank).secBuf = s.secBuf := rfl
@[simp] theorem State.resetBank_hwctlLock (s : State) : (s.resetBank).hwctlLock = s.hwctlLock := rfl
@[simp] theorem State.resetBank_fpValue (s : State) : (s.resetBank).fpValue = s.fpValue := rfl
@[simp] theorem State.resetBank_conLast (s : State) : (s.resetBank).conLast = s.conLast := rfl
@[simp] theorem State.resetBank_disk (s : State) : (s.resetBank).disk = s.disk := rfl
@[simp] theorem State.resetBank_stopReq (s : State) : (s.resetBank).stopReq = s.stopReq := rfl
@[simp] theorem State.resetBank_cpu (s : State) : (s.resetBank).cpu = s.cpu := rfl
@[simp] theorem State.resetBank_mem (s : State) : (s.resetBank).mem = s.mem := rfl
@[simp] theorem State.resetBank_memEpoch (s : State) : (s.resetBank).memEpoch = s.memEpoch := rfl
@[simp] theorem State.resetBank_fs (s : State) : (s.resetBank).fs = s.fs := rfl
@[simp] theorem State.resetBank_record (s : State) : (s.resetBank).record = s.record := rfl
@[simp] theorem State.resetBank_conIn (s : State) : (s.resetBank).conIn = s.conIn := rfl
@[simp] theorem State.resetBank_conOut (s : State) : (s.resetBank).conOut = s.conOut := rfl
@[simp] theorem State.resetBank_ledRead (s : State) : (s.resetBank).ledRead = s.ledRead := rfl
@[simp] theorem State.resetBank_ledWrite (s : State) : (s.resetBank).ledWrite = s.ledWrite := rfl
@[simp] theorem State.resetBank_storage (s : State) : (s.resetBank).storage = s.storage := rfl
@[simp] theorem State.resetBank_storageStalled (s : State) : (s.resetBank).storageStalled = s.storageStalled := rfl
@[simp] theorem State.resetBank_draws (s : State) : (s.resetBank).draws = s.draws := rfl
@[simp] theorem State.resetBank_signals (s : State) : (s.resetBank).signals = s.signals := rfl
@[simp] theorem State.resetBank_result (s : State) : (s.resetBank).result = s.result := rfl
@[simp] theorem State.resetBank_hostResult (s : State) : (s.resetBank).hostResult = s.hostResult := rfl
@[simp] theorem State.resetBank_pending (s : State) : (s.resetBank).pending = s.pending := rfl

/-! ### jumpToBoot -/

@[simp] theorem State.jumpToBoot_cfg (s : State) : (s.jumpToBoot).cfg = s.cfg := rfl
@[simp] theorem State.jumpToBoot_bankSel (s : State) : (s.jumpToBoot).bankSel = s.bankSel := rfl
@[simp] theorem State.jumpToBoot_fdcStat (s : State) : (s.jumpToBoot).fdcStat = s.fdcStat := rfl
@[simp] theorem State.jumpToBoot_fdcCmdAddr (s : State) : (s.jumpToBoot).fdcCmdAddr = s.fdcCmdAddr := rfl
@[simp] theorem State.jumpToBoot_fdcDmaAddr (s : State) : (s.jumpToBoot).fdcDmaAddr = s.fdcDmaAddr := rfl
@[simp] theorem State.jumpToBoot_fdcSeq (s : State) : (s.jumpToBoot).fdcSeq = s.fdcSeq := rfl
@[simp] theorem State.jumpToBoot_fdcCmdBuf (s : State) : (s.jumpToBoot).fdcCmdBuf = s.fdcCmdBuf := rfl
@[simp] theorem State.jumpToBoot_secBuf (s : State) : (s.jumpToBoot).secBuf = s.secBuf := rfl
@[simp] theorem State.jumpToBoot_hwctlLock (s : State) : (s.jumpToBoot).hwctlLock = s.hwctlLock := rfl
@[simp] theorem State.jumpToBoot_fpValue (s : State) : (s.jumpToBoot).fpValue = s.fpValue := rfl
@[simp] theorem State.jumpToBoot_conLast (s : State) : (s.jumpToBoot).conLast = s.conLast := rfl
@[simp] theorem State.jumpToBoot_disk (s : State) : (s.jumpToBoot).disk = s.disk := rfl
@[simp] theorem State.jumpToBoot_stopReq (s : State) : (s.jumpToBoot).stopReq = s.stopReq := rfl
@[simp] theorem State.jumpToBoot_cpu (s : State) : (s.jumpToBoot).cpu = { s.cpu with pc := s.cfg.bootAddr } := rfl
@[simp] theorem State.jumpToBoot_mem (s : State) : (s.jumpToBoot).mem = s.mem := rfl
@[simp] theorem State.jumpToBoot_memEpoch (s : State) : (s.jumpToBoot).memEpoch = s.memEpoch := rfl
@[simp] theorem State.jumpToBoot_fs (s : State) : (s.jumpToBoot).fs = s.fs := rfl
@[simp] theorem State.jumpToBoot_record (s : State) : (s.jumpToBoot).record = s.record := rfl
@[simp] theorem State.jumpToBoot_conIn (s : State) : (s.jumpToBoot).conIn = s.conIn := rfl
@[simp] theorem State.jumpToBoot_conOut (s : State) : (s.jumpToBoot).conOut = s.conOut := rfl
@[simp] theorem State.jumpToBoot_ledRead (s : State) : (s.jumpToBoot).ledRead = s.ledRead := rfl
@[simp] theorem State.jumpToBoot_ledWrite (s : State) : (s.jumpToBoot).ledWrite = s.ledWrite := rfl
@[simp] theorem State.jumpToBoot_storage (s : State) : (s.jumpToBoot).storage = s.storage := rfl
@[simp] theorem State.jumpToBoot_storageStalled (s : State) : (s.jumpToBoot).storageStalled = s.storageStalled := rfl
@[simp] theorem State.jumpToBoot_draws (s : State) : (s.jumpToBoot).draws = s.draws := rfl
@[simp] theorem State.jumpToBoot_signals (s : State) : (s.jumpToBoot).signals = s.signals := rfl
@[simp] theorem State.jumpToBoot_result (s : State) : (s.jumpToBoot).result = s.result := rfl
@[simp] theorem State.jumpToBoot_hostResult (s : State) : (s.jumpToBoot).hostResult = s.hostResult := rfl
@[simp] theorem State.jumpToBoot_pending (s : State) : (s.jumpToBoot).pending = s.pending := rfl

/-! ### memWriteN, outcomeTaken, conTake: updates that are no record literal -/

/-- Writing bytes changes the memory's cells and nothing else. -/
theorem State.memWriteN_eq (s : State) (a : Addr) (l : List Byte) :
    s.memWriteN a l = { s with mem := (s.memWriteN a l).mem } := by
  induction l generalizing s a with
  | nil => rfl
  | cons b l ih => rw [State.memWriteN, ih]; rfl

@[simp] theorem State.memWriteN_cfg (s : State) (a : Addr) (l : List Byte) : (s.memWriteN a l).cfg = s.cfg := by
  rw [State.memWriteN_eq]
@[simp] theorem State.memWriteN_bankSel (s : State) (a : Addr) (l : List Byte) : (s.memWriteN a l).bankSel = s.bankSel := by
  rw [State.memWriteN_eq]
@[simp] theorem State.memWriteN_fdcStat (s : State) (a : Addr) (l : List Byte) : (s.memWriteN a l).fdcStat = s.fdcStat := by
  rw [State.memWriteN_eq]
@[simp] theorem State.memWriteN_fdcCmdAddr (s : State) (a : Addr) (l : List Byte) : (s.memWriteN a l).fdcCmdAddr = s.fdcCmdAddr := by
  rw [State.memWriteN_eq]
@[simp] theorem State.memWriteN_fdcDmaAddr (s : State) (a : Addr) (l : List Byte) : (s.memWriteN a l).fdcDmaAddr = s.fdcDmaAddr := by
  rw [State.memWriteN_eq]
@[simp] theorem State.memWriteN_fdcSeq (s : State) (a : Addr) (l : List Byte) : (s.memWriteN a l).fdcSeq = s.fdcSeq := by
  rw [State.memWriteN_eq]
@[simp] theorem State.memWriteN_fdcCmdBuf (s : State) (a : Addr) (l : List Byte) : (s.memWriteN a l).fdcCmdBuf = s.fdcCmdBuf := by
  rw [State.memWriteN_eq]
@[simp] theorem State.memWriteN_secBuf (s : State) (a : Addr) (l : List Byte) : (s.memWriteN a l).secBuf = s.secBuf := by
  rw [State.memWriteN_eq]
@[simp] theorem State.memWriteN_hwctlLock (s : State) (a : Addr) (l : List Byte) : (s.memWriteN a l).hwctlLock = s.hwctlLock := by
  rw [State.memWriteN_eq]
@[simp] theorem State.memWriteN_fpValue (s : State) (a : Addr) (l : List Byte) : (s.memWriteN a l).fpValue = s.fpValue := by
  rw [State.memWriteN_eq]
@[simp] theorem State.memWriteN_conLast (s : State) (a : Addr) (l : List Byte) : (s.memWriteN a l).conLast = s.conLast := by
  rw [State.memWriteN_eq]
@[simp] theorem State.memWriteN_disk (s : State) (a : Addr) (l : List Byte) : (s.memWriteN a l).disk = s.disk := by
  rw [State.memWriteN_eq]
@[simp] theorem State.memWriteN_stopReq (s : State) (a : Addr) (l : List Byte) : (s.memWriteN a l).stopReq = s.stopReq := by
  rw [State.memWriteN_eq]
@[simp] theorem State.memWriteN_cpu (s : State) (a : Addr) (l : List Byte) : (s.memWriteN a l).cpu = s.cpu := by
  rw [State.memWriteN_eq]
@[simp] theorem State.memWriteN_memEpoch (s : State) (a : Addr) (l : List Byte) : (s.memWriteN a l).memEpoch = s.memEpoch := by
  rw [State.memWriteN_eq]
@[simp] theorem State.memWriteN_fs (s : State) (a : Addr) (l : List Byte) : (s.memWriteN a l).fs = s.fs := by
  rw [State.memWriteN_eq]
@[simp] theorem State.memWriteN_record (s : State) (a : Addr) (l : List Byte) : (s.memWriteN a l).record = s.record := by
  rw [State.memWriteN_eq]
@[simp] theorem State.memWriteN_conIn (s : State) (a : Addr) (l : List Byte) : (s.memWriteN a l).conIn = s.conIn := by
  rw [State.memWriteN_eq]
@[simp] theorem State.memWriteN_conOut (s : State) (a : Addr) (l : List Byte) : (s.memWriteN a l).conOut = s.conOut := by
  rw [State.memWriteN_eq]
@[simp] theorem State.memWriteN_ledRead (s : State) (a : Addr) (l : List Byte) : (s.memWriteN a l).ledRead = s.ledRead := by
  rw [State.memWriteN_eq]
@[simp] theorem State.memWriteN_ledWrite (s : State) (a : Addr) (l : List Byte) : (s.memWriteN a l).ledWrite = s.ledWrite := by
  rw [State.memWriteN_eq]
@[simp] theorem State.memWriteN_storage (s : State) (a : Addr) (l : List Byte) : (s.memWriteN a l).storage = s.storage := by
  rw [State.memWriteN_eq]
@[simp] theorem State.memWriteN_storageStalled (s : State) (a : Addr) (l : List Byte) : (s.memWriteN a l).storageStalled = s.storageStalled := by
  rw [State.memWriteN_eq]
@[simp] theorem State.memWriteN_draws (s : State) (a : Addr) (l : List Byte) : (s.memWriteN a l).draws = s.draws := by
  rw [State.memWriteN_eq]
@[simp] theorem State.memWriteN_signals (s : State) (a : Addr) (l : List Byte) : (s.memWriteN a l).signals = s.signals := by
  rw [State.memWriteN_eq]
@[simp] theorem State.memWriteN_result (s : State) (a : Addr) (l : List Byte) : (s.memWriteN a l).result = s.result := by
  rw [State.memWriteN_eq]
@[simp] theorem State.memWriteN_hostResult (s : State) (a : Addr) (l : List Byte) : (s.memWriteN a l).hostResult = s.hostResult := by
  rw [State.memWriteN_eq]
@[simp] theorem State.memWriteN_pending (s : State) (a : Addr) (l : List Byte) : (s.memWriteN a l).pending = s.pending := by
  rw [State.memWriteN_eq]

/-- Taking the storage layer's answer changes the answers to come and the draw count, nothing else. -/
theorem State.outcomeTaken_eq (s : State) :
    s.outcomeTaken = { s with storage := s.outcomeTaken.storage, draws := s.outcomeTaken.draws } := by
  unfold State.outcomeTaken; split <;> rfl

@[simp] theorem State.outcomeTaken_cfg (s : State) : s.outcomeTaken.cfg = s.cfg := by
  rw [State.outcomeTaken_eq]
@[simp] theorem State.outcomeTaken_bankSel (s : State) : s.outcomeTaken.bankSel = s.bankSel := by
  rw [State.outcomeTaken_eq]
@[simp] theorem State.outcomeTaken_fdcStat (s : State) : s.outcomeTaken.fdcStat = s.fdcStat := by
  rw [State.outcomeTaken_eq]
@[simp] theorem State.outcomeTaken_fdcCmdAddr (s : State) : s.outcomeTaken.fdcCmdAddr = s.fdcCmdAddr := by
  rw [State.outcomeTaken_eq]
@[simp] theorem State.outcomeTaken_fdcDmaAddr (s : State) : s.outcomeTaken.fdcDmaAddr = s.fdcDmaAddr := by
  rw [State.outcomeTaken_eq]
@[simp] theorem State.outcomeTaken_fdcSeq (s : State) : s.outcomeTaken.fdcSeq = s.fdcSeq := by
  rw [State.outcomeTaken_eq]
@[simp] theorem State.outcomeTaken_fdcCmdBuf (s : State) : s.outcomeTaken.fdcCmdBuf = s.fdcCmdBuf := by
  rw [State.outcomeTaken_eq]
@[simp] theorem State.outcomeTaken_secBuf (s : State) : s.outcomeTaken.secBuf = s.secBuf := by
  rw [State.outcomeTaken_eq]
@[simp] theorem State.outcomeTaken_hwctlLock (s : State) : s.outcomeTaken.hwctlLock = s.hwctlLock := by
  rw [State.outcomeTaken_eq]
@[simp] theorem State.outcomeTaken_fpValue (s : State) : s.outcomeTaken.fpValue = s.fpValue := by
  rw [State.outcomeTaken_eq]
@[simp] theorem State.outcomeTaken_conLast (s : State) : s.outcomeTaken.conLast = s.conLast := by
  rw [State.outcomeTaken_eq]
@[simp] theorem State.outcomeTaken_disk (s : State) : s.outcomeTaken.disk = s.disk := by
  rw [State.outcomeTaken_eq]
@[simp] theorem State.outcomeTaken_stopReq (s : State) : s.outcomeTaken.stopReq = s.stopReq := by
  rw [State.outcomeTaken_eq]
@[simp] theorem State.outcomeTaken_cpu (s : State) : s.outcomeTaken.cpu = s.cpu := by
  rw [State.outcomeTaken_eq]
@[simp] theorem State.outcomeTaken_mem (s : State) : s.outcomeTaken.mem = s.mem := by
  rw [State.outcomeTaken_eq]
@[simp] theorem State.outcomeTaken_memEpoch (s : State) : s.outcomeTaken.memEpoch = s.memEpoch := by
  rw [State.outcomeTaken_eq]
@[simp] theorem State.outcomeTaken_fs (s : State) : s.outcomeTaken.fs = s.fs := by
  rw [State.outcomeTaken_eq]
@[simp] theorem State.outcomeTaken_record (s : State) : s.outcomeTaken.record = s.record := by
  rw [State.outcomeTaken_eq]
@[simp] theorem State.outcomeTaken_conIn (s : State) : s.outcomeTaken.conIn = s.conIn := by
  rw [State.outcomeTaken_eq]
@[simp] theorem State.outcomeTaken_conOut (s : State) : s.outcomeTaken.conOut = s.conOut := by
  rw [State.outcomeTaken_eq]
@[simp] theorem State.outcomeTaken_ledRead (s : State) : s.outcomeTaken.ledRead = s.ledRead := by
  rw [State.outcomeTaken_eq]
@[simp] theorem State.outcomeTaken_ledWrite (s : State) : s.outcomeTaken.ledWrite = s.ledWrite := by
  rw [State.outcomeTaken_eq]
@[simp] theorem State.outcomeTaken_storageStalled (s : State) : s.outcomeTaken.storageStalled = s.storageStalled := by
  rw [State.outcomeTaken_eq]
@[simp] theorem State.outcomeTaken_signals (s : State) : s.outcomeTaken.signals = s.signals := by
  rw [State.outcomeTaken_eq]
@[simp] theorem State.outcomeTaken_result (s : State) : s.outcomeTaken.result = s.result := by
  rw [State.outcomeTaken_eq]
@[simp] theorem State.outcomeTaken_hostResult (s : State) : s.outcomeTaken.hostResult = s.hostResult := by
  rw [State.outcomeTaken_eq]
@[simp] theorem State.outcomeTaken_pending (s : State) : s.outcomeTaken.pending = s.pending := by
  rw [State.outcomeTaken_eq]

theorem State.outcomeTaken_storage (s : State) : s.outcomeTaken.storage = s.storage.tail := by
  unfold State.outcomeTaken; split <;> simp_all

/-- Taking a console byte changes `CON_LAST` and the input stream, nothing else. -/
theorem State.conTake_eq (s : State) :
    s.conTake = { s with conLast := s.conTake.conLast, conIn := s.conTake.conIn } := by
  unfold State.conTake; split <;> rfl

/-- The whole of HW.RESET in one record (43_hwctl.md R205). -/
theorem State.hwReset_eq (s : State) :
    s.hwReset =
      { s with
        cpu := { s.cpu with
          pc := s.cfg.bootAddr, state := Config.freeCpuState s.draws, error := Config.freeCpuError s.draws }
        draws := s.draws + 1
        signals := s.signals ++ [.cpuReset] ++ [.memReset]
        mem := []
        memEpoch := s.memEpoch + 1
        bankSel := if s.cfg.resetClearsBank then 0#4 else s.bankSel } := rfl

end Sys2Proof.Machine
end

