-- ==== Sys2Proof/Laws/Memory.lean ====
section
/-! SUPPORT. The laws of the memory facade: what a byte store and a sector store read back and leave alone, and that
every memory operation keeps the canonical form. -/

namespace Sys2Proof.Machine

/-! ## Phys -/

theorem State.phys_eq_of_bank {s t : State} (hb : t.bankSel = s.bankSel) (hc : t.cfg = s.cfg) (a : Addr) :
    t.phys a = s.phys a := by
  unfold State.phys; rw [hb, hc]

/-- One key under two banks is one address, and below SEGSIZ one bank. -/
theorem State.phys_eq_iff {s t : State} (hc : t.cfg = s.cfg) (a b : Addr) :
    t.phys b = s.phys a ↔ b = a ∧ (t.bankSel = s.bankSel ∨ s.cfg.segSiz ≤ a.toNat) := by
  have ha : a.toNat < 65536 := a.isLt
  have hb : b.toNat < 65536 := b.isLt
  have hs : s.bankSel.toNat < 16 := s.bankSel.isLt
  have ht : t.bankSel.toNat < 16 := t.bankSel.isLt
  have zs : s.bankSel = 0#4 ↔ s.bankSel.toNat = 0 := by rw [← BitVec.toNat_inj]; rfl
  have zt : t.bankSel = 0#4 ↔ t.bankSel.toNat = 0 := by rw [← BitVec.toNat_inj]; rfl
  unfold State.phys
  simp only [hc, ← BitVec.toNat_inj (x := b), ← BitVec.toNat_inj (x := t.bankSel) (y := s.bankSel), zs, zt, memSize]
  split_ifs <;> omega

/-- Under one bank distinct addresses are distinct bytes. -/
theorem State.phys_inj {s : State} {a b : Addr} : s.phys b = s.phys a ↔ b = a := by
  simp [State.phys_eq_iff (rfl : s.cfg = s.cfg)]

@[simp] theorem State.memWrite_phys (s : State) (a b : Addr) (v : Byte) : (s.memWrite a v).phys b = s.phys b := rfl

@[simp] theorem State.memWriteN_phys (s : State) (a b : Addr) (l : List Byte) :
    (s.memWriteN a l).phys b = s.phys b :=
  State.phys_eq_of_bank (by simp) (by simp) b

/-! ## One byte -/

/-- Which byte of memory a store changes. -/
theorem State.byteAt_memWrite (s : State) (a : Addr) (v : Byte) (key : Nat) :
    (s.memWrite a v).byteAt key = if key = s.phys a then v else s.byteAt key :=
  Cells.get_set _ _ _ _ _

/-- A read after a store. -/
theorem State.memRead_memWrite (s : State) (a b : Addr) (v : Byte) :
    (s.memWrite a v).memRead b = if b = a then v else s.memRead b := by
  rw [State.memRead, State.memWrite_phys, State.byteAt_memWrite, State.memRead]
  simp only [State.phys_inj]

theorem State.memWrite_wf {s : State} (a : Addr) (v : Byte) (h : Memory.wf s) : Memory.wf (s.memWrite a v) :=
  Cells.set_wf _ h

/-! ## A run of bytes -/

/-- What a run of stores leaves alone. -/
theorem State.byteAt_memWriteN_of_ne {s : State} {a : Addr} {l : List Byte} {key : Nat}
    (h : ∀ i < l.length, key ≠ s.phys (a + BitVec.ofNat 16 i)) : (s.memWriteN a l).byteAt key = s.byteAt key := by
  induction l generalizing s a with
  | nil => rfl
  | cons b l ih =>
    rw [State.memWriteN, ih]
    · rw [State.byteAt_memWrite, if_neg]
      simpa using h 0 (by simp)
    · intro i hi
      have := h (i + 1) (by simpa using hi)
      rw [State.memWrite_phys]
      rwa [show a + BitVec.ofNat 16 (i + 1) = a + 1#16 + BitVec.ofNat 16 i by
        rw [BitVec.ofNat_add, BitVec.add_assoc, BitVec.add_comm (BitVec.ofNat 16 i)]] at this

theorem addr_add_ofNat_inj {a : Addr} {i j : Nat} (hi : i < 65536) (hj : j < 65536)
    (h : a + BitVec.ofNat 16 i = a + BitVec.ofNat 16 j) : i = j := by
  have h' := congrArg BitVec.toNat h
  simp only [BitVec.toNat_add, BitVec.toNat_ofNat] at h'
  have := a.isLt
  omega

/-- What a run of stores that does not overrun memory reads back. -/
theorem State.memRead_memWriteN {s : State} {a : Addr} {l : List Byte} (hl : l.length ≤ 65536) {i : Nat}
    (hi : i < l.length) : (s.memWriteN a l).memRead (a + BitVec.ofNat 16 i) = l.getD i 0#8 := by
  induction l generalizing s a i with
  | nil => simp at hi
  | cons b l ih =>
    rw [State.memWriteN]
    simp only [List.length_cons] at hl hi
    cases i with
    | zero =>
      rw [State.memRead, State.memWriteN_phys, State.memWrite_phys, State.byteAt_memWriteN_of_ne,
        State.byteAt_memWrite, if_pos (by simp)]
      · rfl
      · intro j hj
        rw [State.memWrite_phys, Ne, State.phys_inj]
        intro h
        have : a + BitVec.ofNat 16 0 = a + BitVec.ofNat 16 (j + 1) := by
          rw [h, BitVec.ofNat_add, BitVec.add_assoc, BitVec.add_comm (BitVec.ofNat 16 j)]
        have := addr_add_ofNat_inj (by omega) (by omega) this
        omega
    | succ i =>
      rw [List.getD_cons_succ, show a + BitVec.ofNat 16 (i + 1) = a + 1#16 + BitVec.ofNat 16 i by
        rw [BitVec.ofNat_add, BitVec.add_assoc, BitVec.add_comm (BitVec.ofNat 16 i)]]
      exact ih (by omega) (by omega)

theorem State.memWriteN_wf {s : State} (a : Addr) (l : List Byte) (h : Memory.wf s) : Memory.wf (s.memWriteN a l) := by
  induction l generalizing s a with
  | nil => exact h
  | cons b l ih => exact ih _ (State.memWrite_wf a b h)

theorem State.memReset_wf (s : State) : Memory.wf s.memReset :=
  ⟨List.Pairwise.nil, by simp⟩

@[simp] theorem State.memReadN_length (s : State) (a : Addr) (n : Nat) : (s.memReadN a n).length = n := by
  simp [State.memReadN]

theorem State.memReadN_getD {s : State} {a : Addr} {n i : Nat} (hi : i < n) :
    (s.memReadN a n).getD i 0#8 = s.memRead (a + BitVec.ofNat 16 i) := by
  simp [State.memReadN, List.getD_eq_getElem?_getD, hi]

@[simp] theorem File.read_length (f : File) (off n : Nat) : (f.read off n).length = n := by
  simp [File.read]

theorem File.read_getD {f : File} {off n i : Nat} (hi : i < n) : (f.read off n).getD i 0#8 = f.byte (off + i) := by
  simp [File.read, List.getD_eq_getElem?_getD, hi]

/-- The memory right after reset is in canonical form. -/
theorem State.reset_memory_wf : Memory.wf State.reset :=
  ⟨List.Pairwise.nil, fun c hc => absurd hc (by simp [State.reset])⟩

end Sys2Proof.Machine
end

