-- ==== Sys2Proof/Laws/PerInstr.lean ====
section
/-! SUPPORT. The family TableRow: what spec/opcode_table.json says of each row's bits, held against the encoder. The table's
words are those of `CFG_REF` (INDEX.md), so the statement is about `Config.ref`. -/

namespace Sys2Proof.Laws

/-- The six formats of 30_encoding.md. -/
inductive Format where
  | io | fdcOp | fdcAddr | hwKey | hwCmd | fdcBlk
  deriving DecidableEq, Repr

/-- A row of spec/opcode_table.json: its format, and which bits it fixes at which values. -/
structure Row where
  format : Format
  mask : BitVec 32
  pattern : BitVec 32
  deriving DecidableEq, Repr

/-- The format and the bits of a code, numbered as the table numbers them. -/
def codeBits : Code → Format × BitVec 32
  | .io w => (.io, w.setWidth 32)
  | .fdcOp b => (.fdcOp, b.setWidth 32)
  | .fdcAddr b => (.fdcAddr, b.setWidth 32)
  | .hwKey b => (.hwKey, b.setWidth 32)
  | .hwCmd b => (.hwCmd, b.setWidth 32)
  | .fdcBlk w => (.fdcBlk, w)

/-- The rows of spec/opcode_table.json, copied from its "format", "mask" and "match". -/
def row : Instr → Row
  | .inConStatus => ⟨.io, 0x1FF00#32, 0x00000#32⟩
  | .inConData => ⟨.io, 0x1FF00#32, 0x00100#32⟩
  | .outConData _ => ⟨.io, 0x1FF00#32, 0x10100#32⟩
  | .inFdcStatus => ⟨.io, 0x1FF00#32, 0x00400#32⟩
  | .outFdcCmd _ => ⟨.io, 0x1FF00#32, 0x10400#32⟩
  | .inMmu => ⟨.io, 0x1FF00#32, 0x04000#32⟩
  | .outMmuBankExists _ => ⟨.io, 0x1FFF8#32, 0x14000#32⟩
  | .outMmuNoSuchBank _ => ⟨.io, 0x1FF00#32, 0x14000#32⟩
  | .inRtcCmd => ⟨.io, 0x1FF00#32, 0x04100#32⟩
  | .outRtcCmd _ => ⟨.io, 0x1FF00#32, 0x14100#32⟩
  | .inRtcData => ⟨.io, 0x1FF00#32, 0x04200#32⟩
  | .outRtcData _ => ⟨.io, 0x1FF00#32, 0x14200#32⟩
  | .inHwctl => ⟨.io, 0x1FF00#32, 0x0A000#32⟩
  | .outHwctl _ => ⟨.io, 0x1FF00#32, 0x1A000#32⟩
  | .inFp2 => ⟨.io, 0x1FF00#32, 0x0FE00#32⟩
  | .outFp2 _ => ⟨.io, 0x1FF00#32, 0x1FE00#32⟩
  | .inFp => ⟨.io, 0x1FF00#32, 0x0FF00#32⟩
  | .outFp _ => ⟨.io, 0x1FF00#32, 0x1FF00#32⟩
  | .inDefault _ => ⟨.io, 0x10000#32, 0x00000#32⟩
  | .outDefault _ _ => ⟨.io, 0x10000#32, 0x10000#32⟩
  | .fdcSetcmd => ⟨.fdcOp, 0xFF#32, 0x10#32⟩
  | .fdcSetdma => ⟨.fdcOp, 0xFF#32, 0x20#32⟩
  | .fdcExec => ⟨.fdcOp, 0xFF#32, 0x40#32⟩
  | .fdcIgnored _ => ⟨.fdcOp, 0x00#32, 0x00#32⟩
  | .fdcAddrbyte _ => ⟨.fdcAddr, 0x00#32, 0x00#32⟩
  | .hwkeyUnlock => ⟨.hwKey, 0xFF#32, 0xAA#32⟩
  | .hwkeyIgnored _ => ⟨.hwKey, 0x00#32, 0x00#32⟩
  | .hwKeybyte => ⟨.hwCmd, 0xFF#32, 0xAA#32⟩
  | .hwHalt _ => ⟨.hwCmd, 0x80#32, 0x80#32⟩
  | .hwReset _ => ⟨.hwCmd, 0xC0#32, 0x40#32⟩
  | .hwZ80 _ => ⟨.hwCmd, 0xE0#32, 0x20#32⟩
  | .hwI8080 _ => ⟨.hwCmd, 0xF0#32, 0x10#32⟩
  | .hwNop _ => ⟨.hwCmd, 0xF0#32, 0x00#32⟩
  | .fdcblkRead _ _ _ => ⟨.fdcBlk, 0xFF000000#32, 0x01000000#32⟩
  | .fdcblkWrite _ _ _ => ⟨.fdcBlk, 0xFF000000#32, 0x02000000#32⟩
  | .fdcblkOther _ _ _ _ => ⟨.fdcBlk, 0x00000000#32, 0x00000000#32⟩

namespace TableRow

/-- The encoding of a well-formed instruction is in its row's format and has the row's fixed bits. -/
def Statement (i : Instr) : Prop :=
  i.wf Config.ref = true →
    (codeBits (encode Config.ref i)).1 = (row i).format ∧
      (codeBits (encode Config.ref i)).2 &&& (row i).mask = (row i).pattern

theorem dir_bit (p v : Byte) : (1#1 ++ p ++ v : BitVec 17).setWidth 32 &&& 0x10000#32 = 0x10000#32 := by
  ext i hi
  simp only [BitVec.getElem_and, BitVec.getElem_setWidth, BitVec.getLsbD_append]
  interval_cases i <;> simp

theorem kind_bits (k d t n : Byte) :
    (k ++ d ++ t ++ n : BitVec 32) &&& 0xFF000000#32 = (k ++ 0#24 : BitVec 32) := by
  ext i hi
  simp only [BitVec.getElem_and, BitVec.getElem_append]
  interval_cases i <;> simp

theorem inConStatus : Statement .inConStatus := by unfold Statement; decide
theorem inConData : Statement .inConData := by unfold Statement; decide
theorem outConData (value : Byte) : Statement (.outConData value) := by unfold Statement; revert value; decide
theorem inFdcStatus : Statement .inFdcStatus := by unfold Statement; decide
theorem outFdcCmd (value : Byte) : Statement (.outFdcCmd value) := by unfold Statement; revert value; decide
theorem inMmu : Statement .inMmu := by unfold Statement; decide
theorem outMmuBankExists (value : Byte) : Statement (.outMmuBankExists value) := by unfold Statement; revert value; decide
theorem outMmuNoSuchBank (value : Byte) : Statement (.outMmuNoSuchBank value) := by unfold Statement; revert value; decide
theorem inRtcCmd : Statement .inRtcCmd := by unfold Statement; decide
theorem outRtcCmd (value : Byte) : Statement (.outRtcCmd value) := by unfold Statement; revert value; decide
theorem inRtcData : Statement .inRtcData := by unfold Statement; decide
theorem outRtcData (value : Byte) : Statement (.outRtcData value) := by unfold Statement; revert value; decide
theorem inHwctl : Statement .inHwctl := by unfold Statement; decide
theorem outHwctl (value : Byte) : Statement (.outHwctl value) := by unfold Statement; revert value; decide
theorem inFp2 : Statement .inFp2 := by unfold Statement; decide
theorem outFp2 (value : Byte) : Statement (.outFp2 value) := by unfold Statement; revert value; decide
theorem inFp : Statement .inFp := by unfold Statement; decide
theorem outFp (value : Byte) : Statement (.outFp value) := by unfold Statement; revert value; decide
theorem inDefault (port : Byte) : Statement (.inDefault port) := by unfold Statement; revert port; decide
theorem outDefault (port : Byte) (value : Byte) : Statement (.outDefault port value) := fun _ => ⟨rfl, dir_bit port value⟩
theorem fdcSetcmd : Statement .fdcSetcmd := by unfold Statement; decide
theorem fdcSetdma : Statement .fdcSetdma := by unfold Statement; decide
theorem fdcExec : Statement .fdcExec := by unfold Statement; decide
theorem fdcIgnored (op : Byte) : Statement (.fdcIgnored op) := by unfold Statement; revert op; decide
theorem fdcAddrbyte (addr8 : Byte) : Statement (.fdcAddrbyte addr8) := by unfold Statement; revert addr8; decide
theorem hwkeyUnlock : Statement .hwkeyUnlock := by unfold Statement; decide
theorem hwkeyIgnored (key : Byte) : Statement (.hwkeyIgnored key) := by unfold Statement; revert key; decide
theorem hwKeybyte : Statement .hwKeybyte := by unfold Statement; decide
theorem hwHalt (low : BitVec 7) : Statement (.hwHalt low) := by unfold Statement; revert low; decide
theorem hwReset (low : BitVec 6) : Statement (.hwReset low) := by unfold Statement; revert low; decide
theorem hwZ80 (low : BitVec 5) : Statement (.hwZ80 low) := by unfold Statement; revert low; decide
theorem hwI8080 (low : BitVec 4) : Statement (.hwI8080 low) := by unfold Statement; revert low; decide
theorem hwNop (low : BitVec 4) : Statement (.hwNop low) := by unfold Statement; revert low; decide
theorem fdcblkRead (drive : Byte) (track : Byte) (sector : Byte) : Statement (.fdcblkRead drive track sector) := fun _ => ⟨rfl, kind_bits 0x01#8 drive track sector⟩
theorem fdcblkWrite (drive : Byte) (track : Byte) (sector : Byte) : Statement (.fdcblkWrite drive track sector) := fun _ => ⟨rfl, kind_bits 0x02#8 drive track sector⟩
theorem fdcblkOther (kind : Byte) (drive : Byte) (track : Byte) (sector : Byte) : Statement (.fdcblkOther kind drive track sector) := fun _ => ⟨rfl, BitVec.and_zero⟩

end TableRow

end Sys2Proof.Laws
end

