-- ==== Sys2Proof/Laws/Sector.lean ====
section
/-! SUPPORT. What the Sector I/O Engine can do, said once: the request checks, the outcome of a sector operation, and the
cases of a sector read and of a sector write. -/

namespace Sys2Proof.Machine

/-! ## The request checks -/

/-- PASS is the request meeting all five checks. -/
theorem State.validate_none_iff (s : State) (d t n : Byte) (hs : s.cfg.secSz ≤ memSize) :
    s.validate d t n s.fdcDmaAddr = none ↔ Admitted s d t n := by
  unfold State.validate Config.dmaAddrLimit
  constructor
  · intro h
    split_ifs at h with h1 h2 h3 h4 h5
    exact ⟨by omega, by omega, by omega, by omega, by omega, h5⟩
  · rintro ⟨h1, h2, h3, h4, h5, h6⟩
    rw [if_neg (by omega), if_neg (by omega), if_neg (by omega), if_neg (by omega), if_neg h6]

/-- Only the five request codes come out of the checks. -/
theorem State.validate_some {s : State} {d t n : Byte} {a : Addr} {code : StatusCode}
    (h : s.validate d t n a = some code) :
    code ∈ [StatusCode.badDrive, .badTrack, .badSector, .badDmaAddress, .noDisk] := by
  unfold State.validate at h
  split_ifs at h <;> cases h <;> simp

/-! ## The oracle's laws (20_memory.md R70) -/

/-- Law (a), and with it: an outcome of a transfer means that the file is there. -/
theorem State.file_of_sectorOutcome {s : State} {rd : Bool} {p : Path} {off : Nat}
    (h : s.sectorOutcome rd p off ≠ .openFail) : ∃ f, s.fileOf p = some f := by
  unfold State.sectorOutcome at h
  cases hf : s.fileOf p with
  | none => rw [hf] at h; exact absurd rfl h
  | some f => exact ⟨f, rfl⟩

theorem State.sectorOutcome_write {s : State} {p : Path} {off : Nat} {f : File} (h : s.fileOf p = some f) :
    s.sectorOutcome false p off = s.nextOutcome := by
  unfold State.sectorOutcome; rw [h]; simp

theorem State.sectorOutcome_read {s : State} {p : Path} {off : Nat} {f : File} (h : s.fileOf p = some f) :
    s.sectorOutcome true p off =
      if f.size < off + s.cfg.secSz ∧ s.nextOutcome = .ok then .short else s.nextOutcome := by
  unfold State.sectorOutcome; rw [h]; simp

/-! ## A sector read -/

/-- What a transfer from the image can do to the state: nothing but SECBUF, memory inside the DMA range and the draws. -/
structure ReadFrame (s u : State) (addr : Addr) : Prop where
  eq : u = { s with secBuf := u.secBuf, mem := u.mem, draws := u.draws }
  secBuf : u.secBuf = s.secBuf ∨ u.secBuf.length = s.cfg.secSz
  outside : ∀ key, OutsideDma s addr key → u.byteAt key = s.byteAt key
  wf : Memory.wf s → Memory.wf u

theorem ReadFrame.refl (s : State) (addr : Addr) : ReadFrame s s addr :=
  ⟨rfl, .inl rfl, fun _ _ => rfl, id⟩

theorem State.readTransfer_spec (s : State) (so : StorageOutcome) (p : Path) (off : Nat) (addr : Addr) :
    ReadFrame s (s.readTransfer so p off addr).2 addr ∧
      (s.readTransfer so p off addr).1 ∈ [StatusCode.ok, .noDisk, .seekFailed, .readFailed] := by
  cases so with
  | openFail => exact ⟨ReadFrame.refl s addr, by simp [State.readTransfer]⟩
  | seekFail => exact ⟨ReadFrame.refl s addr, by simp [State.readTransfer]⟩
  | short =>
    refine ⟨⟨rfl, .inr ?_, fun _ _ => rfl, id⟩, by simp [State.readTransfer]⟩
    simp [State.readTransfer, State.freeBytes]
  | ok =>
    cases hf : s.fileOf p with
    | none => simp only [State.readTransfer, hf]; exact ⟨ReadFrame.refl s addr, by simp⟩
    | some f =>
      simp only [State.readTransfer, hf]
      refine ⟨⟨?_, .inr (by simp), fun key hk => ?_, fun h => ?_⟩, by simp⟩
      · rw [State.memWriteN_eq]; simp [State.setSecBuf]
      · rw [State.byteAt_memWriteN_of_ne]
        · rfl
        · rw [File.read_length]; exact hk
      · exact State.memWriteN_wf _ _ h

/-- Everything a sector read can do when it answers: the code of the first check that fails, and then nothing else; or a
transfer, in its frame, with both indicators as they should be. -/
theorem State.readSector_cases {s u : State} {d t n : Byte} {addr : Addr} {code : StatusCode}
    (h : s.readSector d t n addr = .ok (code, u)) :
    (s.validate d t n addr = some code ∧ u = s) ∨
    (s.validate d t n addr = none ∧ s.storageStalled = false ∧
      code ∈ [StatusCode.ok, .noDisk, .seekFailed, .readFailed] ∧
      u = { s with secBuf := u.secBuf, mem := u.mem, ledRead := false, storage := u.storage, draws := u.draws,
                   signals := s.signals ++ [.ledRead true, .ledRead false] } ∧
      (u.secBuf = s.secBuf ∨ u.secBuf.length = s.cfg.secSz) ∧
      (∀ key, OutsideDma s addr key → u.byteAt key = s.byteAt key) ∧ (Memory.wf s → Memory.wf u)) := by
  unfold State.readSector at h
  split at h
  · cases h; exact .inl ⟨by assumption, rfl⟩
  · rename_i hv
    split_ifs at h with hstall
    obtain ⟨⟨heq, hbuf, hout, hwf⟩, hcode⟩ := State.readTransfer_spec ((s.setLedRead true).outcomeTaken)
      (s.sectorOutcome true (s.slot d.toNat) (sectorOffset s.cfg t n)) (s.slot d.toNat) (sectorOffset s.cfg t n) addr
    simp only [Except.ok.injEq, Prod.mk.injEq] at h
    obtain ⟨rfl, rfl⟩ := h
    refine .inr ⟨hv, by simpa using hstall, hcode, ?_, ?_, ?_, ?_⟩
    · rw [heq, State.outcomeTaken_eq]
      simp [State.setLedRead]
    · simpa using hbuf
    · intro key hk
      refine (hout key fun i hi => ?_).trans ?_
      · simp only [State.outcomeTaken_cfg, State.setLedRead_cfg] at hi
        rw [State.phys_eq_of_bank (s := s) (by simp) (by simp)]
        exact hk i hi
      · simp [State.byteAt]
    · intro hw
      refine hwf ?_
      simpa [Memory.wf] using hw

/-! ## A sector write -/

/-- What a transfer to the image can do to the state: nothing but SECBUF, the drive's file and the draws. -/
structure WriteFrame (s u : State) (p : Path) : Prop where
  eq : u = { s with secBuf := u.secBuf, fs := u.fs, draws := u.draws }
  secBuf : u.secBuf = s.secBuf ∨ u.secBuf.length = s.cfg.secSz
  other : ∀ q, q ≠ p → u.fileOf q = s.fileOf q
  wf : Fs.Wf s.fs → Fs.Wf u.fs

theorem WriteFrame.refl (s : State) (p : Path) : WriteFrame s s p :=
  ⟨rfl, .inl rfl, fun _ _ => rfl, id⟩

theorem Fs.Wf.set {fs : List (Path × File)} {p : Path} {f : File} (h : Fs.Wf fs) (hf : f.Wf) : Fs.Wf (Fs.set p f fs) :=
  ⟨Fs.keys_set p f fs h.1, fun e he => (Fs.mem_set he).elim (fun h' => h' ▸ hf) (h.2 e)⟩

theorem Fs.Wf.del {fs : List (Path × File)} {p : Path} (h : Fs.Wf fs) : Fs.Wf (Fs.del p fs) :=
  ⟨Fs.keys_del p fs h.1, fun e he => h.2 e (Fs.mem_del he)⟩

theorem State.file_wf {s : State} {p : Path} {f : File} (h : Fs.Wf s.fs) (hf : s.fileOf p = some f) : f.Wf :=
  h.2 _ (Fs.get_mem hf)

/-- Storing a file leaves every other file alone. -/
theorem State.fileOf_setFile (s : State) (p q : Path) (f : File) :
    (s.setFile p f).fileOf q = if q = p then some f else s.fileOf q :=
  Fs.get_set p q f s.fs

theorem State.writeTransfer_spec (s : State) (so : StorageOutcome) (p : Path) (off : Nat) (addr : Addr) :
    WriteFrame s (s.writeTransfer so p off addr).2 p ∧
      (s.writeTransfer so p off addr).1 ∈ [StatusCode.ok, .noDisk, .seekFailed, .writeFailed] := by
  have store : ∀ f g : File, s.fileOf p = some f → (f.Wf → g.Wf) →
      WriteFrame s (((s.setSecBuf (s.memReadN addr s.cfg.secSz)).setFile p g).drawn) p := by
    intro f g hf hg
    refine ⟨rfl, .inr (by simp), fun q hq => ?_, fun h => ?_⟩
    · exact (Fs.get_set p q g s.fs).trans (if_neg hq)
    · exact Fs.Wf.set h (hg (State.file_wf h hf))
  cases so with
  | openFail => exact ⟨WriteFrame.refl s p, by simp [State.writeTransfer]⟩
  | seekFail => exact ⟨WriteFrame.refl s p, by simp [State.writeTransfer]⟩
  | short =>
    cases hf : s.fileOf p with
    | none => simp only [State.writeTransfer, hf]; exact ⟨WriteFrame.refl s p, by simp⟩
    | some f => simp only [State.writeTransfer, hf]; exact ⟨store f _ hf (File.scramble_wf _ _ _), by simp⟩
  | ok =>
    cases hf : s.fileOf p with
    | none => simp only [State.writeTransfer, hf]; exact ⟨WriteFrame.refl s p, by simp⟩
    | some f => simp only [State.writeTransfer, hf]; exact ⟨store f _ hf (File.write_or_scramble_wf _ _ _), by simp⟩

/-- Everything a sector write can do when it answers. -/
theorem State.writeSector_cases {s u : State} {d t n : Byte} {addr : Addr} {code : StatusCode}
    (h : s.writeSector d t n addr = .ok (code, u)) :
    (s.validate d t n addr = some code ∧ u = s) ∨
    (s.validate d t n addr = none ∧ s.storageStalled = false ∧
      code ∈ [StatusCode.ok, .noDisk, .seekFailed, .writeFailed] ∧
      u = { s with secBuf := u.secBuf, fs := u.fs, ledWrite := false, storage := u.storage, draws := u.draws,
                   signals := s.signals ++ [.ledWrite true, .ledWrite false] } ∧
      (u.secBuf = s.secBuf ∨ u.secBuf.length = s.cfg.secSz) ∧
      (∀ q, q ≠ s.slot d.toNat → u.fileOf q = s.fileOf q) ∧ (Fs.Wf s.fs → Fs.Wf u.fs)) := by
  unfold State.writeSector at h
  split at h
  · cases h; exact .inl ⟨by assumption, rfl⟩
  · rename_i hv
    split_ifs at h with hstall
    obtain ⟨⟨heq, hbuf, hother, hwf⟩, hcode⟩ := State.writeTransfer_spec ((s.setLedWrite true).outcomeTaken)
      (s.sectorOutcome false (s.slot d.toNat) (sectorOffset s.cfg t n)) (s.slot d.toNat) (sectorOffset s.cfg t n) addr
    simp only [Except.ok.injEq, Prod.mk.injEq] at h
    obtain ⟨rfl, rfl⟩ := h
    refine .inr ⟨hv, by simpa using hstall, hcode, ?_, ?_, ?_, ?_⟩
    · rw [heq, State.outcomeTaken_eq]
      simp [State.setLedWrite]
    · simpa using hbuf
    · intro q hq
      refine (hother q hq).trans ?_
      simp [State.fileOf]
    · intro hw
      refine hwf ?_
      simpa using hw

/-- A sector operation faults only where the storage layer never answers, and only after the checks. -/
theorem State.readSector_error {s : State} {d t n : Byte} {addr : Addr} {e : Fault}
    (h : s.readSector d t n addr = .error e) : s.storageStalled = true ∧ s.validate d t n addr = none := by
  unfold State.readSector at h
  split at h
  · cases h
  · split_ifs at h with hs
    exact ⟨hs, by assumption⟩

theorem State.writeSector_error {s : State} {d t n : Byte} {addr : Addr} {e : Fault}
    (h : s.writeSector d t n addr = .error e) : s.storageStalled = true ∧ s.validate d t n addr = none := by
  unfold State.writeSector at h
  split at h
  · cases h
  · split_ifs at h with hs
    exact ⟨hs, by assumption⟩

/-- What the FDC does with a sector operation's answer. -/
theorem State.finishSector_next {r : Except Fault (StatusCode × State)} {u : State}
    (h : State.finishSector r = .next u) :
    ∃ code t, r = .ok (code, t) ∧ u = { t with fdcStat := statusByte t.cfg code, result := none } := by
  cases r with
  | error e => cases h
  | ok p => obtain ⟨code, t⟩ := p; cases h; exact ⟨code, t, rfl, rfl⟩

/-- Every status code's byte is one of the nine. -/
theorem statusByte_mem (c : Config) (code : StatusCode) : statusByte c code ∈ c.statusBytes := by
  cases code <;> simp [statusByte]

end Sys2Proof.Machine
end

