-- ==== Sys2Proof/Laws/Registry.lean ====
section
/-! SUPPORT. What the host's operations can do: the loop of `verify_all`, the loop of `load_image`, the fields of a
record. -/

namespace Sys2Proof.Machine

/-! ## verify_all -/

/-- A probe changes the storage layer's answers to come and the draw count. -/
theorem State.verifySlots_state (s : State) (ps : List Path) :
    (s.verifySlots ps).2.2 =
      { s with storage := (s.verifySlots ps).2.2.storage, draws := (s.verifySlots ps).2.2.draws } := by
  induction ps generalizing s with
  | nil => rfl
  | cons p ps ih =>
    simp only [State.verifySlots]
    split_ifs
    · exact ih s
    · rw [ih, State.outcomeTaken_eq]
    · rw [ih, State.outcomeTaken_eq]

/-- A slot is left as it is or emptied. -/
theorem State.verifySlots_slots (s : State) (ps : List Path) :
    List.Forall₂ (fun q p => q = p ∨ q = []) (s.verifySlots ps).1 ps := by
  induction ps generalizing s with
  | nil => exact .nil
  | cons p ps ih =>
    simp only [State.verifySlots]
    split_ifs
    · exact .cons (.inr rfl) (ih s)
    · exact .cons (.inl rfl) (ih _)
    · exact .cons (.inr rfl) (ih _)

theorem State.verifySlots_length (s : State) (ps : List Path) : (s.verifySlots ps).1.length = ps.length :=
  (State.verifySlots_slots s ps).length_eq

theorem State.verified_eq (s : State) :
    s.verified = { s with disk := (s.verifySlots s.disk).1, storage := s.verified.storage, draws := s.verified.draws } := by
  unfold State.verified
  rw [State.verifySlots_state]

/-- Slot by slot, `verify_all` leaves the path or empties the slot. -/
theorem State.verified_slot (s : State) (d : Nat) : s.verified.slot d = s.slot d ∨ s.verified.slot d = [] := by
  have key : ∀ (qs ps : List Path), List.Forall₂ (fun q p => q = p ∨ q = []) qs ps →
      ∀ d, qs.getD d [] = ps.getD d [] ∨ qs.getD d [] = [] := by
    intro qs ps h
    induction h with
    | nil => intro d; exact .inl rfl
    | cons h _ ih =>
      intro d
      cases d with
      | zero => simpa using h
      | succ d => simpa using ih d
  exact key _ _ (State.verifySlots_slots s s.disk) d

/-! ## load_image -/

/-- What the loader can do to the state: SECBUF, memory, and the draws. -/
structure LoadFrame (s u : State) : Prop where
  eq : u = { s with secBuf := u.secBuf, mem := u.mem, storage := u.storage, draws := u.draws }
  secBuf : s.secBuf.length = s.cfg.secSz → u.secBuf.length = s.cfg.secSz
  wf : Memory.wf s → Memory.wf u

theorem LoadFrame.trans {s t u : State} (h : LoadFrame s t) (g : LoadFrame t u) : LoadFrame s u where
  eq := by rw [g.eq, h.eq]
  secBuf hs := by
    have hc : t.cfg = s.cfg := by rw [h.eq]
    exact hc ▸ g.secBuf (hc.symm ▸ h.secBuf hs)
  wf hs := g.wf (h.wf hs)

theorem LoadFrame.taken (s : State) : LoadFrame s s.outcomeTaken where
  eq := by rw [State.outcomeTaken_eq]
  secBuf := by simp
  wf := by simp [Memory.wf]

theorem LoadFrame.drawn (s : State) : LoadFrame s s.drawn := ⟨rfl, id, id⟩

theorem LoadFrame.chunk (s : State) (f : File) (a : Nat) {n : Nat} (hn : n ≤ s.cfg.secSz) :
    LoadFrame s (s.loadChunk f a n) where
  eq := by unfold State.loadChunk; rw [State.memWriteN_eq]; simp [State.setSecBuf]
  secBuf h := by simp [State.loadChunk, h]; omega
  wf h := State.memWriteN_wf _ _ h

theorem LoadFrame.tail (s : State) (a n : Nat) : LoadFrame s (s.scrambleTail a n) where
  eq := by unfold State.scrambleTail State.drawn; rw [State.memWriteN_eq]
  secBuf h := by simpa [State.scrambleTail] using h
  wf h := State.memWriteN_wf _ _ h

/-- The last read changes SECBUF and the draws, nothing else; memory is as the chunks before it left it. -/
theorem State.loadEnd_eq (s : State) :
    s.loadEnd = { s with secBuf := s.loadEnd.secBuf, storage := s.loadEnd.storage, draws := s.loadEnd.draws } := by
  unfold State.loadEnd
  split <;> rw [State.outcomeTaken_eq] <;> rfl

theorem LoadFrame.stop (s : State) : LoadFrame s s.loadEnd where
  eq := by rw [State.loadEnd_eq]
  secBuf h := by unfold State.loadEnd; split <;> simp [State.freeBytes, h]
  wf h := by rw [State.loadEnd_eq]; exact h

/-- A chunk is never longer than what is left to read. -/
theorem State.chunkLength_le (s : State) (room : Nat) : s.chunkLength room ≤ room := by
  unfold State.chunkLength
  split
  · exact le_rfl
  · have := Nat.mod_lt (Config.freeNat s.outcomeTaken.draws 0) (show 0 < max room 1 by omega)
    omega
  · exact Nat.zero_le _
  · exact Nat.zero_le _

theorem State.loadLoop_frame (f : File) (fuel a : Nat) (s : State) : LoadFrame s (State.loadLoop f fuel a s).1 := by
  induction fuel generalizing a s with
  | zero => exact ⟨rfl, id, id⟩
  | succ fuel ih =>
    have hn : s.chunkLength (min s.cfg.secSz (f.size - a)) ≤ (s.outcomeTaken.drawn).cfg.secSz := by
      have := State.chunkLength_le s (min s.cfg.secSz (f.size - a))
      simp only [State.drawn_cfg, State.outcomeTaken_cfg]; omega
    have hd : LoadFrame s s.outcomeTaken.drawn := (LoadFrame.taken s).trans (LoadFrame.drawn _)
    rw [State.loadLoop]
    split_ifs
    · exact LoadFrame.stop s
    · exact (hd.trans (LoadFrame.chunk _ f a hn)).trans (LoadFrame.tail _ a _)
    · exact (hd.trans (LoadFrame.chunk _ f a hn)).trans (ih _ _)

/-! ## The configuration record -/

theorem pathOfField_length (r : List Byte) (off n : Nat) : (pathOfField (recordField r off n)).length ≤ n := by
  refine (List.takeWhile_prefix _).length_le.trans ?_
  simp [recordField]

end Sys2Proof.Machine
end

