-- ==== Sys2Proof/Laws/Words.lean ====
section
/-! SUPPORT. The fields of the transaction word and of the command block, and what the decoder answers for the words of an
`IN`, of an `OUT` and of a command byte. -/

namespace Sys2Proof

/-! ## The transaction word -/

theorem ioWord_dir (d : BitVec 1) (p v : Byte) : (d ++ p ++ v : BitVec 17).extractLsb' 16 1 = d := by
  ext i hi
  have : i = 0 := by omega
  subst this
  simp only [BitVec.getElem_extractLsb', BitVec.getLsbD_append]
  simp

theorem ioWord_port (d : BitVec 1) (p v : Byte) : (d ++ p ++ v : BitVec 17).extractLsb' 8 8 = p := by
  ext i hi
  simp only [BitVec.getElem_extractLsb', BitVec.getLsbD_append]
  simp [hi, BitVec.getLsbD_eq_getElem]

theorem ioWord_data (d : BitVec 1) (p v : Byte) : (d ++ p ++ v : BitVec 17).extractLsb' 0 8 = v := by
  ext i hi
  simp only [BitVec.getElem_extractLsb', BitVec.getLsbD_append]
  simp [hi, BitVec.getLsbD_eq_getElem]

/-- A transaction word is its three fields. -/
theorem ioWord_split (w : BitVec 17) :
    (w.extractLsb' 16 1 ++ w.extractLsb' 8 8 ++ w.extractLsb' 0 8 : BitVec 17) = w := by
  ext i hi
  simp only [BitVec.getElem_append, BitVec.getElem_extractLsb']
  split_ifs <;> (rw [← BitVec.getLsbD_eq_getElem hi]; congr 1; omega)

theorem decode_inWord (c : Config) (p : Byte) : decode c (inWord p) = portIn c p := by
  simp only [inWord, decode, decodeIo, ioWord_dir, ioWord_port, if_true]

theorem decode_outWord (c : Config) (p v : Byte) : decode c (outWord p v) = portOut c p v := by
  simp only [outWord, decode, decodeIo, ioWord_dir, ioWord_port, ioWord_data]
  rfl

/-! ## The command block -/

theorem blockWord_fields (k d t n : Byte) :
    (k ++ d ++ t ++ n : BitVec 32).extractLsb' 24 8 = k ∧ (k ++ d ++ t ++ n : BitVec 32).extractLsb' 16 8 = d ∧
    (k ++ d ++ t ++ n : BitVec 32).extractLsb' 8 8 = t ∧ (k ++ d ++ t ++ n : BitVec 32).extractLsb' 0 8 = n := by
  refine ⟨?_, ?_, ?_, ?_⟩ <;>
  · ext i hi
    simp only [BitVec.getElem_extractLsb', BitVec.getLsbD_append]
    rw [← BitVec.getLsbD_eq_getElem hi]
    split_ifs <;> first | omega | (congr 1; omega)

theorem blockWord_split (w : BitVec 32) :
    (w.extractLsb' 24 8 ++ w.extractLsb' 16 8 ++ w.extractLsb' 8 8 ++ w.extractLsb' 0 8 : BitVec 32) = w := by
  ext i hi
  simp only [BitVec.getElem_append, BitVec.getElem_extractLsb']
  split_ifs <;> (rw [← BitVec.getLsbD_eq_getElem hi]; congr 1; omega)

theorem decode_blockWord (c : Config) (k d t n : Byte) :
    decode c (.fdcBlk (k ++ d ++ t ++ n : BitVec 32)) = decodeFdcBlk c k d t n := by
  obtain ⟨h1, h2, h3, h4⟩ := blockWord_fields k d t n
  simp only [decode]
  rw [h1, h2, h3, h4]

/-! ## The hardware-control command byte -/

/-- The five patterns of R96 and the key byte, read off the byte. -/
theorem decodeHwCmd_halt (low : BitVec 7) (h : low ≠ 0x2A#7) :
    decodeHwCmd (1#1 ++ low : BitVec 8) = .hwHalt low := by revert low; decide

theorem decodeHwCmd_reset (low : BitVec 6) : decodeHwCmd (0b01#2 ++ low : BitVec 8) = .hwReset low := by
  revert low; decide

theorem decodeHwCmd_z80 (low : BitVec 5) : decodeHwCmd (0b001#3 ++ low : BitVec 8) = .hwZ80 low := by
  revert low; decide

theorem decodeHwCmd_i8080 (low : BitVec 4) : decodeHwCmd (0b0001#4 ++ low : BitVec 8) = .hwI8080 low := by
  revert low; decide

theorem decodeHwCmd_nop (low : BitVec 4) : decodeHwCmd (0b0000#4 ++ low : BitVec 8) = .hwNop low := by
  revert low; decide

end Sys2Proof
end

