-- ==== Sys2Proof/Tests/Slice0.lean ====
section
/-! SUPPORT. Tests, each on one step of a small state. The words and the expected results are those of spec/95_test_vectors.md
(V numbers) and of the tables of spec/30_encoding.md; a witness shows values that meet all hypotheses of a statement. -/

namespace Sys2Proof.Machine.Tests

/-! ## Small states -/

/-- A valid configuration with sectors of two bytes, two drives, two tracks of two sectors. -/
def tiny : Config :=
  { Config.ref with numDrives := 2, trkMax := 1#8, sptMax := 2#8, secSz := 2, pathLen := 8, speedW := 1 }

/-- "/d/A.D", the canonical path of the name "a" in `tiny`. -/
def pathA : Path := [0x2F#8, 0x64#8, 0x2F#8, 0x41#8, 0x2E#8, 0x44#8]

/-- "/c/A.C", its code path. -/
def codeA : Path := [0x2F#8, 0x63#8, 0x2F#8, 0x41#8, 0x2E#8, 0x43#8]

/-- The well-formed image under `pathA`: eight bytes. -/
def imageA : File := File.ofBytes [0x10#8, 0x11#8, 0x12#8, 0x13#8, 0x14#8, 0x15#8, 0x16#8, 0x17#8]

/-- Drive 0 has `pathA` mounted, drive 1 is empty, the storage is healthy, unlisted memory is 0x00. -/
def small : State :=
  { State.reset with
    cfg := tiny, memEpoch := 0, secBuf := [0#8, 0#8], disk := [pathA, []], fdcDmaAddr := 0x80#16
    cpu := ⟨0x0150#16, .running, .none, .z80, [0#8]⟩
    fs := [(pathA, imageA), (codeA, File.ofBytes [0xA1#8, 0xA2#8, 0xA3#8, 0xA4#8])]
    storage := [.ok, .ok, .ok, .ok], mem := [(0x80, 0xEE#8), (0x81, 0xDD#8)] }

/-- The state in `CFG_REF` of the validation vectors: the block at 0x2000, drive 0 mounted. -/
def vec (k d t n : Byte) (dma : Addr) : State :=
  { State.reset with
    memEpoch := 0, disk := [pathA, [], [], []], fdcCmdAddr := 0x2000#16, fdcDmaAddr := dma, storage := [.ok]
    mem := [(0x2000, k), (0x2001, d), (0x2002, t), (0x2003, n)] }

/-- What `f` sees after the transaction `w`. -/
def after {α : Type} (w : BitVec 17) (s : State) (f : State → α) : Option α :=
  match step { s with pending := [.transaction w] } with
  | .next t => some (f t)
  | .fault _ => none
  | .refused _ => none

/-- What `f` sees after an event. -/
def afterEvent {α : Type} (e : Event) (s : State) (f : State → α) : Option α :=
  match step { s with pending := [e] } with
  | .next t => some (f t)
  | .fault _ => none
  | .refused _ => none

/-- What `f` sees after a meaning. -/
def afterExec {α : Type} (i : Instr) (s : State) (f : State → α) : Option α :=
  match exec i s with
  | .next t => some (f t)
  | .fault _ => none
  | .refused _ => none

/-- The state is unlocked. -/
def unlocked (s : State) : State := { s with hwctlLock := .unlocked }

/-! ## WellFormed refuses an ill-formed term for each of its checks -/

theorem test_wf_bank_exists : (Instr.outMmuBankExists 8#8).wf Config.ref = false := by decide
theorem test_wf_no_such_bank : (Instr.outMmuNoSuchBank 7#8).wf Config.ref = false := by decide
theorem test_wf_in_default : (Instr.inDefault 254#8).wf Config.ref = false := by decide
theorem test_wf_out_default : (Instr.outDefault 1#8 0#8).wf Config.ref = false := by decide
theorem test_wf_console_status_port_has_no_out : (Instr.outDefault 0#8 0#8).wf Config.ref = true := by decide
theorem test_wf_fdc_ignored : (Instr.fdcIgnored 0x40#8).wf Config.ref = false := by decide
theorem test_wf_hwkey_ignored : (Instr.hwkeyIgnored 0xAA#8).wf Config.ref = false := by decide
theorem test_wf_hw_halt : (Instr.hwHalt 0x2A#7).wf Config.ref = false := by decide
theorem test_wf_block_other : (Instr.fdcblkOther 0x02#8 0#8 0#8 0#8).wf Config.ref = false := by decide

/-! ## Decoding, one word for each row, written out from 30_encoding.md R90 to R96 -/

theorem test_decode_inConStatus : decode Config.ref (.io 0x00000#17) = .inConStatus := by decide
theorem test_decode_inConData : decode Config.ref (.io 0x00100#17) = .inConData := by decide
theorem test_decode_outConData : decode Config.ref (.io 0x101C1#17) = .outConData 0xC1#8 := by decide
theorem test_decode_inFdcStatus : decode Config.ref (.io 0x00400#17) = .inFdcStatus := by decide
theorem test_decode_outFdcCmd : decode Config.ref (.io 0x10440#17) = .outFdcCmd 0x40#8 := by decide
theorem test_decode_inMmu : decode Config.ref (.io 0x04000#17) = .inMmu := by decide
theorem test_decode_outMmuBankExists : decode Config.ref (.io 0x14007#17) = .outMmuBankExists 7#8 := by decide
theorem test_decode_outMmuNoSuchBank : decode Config.ref (.io 0x14008#17) = .outMmuNoSuchBank 8#8 := by decide
theorem test_decode_inRtcCmd : decode Config.ref (.io 0x04100#17) = .inRtcCmd := by decide
theorem test_decode_outRtcCmd : decode Config.ref (.io 0x14103#17) = .outRtcCmd 3#8 := by decide
theorem test_decode_inRtcData : decode Config.ref (.io 0x04200#17) = .inRtcData := by decide
theorem test_decode_outRtcData : decode Config.ref (.io 0x14259#17) = .outRtcData 0x59#8 := by decide
theorem test_decode_inHwctl : decode Config.ref (.io 0x0A000#17) = .inHwctl := by decide
theorem test_decode_outHwctl : decode Config.ref (.io 0x1A0AA#17) = .outHwctl 0xAA#8 := by decide
theorem test_decode_inFp2 : decode Config.ref (.io 0x0FE00#17) = .inFp2 := by decide
theorem test_decode_outFp2 : decode Config.ref (.io 0x1FE11#17) = .outFp2 0x11#8 := by decide
theorem test_decode_inFp : decode Config.ref (.io 0x0FF00#17) = .inFp := by decide
theorem test_decode_outFp : decode Config.ref (.io 0x1FF5A#17) = .outFp 0x5A#8 := by decide
theorem test_decode_inDefault : decode Config.ref (.io 0x00700#17) = .inDefault 7#8 := by decide
theorem test_decode_outDefault : decode Config.ref (.io 0x10012#17) = .outDefault 0#8 0x12#8 := by decide
theorem test_decode_fdcSetcmd : decode Config.ref (.fdcOp 0x10#8) = .fdcSetcmd := by decide
theorem test_decode_fdcSetdma : decode Config.ref (.fdcOp 0x20#8) = .fdcSetdma := by decide
theorem test_decode_fdcExec : decode Config.ref (.fdcOp 0x40#8) = .fdcExec := by decide
theorem test_decode_fdcIgnored : decode Config.ref (.fdcOp 0x7F#8) = .fdcIgnored 0x7F#8 := by decide
theorem test_decode_fdcAddrbyte : decode Config.ref (.fdcAddr 0x40#8) = .fdcAddrbyte 0x40#8 := by decide
theorem test_decode_hwkeyUnlock : decode Config.ref (.hwKey 0xAA#8) = .hwkeyUnlock := by decide
theorem test_decode_hwkeyIgnored : decode Config.ref (.hwKey 0x80#8) = .hwkeyIgnored 0x80#8 := by decide
theorem test_decode_hwKeybyte : decode Config.ref (.hwCmd 0xAA#8) = .hwKeybyte := by decide
theorem test_decode_hwHalt : decode Config.ref (.hwCmd 0xC0#8) = .hwHalt 0x40#7 := by decide
theorem test_decode_hwReset : decode Config.ref (.hwCmd 0x41#8) = .hwReset 1#6 := by decide
theorem test_decode_hwZ80 : decode Config.ref (.hwCmd 0x30#8) = .hwZ80 0x10#5 := by decide
theorem test_decode_hwI8080 : decode Config.ref (.hwCmd 0x1F#8) = .hwI8080 0xF#4 := by decide
theorem test_decode_hwNop : decode Config.ref (.hwCmd 0x0F#8) = .hwNop 0xF#4 := by decide
theorem test_decode_fdcblkRead : decode Config.ref (.fdcBlk 0x01004C1A#32) = .fdcblkRead 0#8 0x4C#8 0x1A#8 := by decide
theorem test_decode_fdcblkWrite : decode Config.ref (.fdcBlk 0x02014C1A#32) = .fdcblkWrite 1#8 0x4C#8 0x1A#8 := by decide
theorem test_decode_fdcblkOther : decode Config.ref (.fdcBlk 0x07000001#32) = .fdcblkOther 7#8 0#8 0#8 1#8 := by decide

/-- R90: an `IN`'s data bits are ignored. -/
theorem test_decode_in_ignores_data : decode Config.ref (.io 0x040FF#17) = .inMmu := by decide

/-- A word with a bit above bit 16 is no transaction word. -/
theorem test_decode_refuses_high_bit : decodeTableWord 24 0x20000 = none := by decide

/-- The words of the host's fetch: a transaction word, and a lone command byte, run as the very next step. -/
theorem test_fetch_word :
    (match step (State.reset.withFetchWord 24 0x14002) with
      | .next t => some (t.bankSel, t.pending)
      | _ => none) = some (2#4, []) ∧
    (match step (State.reset.withFetchWord 8 0x80) with
      | .next t => some (t.cpu.error, t.hwctlLock)
      | _ => none) = some (.ioHalt, .locked) ∧
    (match step (State.reset.withFetchWord 32 0x01010001) with
      | .next t => some t.fdcStat
      | _ => none) = some 5#8 := by
  refine ⟨by decide, by decide, by decide⟩

/-! ## Offsets (V40 to V47) -/

theorem test_offsets :
    [(0#8, 1#8), (0#8, 2#8), (0#8, 26#8), (1#8, 1#8), (2#8, 5#8), (76#8, 1#8), (76#8, 26#8)].map
      (fun p => sectorOffset Config.ref p.1 p.2) = [0, 128, 3200, 3328, 7168, 252928, 256128] ∧
    sectorOffset Config.ref 76#8 26#8 + 128 = Config.ref.imgSize := by decide

/-! ## Unbound ports, console, clock, front panel (V1 to V25) -/

theorem test_v1 : after 0x00700#17 State.reset (fun t => t.result) = some (some 0xFF#8) := by decide
theorem test_v5 : after 0x107AA#17 { unlocked State.reset with fdcSeq := .cmdLo } (fun t => (t.fdcSeq, t.hwctlLock, t.result))
    = some (.cmdLo, .unlocked, none) := by decide
theorem test_v11 : after 0x00000#17 { State.reset with conIn := [0x41#8] } (fun t => (t.conIn, t.conLast))
    = some ([0x41#8], 0#8) := by decide
theorem test_v14 : after 0x00100#17 { State.reset with conIn := [0xC1#8, 0x0D#8] } (fun t => (t.result, t.conLast, t.conIn))
    = some (some 0xC1#8, 0xC1#8, [0x0D#8]) := by decide
theorem test_v13 : after 0x00100#17 { State.reset with conLast := 0x41#8 } (fun t => (t.result, t.conIn))
    = some (some 0x41#8, []) := by decide
theorem test_v15 : after 0x101C1#17 { State.reset with conOut := [1#8] } (fun t => t.conOut) = some [1#8, 0x41#8] := by decide
theorem test_v21 : after 0x14103#17 State.reset (fun t => t.signals) = some [.rtcOut .cmd 3#8] ∧
    after 0x14259#17 State.reset (fun t => t.signals) = some [.rtcOut .data 0x59#8] := by decide
theorem test_v22 : after 0x1FF5A#17 State.reset (fun t => t.fpValue) = some 0x5A#8 := by decide
theorem test_v23 : after 0x0FF00#17 { State.reset with fpValue := 0x5A#8 } (fun t => t.result) = some (some 0x5A#8) ∧
    after 0x0FE00#17 { State.reset with fpValue := 0x5A#8 } (fun t => t.result) = some (some 0x5A#8) := by decide
theorem test_v24 : after 0x1FE11#17 { State.reset with fpValue := 0x5A#8 } (fun t => t.fpValue) = some 0x5A#8 := by decide
theorem test_v25 : after 0x1FE11#17 { State.reset with cfg := { Config.ref with fp2Mode := .switches } } (fun t => t.fpValue)
    = some 0x11#8 := by decide

/-! ## The FDC (V30 to V5E) -/

theorem test_v31 : after 0x10410#17 State.reset (fun t => (t.fdcSeq, t.fdcCmdAddr)) = some (.cmdLo, 0#16) := by decide
theorem test_v32 : after 0x10434#17 { State.reset with fdcSeq := .cmdLo } (fun t => (t.fdcCmdAddr, t.fdcSeq))
    = some (0x0034#16, .cmdHi) := by decide
theorem test_v33 : after 0x10412#17 { State.reset with fdcSeq := .cmdHi, fdcCmdAddr := 0x0034#16 }
    (fun t => (t.fdcCmdAddr, t.fdcSeq)) = some (0x1234#16, .idle) := by decide
theorem test_v34 : after 0x104FF#17 { State.reset with fdcSeq := .dmaHi, fdcDmaAddr := 0x0080#16 }
    (fun t => (t.fdcDmaAddr, t.fdcSeq, t.fdcStat)) = some (0xFF80#16, .idle, 0#8) := by decide
theorem test_v36 : after 0x1047F#17 State.reset (fun t => (t.fdcSeq, t.fdcStat)) = some (.idle, 0#8) := by decide
theorem test_v37 : after 0x00400#17 { State.reset with fdcSeq := .dmaLo, fdcStat := 3#8 } (fun t => (t.result, t.fdcSeq))
    = some (some 3#8, .dmaLo) := by decide
theorem test_v38 : after 0x10440#17 { vec 7#8 0#8 0#8 1#8 0x80#16 with fdcStat := 3#8 } (fun t => t.fdcStat)
    = some 3#8 := by decide

/-- V39 with sectors of two bytes: the block wraps at the top of memory, and the sector goes to memory. -/
theorem test_v39 : after 0x10440#17
    { small with fdcCmdAddr := 0xFFFE#16, fdcDmaAddr := 0x0100#16,
                 mem := [(0, 0#8), (1, 1#8), (0xFFFE, 1#8), (0xFFFF, 0#8)] }
    (fun t => (t.fdcStat, t.memRead 0x0100#16, t.memRead 0x0101#16, t.ledRead)) = some (0#8, 0x10#8, 0x11#8, false) := by
  decide

/-- V51 to V56, V59, V5A: the first failing check. -/
theorem test_v51_to_v5a :
    [vec 1#8 0#8 0x4D#8 1#8 0x80#16, vec 1#8 0#8 0#8 0#8 0x80#16, vec 1#8 0#8 0#8 0x1B#8 0x80#16, vec 1#8 4#8 0#8 1#8 0x80#16,
      vec 1#8 0xFF#8 0x4D#8 0#8 0xFFFF#16, vec 1#8 0#8 0x4D#8 0#8 0x80#16, vec 1#8 1#8 0#8 1#8 0x80#16,
      vec 1#8 1#8 0#8 1#8 0xFFFF#16].map (fun s => after 0x10440#17 s fun t => t.fdcStat)
    = [some 2#8, some 3#8, some 3#8, some 1#8, some 1#8, some 2#8, some 5#8, some 4#8] := by decide

/-- V58, and V57's address passing check 4 (the image file is not there, so NO_DISK). -/
theorem test_v58 :
    [vec 2#8 0#8 0#8 1#8 0xFF81#16, vec 2#8 0#8 0#8 1#8 0xFF80#16].map (fun s => after 0x10440#17 s fun t => t.fdcStat)
    = [some 4#8, some 5#8] := by decide

/-- V5C, V5D, V5E: the storage layer's failures. -/
theorem test_v5c_to_v5e :
    afterExec (.fdcblkRead 0#8 0#8 1#8) { small with storage := [.seekFail] } (fun t => (t.fdcStat, t.mem)) = some (6#8, small.mem) ∧
    afterExec (.fdcblkRead 0#8 0#8 1#8) { small with storage := [.short] } (fun t => (t.fdcStat, t.mem)) = some (7#8, small.mem) ∧
    afterExec (.fdcblkWrite 0#8 0#8 1#8) { small with storage := [.short] } (fun t => (t.fdcStat, t.mem)) = some (8#8, small.mem) := by
  refine ⟨by decide, by decide, by decide⟩

/-- The last sector of the image, written from the two bytes at 0x80: the six bytes before it stay. -/
theorem test_write_sector : afterExec (.fdcblkWrite 0#8 1#8 2#8) small (fun t => (t.fdcStat, (t.fileOf pathA).map fun f => f.read 0 8))
    = some (0#8, some [0x10#8, 0x11#8, 0x12#8, 0x13#8, 0x14#8, 0x15#8, 0xEE#8, 0xDD#8]) := by decide

/-- The stuck storage layer. -/
theorem test_stuck_storage :
    (match exec (.fdcblkRead 0#8 0#8 1#8) { small with storageStalled := true } with
      | .fault r => some r
      | _ => none) = some .storageStalled := by decide

/-! ## The MMU (V60 to V66) -/

theorem test_v60 : after 0x04000#17 State.reset (fun t => t.result) = some (some 0x70#8) := by decide
theorem test_v62 : after 0x14007#17 { State.reset with bankSel := 2#4 } (fun t => t.bankSel) = some 7#4 := by decide
theorem test_v63 : after 0x14008#17 { State.reset with bankSel := 2#4 } (fun t => (t.cpu.error, t.cpu.state, t.bankSel))
    = some (.ioError, .stopped, 2#4) := by decide
theorem test_v64 : after 0x14072#17 { State.reset with bankSel := 2#4 } (fun t => (t.cpu.error, t.bankSel))
    = some (.ioError, 2#4) := by decide
theorem test_v68 : after 0x04000#17 { State.reset with cfg := { Config.ref with numSeg := 15#4 }, bankSel := 15#4 }
    (fun t => t.result) = some (some 0xFF#8) := by decide

/-- P2, the map of 20_memory.md R61: below SEGSIZ the selected bank, above it BANK0. -/
theorem test_p2_banks :
    ({ small with mem := [(0x100, 0x11#8), (0xF000, 1#8), (0x20100, 0x22#8)], bankSel := 2#4 } : State).memReadN 0x100#16 1
      ++ ({ small with mem := [(0x100, 0x11#8), (0xF000, 1#8), (0x20100, 0x22#8)], bankSel := 2#4 } : State).memReadN 0xF000#16 1
      ++ ({ small with mem := [(0x100, 0x11#8), (0xF000, 1#8), (0x20100, 0x22#8)] } : State).memReadN 0x100#16 1
    = [0x22#8, 1#8, 0x11#8] := by decide

/-! ## The hardware control port (V70 to V7D) -/

theorem test_v70 : after 0x0A000#17 State.reset (fun t => t.result) = some (some 0xFF#8) := by decide
theorem test_v71 : after 0x1A080#17 State.reset (fun t => (t.hwctlLock, t.cpu.state)) = some (.locked, .running) := by decide
theorem test_v72 : after 0x1A0AA#17 State.reset (fun t => (t.hwctlLock, t.cpu)) = some (.unlocked, State.reset.cpu) ∧
    after 0x0A000#17 (unlocked State.reset) (fun t => (t.result, t.hwctlLock)) = some (some 0#8, .unlocked) := by decide
theorem test_v73 : after 0x1A040#17 { unlocked State.reset with bankSel := 3#4 }
    (fun t => (t.hwctlLock, t.signals, t.bankSel, t.cpu.pc)) = some (.locked, [.cpuReset, .memReset], 0#4, 0xFF00#16) := by
  decide
theorem test_v75 : after 0x1A0C0#17 { small with hwctlLock := .unlocked } (fun t => (t.hwctlLock, t.cpu.error, t.cpu.state, t.cpu.pc))
    = some (.locked, .ioHalt, .stopped, 0x0150#16) := by decide
theorem test_v76 : after 0x1A0AA#17 (unlocked State.reset) (fun t => (t.hwctlLock, t.cpu.error)) = some (.locked, .ioHalt) ∧
    after 0x1A0AA#17 { unlocked State.reset with cfg := { Config.ref with doubleUnlock := .noop } }
      (fun t => (t.hwctlLock, t.cpu.error)) = some (.locked, .none) := by decide
theorem test_v78 : after 0x1A030#17 (unlocked State.reset) (fun t => (t.hwctlLock, t.cpu.model)) = some (.locked, .z80) := by
  decide
theorem test_v79 : after 0x1A010#17 (unlocked State.reset) (fun t => (t.hwctlLock, t.cpu.model)) = some (.locked, .i8080) := by
  decide
theorem test_v7a : after 0x1A00F#17 (unlocked State.reset) (fun t => (t.hwctlLock, t.cpu)) = some (.locked, State.reset.cpu) := by
  decide
theorem test_v7c : after 0x1A010#17 { unlocked State.reset with cfg := { Config.ref with has8080 := false } }
    (fun t => (t.hwctlLock, t.cpu.model)) = some (.locked, .z80) := by decide
theorem test_v7d : after 0x1A040#17 { unlocked State.reset with fdcSeq := .cmdHi, fdcStat := 5#8, fpValue := 0x5A#8 }
    (fun t => (t.fdcSeq, t.fdcStat, t.fpValue)) = some (.cmdHi, 5#8, 0x5A#8) := by decide

/-! ## The host (V90 to V9A) -/

theorem test_v90 : afterEvent (.host (.mount 0 [0x61#8])) { small with disk := [[], []] } (fun t => (t.disk, t.hostResult))
    = some ([pathA, []], some (.mounted true)) := by decide
theorem test_v92 : afterEvent (.host (.mount 1 [0x61#8])) small (fun t => (t.disk, t.hostResult))
    = some ([pathA, []], some (.mounted false)) := by decide
theorem test_v93 : afterEvent (.host (.mount 0 [0x62#8])) small (fun t => (t.disk, t.hostResult))
    = some ([pathA, []], some (.mounted false)) := by decide
theorem test_v95 : afterEvent (.host (.unmount 0)) small (fun t => (t.disk, t.hostResult))
    = some ([[], []], some .unmounted) := by decide
theorem test_v96 : afterEvent (.host .verifyAll) { small with disk := [pathA, [0x58#8]] } (fun t => (t.disk, t.hostResult))
    = some ([pathA, []], some (.verified 1)) := by decide

/-- V98 with sectors of two bytes. -/
theorem test_v98 : afterEvent (.host (.loadImage [0x61#8])) small (fun t => (t.memReadN 0#16 5, t.hostResult))
    = some ([0xA1#8, 0xA2#8, 0xA3#8, 0xA4#8, 0#8], some (.loaded .stoppedZero)) := by decide
theorem test_v9a : afterEvent (.host (.loadImage [0x62#8])) small (fun t => (t.mem, t.hostResult))
    = some (small.mem, some (.loaded .openFailed)) := by decide

/-- The break (20_memory.md R78), and V26: the record's front-panel byte after power-on. -/
theorem test_break_and_v26 :
    afterEvent (.env .breakSignal) small (fun t => t.stopReq) = some true ∧
    afterEvent (.env .powerOn) { small with record := some ([0#8, 0#8, 0xA5#8] ++ List.replicate 16 0#8) }
      (fun t => (t.fpValue, t.disk, t.hwctlLock)) = some (0xA5#8, [[], []], .locked) := by decide

/-! ## Witnesses: for each statement with hypotheses, values that meet them together -/

theorem ref_valid : Config.ref.Valid := by constructor <;> decide

theorem tiny_valid : tiny.Valid := by constructor <;> decide

theorem witness_DecodeUndoesEncode :
    Config.ref.Valid ∧ (Instr.outMmuBankExists 7#8).wf Config.ref = true := ⟨ref_valid, by decide⟩

theorem witness_DispatchByDirectionAndPort :
    ((0x04000#17).getLsbD 16 = false ∧ (0x040FF#17).extractLsb' 8 9 = (0x04000#17).extractLsb' 8 9) ∧
    (0xA0#8 ≠ Config.ref.pMmu ∧ (0x1A0C0#17).getLsbD 16 = true ∧ (0x1A0C0#17).extractLsb' 8 8 = 0xA0#8) ∧
    ((0x14007#17).getLsbD 16 = true ∧ (0x14007#17).extractLsb' 8 8 = Config.ref.pMmu) ∧
    Config.ref.boundIn 2#8 = false ∧ Config.ref.boundOut 0#8 = false ∧ FdcSeq.cmdLo ≠ FdcSeq.idle := by decide

theorem witness_StepRunsNextEvent :
    ({ small with pending := [.transaction 0x04000#17] } : State).pending = .transaction 0x04000#17 :: [] ∧
    small.pending = [] ∧ ({ small with pending := [.host .saveRecord] } : State).pending = .host .saveRecord :: [] ∧
    ({ small with pending := [.env .powerOn] } : State).pending = .env .powerOn :: [] := ⟨rfl, rfl, rfl, rfl⟩

theorem witness_EveryHandlerTerminates :
    small.storageStalled = false ∧ (Instr.inMmu ≠ .fdcExec ∧ (∀ v, Instr.inMmu ≠ .outFdcCmd v) ∧
      (∀ d t n, Instr.inMmu ≠ .fdcblkRead d t n) ∧ ∀ d t n, Instr.inMmu ≠ .fdcblkWrite d t n) ∧
    ∃ t, exec (.outDefault 7#8 0x55#8) small = .next t := ⟨rfl, by simp, _, rfl⟩

theorem witness_UnboundInReturnsIdle :
    (0x007FF#17).getLsbD 16 = false ∧ Config.ref.boundIn ((0x007FF#17).extractLsb' 8 8) = false := by decide

theorem witness_UnboundOutChangesNothing :
    (0x10012#17).getLsbD 16 = true ∧ Config.ref.boundOut ((0x10012#17).extractLsb' 8 8) = false := by decide

theorem witness_ConsoleReadTakesOldestByte :
    ({ small with conIn := [0xC1#8, 0x0D#8] } : State).conIn = 0xC1#8 :: [0x0D#8] ∧ small.conIn = [] := ⟨rfl, rfl⟩

theorem witness_SecondFrontPanelByMode :
    ({ small with cfg := { tiny with fp2Mode := .switches } } : State).cfg.fp2Mode = .switches ∧ small.cfg.fp2Mode = .mirrorRo := ⟨rfl, rfl⟩

theorem witness_FrontPanelReadAndWrite :
    small.cfg.Valid := tiny_valid

theorem witness_MmuWriteSelectsBank :
    small.cfg.Valid ∧ (7#8).toNat ≤ small.cfg.numSeg.toNat ∧ (0#8).toNat ≤ small.cfg.numSeg.toNat ∧ (0#8 : Byte) = 0#8 := ⟨tiny_valid, by decide, by decide, rfl⟩

theorem witness_MmuBadBankStopsCpu :
    small.cfg.numSeg.toNat < (8#8).toNat := by decide

theorem witness_OnlyMmuAndResetWriteBank :
    ∃ t, exec (.outMmuBankExists 7#8) small = .next t ∧ t.bankSel ≠ small.bankSel := ⟨_, rfl, by decide⟩

theorem witness_CommandPortCompletes :
    small.cfg.Valid ∧ small.fdcSeq = .idle ∧ small.cfg.isFdcOp 0x41#8 = false ∧ small.storageStalled = false ∧
    ({ small with fdcSeq := .cmdHi } : State).fdcSeq ≠ .idle ∧ ({ small with fdcSeq := .dmaLo } : State).fdcSeq ≠ .idle :=
  ⟨tiny_valid, rfl, by decide, rfl, by decide, by decide⟩

theorem witness_ThreeBytesLoadAddress :
    small.cfg.Valid ∧ small.fdcSeq = .idle := ⟨tiny_valid, rfl⟩

theorem witness_TwoStrayBytesForceIdle :
    small.cfg.isFdcOp 0#8 = false := by decide

theorem witness_FetchWrapsAndOtherKindIgnored :
    ({ small with fdcCmdAddr := 0xFFFF#16 } : State).fdcCmdAddr = 0xFFFF#16 ∧
    small.fetchBlock.kind ≠ small.cfg.kindRead ∧ small.fetchBlock.kind ≠ small.cfg.kindWrite := by decide

/-- Each arm of `FirstFailingCheckWins` at its boundary: the first bad drive, track, sector (0 and SPT_MAX + 1) and DMA
address, an empty slot, and the last good request. -/
theorem witness_FirstFailingCheckWins :
    small.cfg.Valid ∧ small.cfg.numDrives ≤ (2#8).toNat ∧ small.cfg.trkMax.toNat < (2#8).toNat ∧ (0#8).toNat = 0 ∧
    small.cfg.sptMax.toNat < (3#8).toNat ∧ memSize < (0xFFFF#16).toNat + small.cfg.secSz ∧ small.slot (1#8).toNat = [] ∧
    Admitted { small with fdcDmaAddr := 0xFFFE#16 } 0#8 1#8 2#8 :=
  ⟨tiny_valid, by decide, by decide, by decide, by decide, by decide, by decide,
    ⟨by decide, by decide, by decide, by decide, by decide, by decide⟩⟩

/-- The first sector and the last one of drive 0 are admitted and lie in the image. -/
theorem small_admitted : Admitted small 0#8 0#8 1#8 ∧ Admitted small 0#8 1#8 2#8 :=
  ⟨⟨by decide, by decide, by decide, by decide, by decide, by decide⟩,
    ⟨by decide, by decide, by decide, by decide, by decide, by decide⟩⟩

theorem small_in_file : SectorInFile small 0#8 0#8 1#8 imageA ∧ SectorInFile small 0#8 1#8 2#8 imageA :=
  ⟨⟨by decide, by decide⟩, ⟨by decide, by decide⟩⟩

theorem witness_SectorReadCopiesImageToMemory :
    small.cfg.Valid ∧ Admitted small 0#8 1#8 2#8 ∧ SectorInFile small 0#8 1#8 2#8 imageA ∧ small.storageStalled = false ∧
    small.nextOutcome = .ok ∧ OutsideDma small small.fdcDmaAddr 0x82 :=
  ⟨tiny_valid, small_admitted.2, small_in_file.2, rfl, rfl, by unfold OutsideDma; decide⟩

/-- Each clause of `FailedReadLeavesMemory`: no file, the three failures, and a short image (its last byte missing). -/
theorem witness_FailedReadLeavesMemory :
    small.cfg.Valid ∧ Admitted small 0#8 1#8 2#8 ∧ small.storageStalled = false ∧
    ({ small with fs := [] } : State).fileOf (small.slot 0) = none ∧ small.fileOf (small.slot 0) = some imageA ∧
    ({ small with storage := [.openFail] } : State).nextOutcome = .openFail ∧
    ({ small with storage := [.seekFail] } : State).nextOutcome = .seekFail ∧
    ({ small with storage := [.short] } : State).nextOutcome = .short ∧
    (small.nextOutcome = .ok ∧ (File.ofBytes [1#8, 2#8, 3#8, 4#8, 5#8, 6#8, 7#8]).size < sectorOffset small.cfg 1#8 2#8 + small.cfg.secSz) :=
  ⟨tiny_valid, small_admitted.2, rfl, rfl, by decide, rfl, rfl, rfl, rfl, by decide⟩

theorem witness_SectorWriteCopiesMemoryToImage :
    small.cfg.Valid ∧ Admitted small 0#8 1#8 2#8 ∧ SectorInFile small 0#8 1#8 2#8 imageA ∧ small.storageStalled = false ∧
    small.nextOutcome = .ok :=
  ⟨tiny_valid, small_admitted.2, small_in_file.2, rfl, rfl⟩

theorem witness_FailedWriteSparesOtherSectors :
    small.cfg.Valid ∧ Admitted small 0#8 0#8 1#8 ∧ small.storageStalled = false ∧
    ({ small with fs := [] } : State).fileOf (small.slot 0) = none ∧ small.fileOf (small.slot 0) = some imageA ∧
    ({ small with storage := [.openFail] } : State).nextOutcome = .openFail ∧
    ({ small with storage := [.seekFail] } : State).nextOutcome = .seekFail ∧
    ({ small with storage := [.short] } : State).nextOutcome = .short ∧ 7 < imageA.size ∧
    sectorOffset small.cfg 0#8 1#8 + small.cfg.secSz ≤ imageA.size :=
  ⟨tiny_valid, small_admitted.1, rfl, rfl, by decide, rfl, rfl, rfl, by decide, by decide⟩

theorem witness_StuckStorageHangsMachine :
    ({ small with storageStalled := true } : State).cfg.Valid ∧ ({ small with storageStalled := true } : State).storageStalled = true ∧
    Admitted { small with storageStalled := true } 0#8 1#8 2#8 :=
  ⟨tiny_valid, rfl, ⟨by decide, by decide, by decide, by decide, by decide, by decide⟩⟩

theorem witness_ExecStoresOneCode :
    small.storageStalled = false ∧
    ({ small with mem := [(0, 1#8)] } : State).fetchBlock.kind = small.cfg.kindRead ∧
    ({ small with mem := [(0, 2#8)] } : State).fetchBlock.kind = small.cfg.kindWrite ∧ small.cfg.kindWrite ≠ small.cfg.kindRead := by
  decide

/-- Write the first sector from 0x80, move the DMA address, select another bank, and read it back. -/
theorem witness_SectorRoundTrip :
    small.cfg.Valid ∧ SectorInFile small 0#8 0#8 1#8 imageA ∧
    ∃ u v w, exec (.fdcblkWrite 0#8 0#8 1#8) small = .next u ∧ u.fdcStat = small.cfg.stOk ∧
      v = { u with fdcDmaAddr := 0xFFFE#16, bankSel := 7#4 } ∧
      v.cfg = u.cfg ∧ v.slot (0#8).toNat = u.slot (0#8).toNat ∧
      v.fileOf (u.slot (0#8).toNat) = u.fileOf (u.slot (0#8).toNat) ∧
      exec (.fdcblkRead 0#8 0#8 1#8) v = .next w ∧ w.fdcStat = small.cfg.stOk := by
  refine ⟨tiny_valid, small_in_file.1, _, _, _, rfl, rfl, rfl, rfl, rfl, rfl, rfl, rfl⟩

/-- Two sectors of one track, the last of one track before the first of the next, and the last sector of a disk of 256
tracks, after which there is none. -/
theorem witness_DistinctSectorsDoNotOverlap :
    (({ tiny with trkMax := 255#8 } : Config).Valid ∧ (255#8).toNat ≤ ({ tiny with trkMax := 255#8 } : Config).trkMax.toNat) ∧
    tiny.Valid ∧ (1#8).toNat ≤ tiny.trkMax.toNat ∧ 1 ≤ (1#8).toNat ∧ (2#8).toNat ≤ tiny.sptMax.toNat ∧
    ((0#8).toNat < (1#8).toNat ∨ (0#8 : Byte) = 1#8 ∧ (2#8).toNat < (1#8).toNat) ∧
    ((1#8).toNat < (1#8).toNat ∨ (1#8 : Byte) = 1#8 ∧ (1#8).toNat < (2#8).toNat) :=
  ⟨⟨by constructor <;> decide, by decide⟩, tiny_valid, by decide, by decide, by decide, by decide, by decide⟩

theorem witness_FdcTouchesOnlyItsOwn :
    (∃ u, exec (.outFdcCmd 0x40#8) { small with mem := [(0, 2#8), (3, 1#8)] } = .next u ∧ u.fdcStat = 0#8) ∧
    OutsideDma small small.fdcDmaAddr 0x7F ∧ OutsideDma small small.fdcDmaAddr 0x82 ∧ codeA ≠ small.slot 0 :=
  ⟨⟨_, rfl, rfl⟩, by unfold OutsideDma; decide, by unfold OutsideDma; decide, by decide⟩

theorem witness_LockedPortIgnoresBytes :
    small.cfg.Valid ∧ small.hwctlLock = .locked ∧ (0x80#8 : Byte) ≠ 0xAA#8 :=
  ⟨tiny_valid, rfl, by decide⟩

theorem witness_KeyUnlocks : small.cfg.Valid ∧ small.hwctlLock = .locked := ⟨tiny_valid, rfl⟩

/-- For `HaltCommandStopsCpu`, `ResetCommandBootsCpu`, `ModelSwitchNeedsBothModels`, `NopCommandSpendsUnlock` and
`SecondKeyByteByParameter`. -/
theorem witness_HaltCommandStopsCpu : (unlocked small).hwctlLock = .unlocked ∧ (0#7 : BitVec 7) ≠ 0x2A#7 := by decide

theorem witness_ResetCommandBootsCpu : (unlocked small).hwctlLock = .unlocked := rfl

theorem witness_ModelSwitchNeedsBothModels :
    (unlocked small).hwctlLock = .unlocked ∧ (small.cfg.hasZ80 = true ∧ small.cfg.has8080 = true) ∧
    (unlocked { small with cfg := { small.cfg with has8080 := false } }).hwctlLock = .unlocked := by decide

theorem witness_NopCommandSpendsUnlock : (unlocked small).hwctlLock = .unlocked := rfl

theorem witness_SecondKeyByteByParameter :
    (unlocked small).hwctlLock = .unlocked ∧
    (unlocked { small with cfg := { small.cfg with doubleUnlock := .noop } }).hwctlLock = .unlocked := by decide

theorem witness_PortReadsHaveNoSideEffect :
    exec .inMmu small = .next { small with result := some small.mmuByte } := rfl

theorem witness_OneCommandPerUnlock :
    (∃ t, exec (.outHwctl 0x80#8) small = .next t) ∧ small.hwctlLock = .locked ∧
    (∃ t, exec (.outHwctl 0x80#8) (unlocked small) = .next t) ∧ (unlocked small).hwctlLock = .unlocked ∧
    (∀ v, decode Config.ref (.io 0x04000#17) ≠ .outHwctl v) ∧ ∃ t, exec (decode Config.ref (.io 0x04000#17)) small = .next t := by
  have h : decode Config.ref (.io 0x04000#17) = .inMmu := by decide
  rw [h]
  exact ⟨⟨_, rfl⟩, rfl, ⟨_, rfl⟩, rfl, by simp, ⟨_, rfl⟩⟩

/-- A transaction of each kind that changes the CPU interface: the bad bank, a halt, a reset, a model switch. -/
theorem witness_OnlyTwoHaltCauses :
    after 0x14008#17 small (fun t => decide (t.cpu = small.cpu)) = some false ∧
    after 0x1A080#17 (unlocked small) (fun t => decide (t.cpu = small.cpu)) = some false ∧
    after 0x1A040#17 (unlocked small) (fun t => decide (t.cpu.pc = small.cpu.pc)) = some false ∧
    after 0x1A010#17 (unlocked small) (fun t => decide (t.cpu = small.cpu)) = some false := by decide

/-- The path is free and opens; is held by another drive; does not open. -/
theorem witness_MountGuardsAndStores :
    1 < small.cfg.numDrives ∧ small.disk.length = small.cfg.numDrives ∧ canonicalPath small.cfg [0x61#8] ≠ [] ∧
    (canonicalPath small.cfg [0x61#8]).length ≤ small.cfg.pathLen ∧ small.storageStalled = false ∧
    (∃ d' < small.cfg.numDrives, d' ≠ 1 ∧ small.slot d' = canonicalPath small.cfg [0x61#8]) ∧
    (∀ d' < small.cfg.numDrives, d' ≠ 0 → small.slot d' ≠ canonicalPath small.cfg [0x61#8]) ∧
    small.opens (canonicalPath small.cfg [0x61#8]) = true ∧
    (∀ d' < small.cfg.numDrives, d' ≠ 0 → small.slot d' ≠ canonicalPath small.cfg [0x62#8]) ∧
    small.opens (canonicalPath small.cfg [0x62#8]) = false := by decide

theorem witness_UnmountEmptiesSlot : 1 < small.cfg.numDrives := by decide

theorem witness_VerifyDropsDanglingMounts :
    small.storageStalled = false ∧ (∀ o ∈ small.storage, o = .ok) ∧ small.disk.length ≤ small.storage.length := by decide

/-- The code file of four bytes: two chunks, and the zero-length read. -/
theorem witness_BulkLoadFillsMemoryFromZero :
    small.cfg.Valid ∧ small.storageStalled = false ∧
    small.fileOf (codePath small.cfg [0x61#8]) = some (File.ofBytes [0xA1#8, 0xA2#8, 0xA3#8, 0xA4#8]) ∧
    (File.ofBytes [0xA1#8, 0xA2#8, 0xA3#8, 0xA4#8]).size = 2 * small.cfg.secSz ∧
    (File.ofBytes [0xA1#8, 0xA2#8, 0xA3#8, 0xA4#8]).size ≤ memSize ∧ (∀ o ∈ small.storage, o = .ok) ∧
    2 + 2 ≤ small.storage.length ∧ ∀ i < 4, 4 ≠ small.phys (BitVec.ofNat 16 i) :=
  ⟨tiny_valid, rfl, by decide, by decide, by decide, by decide, by decide, by decide⟩

theorem witness_RecordRoundTrip :
    small.cfg.Valid ∧ ({ small with fpValue := 1#8 } : State).cfg = small.cfg ∧ small.disk.length = small.cfg.numDrives ∧
    (∀ p ∈ small.disk, p.length ≤ small.cfg.pathLen ∧ 0#8 ∉ p) ∧ small.cpu.speed.length = small.cfg.speedW :=
  ⟨tiny_valid, rfl, by decide, by decide, by decide⟩

theorem witness_HostCannotReachBlockRegisters : ∃ t, runHost (.mount 1 [0x62#8]) small = .next t ∧ t.disk = small.disk :=
  ⟨_, rfl, rfl⟩

theorem witness_InstructionsNeverWriteSlots : ∃ t, exec (.fdcblkWrite 0#8 1#8 2#8) small = .next t ∧ t.fdcStat = 0#8 :=
  ⟨_, rfl, rfl⟩

theorem witness_BreakSetsOnlyStopReq :
    ({ small with pending := [.env .breakSignal] } : State).pending = .env .breakSignal :: [] := rfl

theorem witness_ResetValues : small.record = none := rfl

/-- The saved record of a state with a mounted drive and an empty one, under a storage layer that answers and under one
that never does. -/
theorem witness_PowerOnLoadsRecord :
    small.cfg.Valid ∧ ({ small with record := some small.recordBytes } : State).record = some small.recordBytes ∧
    small.recordBytes.length = small.cfg.recordSize ∧
    recordField small.recordBytes 0 small.cfg.modelW = small.cfg.selZ80 ∧
    recordField ({ small with cpu := { small.cpu with model := .i8080 } } : State).recordBytes 0 small.cfg.modelW
      = small.cfg.selI8080 ∧
    small.storageStalled = false ∧ ({ small with storageStalled := true } : State).storageStalled = true ∧
    (∀ o ∈ small.storage, o = .ok) ∧ small.cfg.numDrives ≤ small.storage.length ∧
    small.fileOf (recordPath small.cfg small.recordBytes 0) ≠ none ∧
    recordPath small.cfg small.recordBytes 0 ≠ [] ∧ small.fileOf (recordPath small.cfg small.recordBytes 1) = none :=
  ⟨tiny_valid, rfl, by decide, by decide, by decide, rfl, rfl, by decide, by decide, by decide, by decide, by decide⟩

/-- A read error in the loader's second read: the first chunk is in memory and the load stops there (R225). -/
theorem test_load_stops_at_failed_read :
    afterEvent (.host (.loadImage [0x61#8])) { small with storage := [.ok, .ok, .seekFail] }
      (fun t => (t.hostResult, t.memRead 0#16, t.memRead 1#16, t.fdcStat, t.secBuf.length))
    = some (some (.loaded .stoppedZero), 0xA1#8, 0xA2#8, small.fdcStat, small.cfg.secSz) := by decide

theorem small_inv : Inv small where
  valid := tiny_valid
  bank := by decide
  stat := by decide
  slots := by decide
  paths := by decide
  secBuf := by decide
  leds := by decide
  mem := ⟨by decide, by decide⟩
  files := ⟨by decide, by decide⟩

/-- The invariant holds of a state with a mounted drive, and a step from it exists. -/
theorem witness_StepKeepsInvariant :
    Inv { small with pending := [.transaction 0x14002#17] } ∧
    ∃ t, step { small with pending := [.transaction 0x14002#17] } = .next t :=
  ⟨⟨small_inv.valid, small_inv.bank, small_inv.stat, small_inv.slots, small_inv.paths, small_inv.secBuf, small_inv.leds,
    small_inv.mem, small_inv.files⟩, _, rfl⟩

/-- Two different images mounted, and a mount to come. -/
def twoMounted : State := { small with disk := [pathA, codeA], pending := [.host (.mount 1 [0x62#8])] }

theorem witness_StepKeepsSlotsDistinct :
    SlotsDistinct twoMounted ∧ twoMounted.pending.head? ≠ some (.env .powerOn) ∧ ∃ t, step twoMounted = .next t := by
  have h : ∀ d < 2, ∀ d' < 2, d ≠ d' → twoMounted.slot d ≠ [] → twoMounted.slot d ≠ twoMounted.slot d' := by decide
  exact ⟨fun d d' hd hd' => h d hd d' hd', by decide, _, rfl⟩

end Sys2Proof.Machine.Tests
end

section
/-! The step, one equation per kind of event at the head of the pending list (00_scope.md R14, log 3). -/

namespace Sys2Proof.Machine

variable {s : State} {rest : List Event}

/-- The fetch is the decoder under the configuration of the state it reads, and nothing else of that state. -/
theorem fetchInstr_eq_decode (s : State) (w : BitVec 17) : fetchInstr s w = decode s.cfg (.io w) := rfl

theorem step_of_pending_nil (h : s.pending = []) : step s = .next s := by
  simp only [step, h]

theorem step_of_pending_transaction {w : BitVec 17} (h : s.pending = .transaction w :: rest) :
    step s = exec (fetchInstr s w) { s with pending := rest } := by
  simp only [step, h]

theorem step_of_pending_host {op : HostOp} (h : s.pending = .host op :: rest) :
    step s = runHost op { s with pending := rest } := by
  simp only [step, h]

theorem step_of_pending_env {e : EnvEvent} (h : s.pending = .env e :: rest) :
    step s = runEnv e { s with pending := rest } := by
  simp only [step, h]

end Sys2Proof.Machine
end

section

namespace Sys2Proof.Machine

/-- Settles O5: the step's equation for each kind of head event, with the fetched instruction read by the decoder. -/
theorem stepRunsNextEvent : Obligations.StepRunsNextEvent := by
  refine ⟨fun s w rest h => ?transaction, fun s h => step_of_pending_nil h,
    fun s op rest h => step_of_pending_host h, fun s e rest h => step_of_pending_env h⟩
  case transaction =>
    rw [step_of_pending_transaction h, fetchInstr_eq_decode]

end Sys2Proof.Machine
end

section
/-! What an instruction can do, said once for all 36 rows: which fields it leaves alone, and how it can move a field that
the machine's invariant speaks of. -/

namespace Sys2Proof.Machine

/-- Every next state that `r` answers meets `P`; a fault or a refusal answers none. -/
def NextMeets (P : State → Prop) (r : Result) : Prop := ∀ t, r = .next t → P t

theorem NextMeets.next {P : State → Prop} {t : State} (h : P t) : NextMeets P (.next t) := by
  rintro _ ⟨⟩
  exact h

theorem NextMeets.fault {P : State → Prop} {e : Fault} : NextMeets P (.fault e) := by
  simp [NextMeets]

theorem NextMeets.refused {P : State → Prop} {e : Refusal} : NextMeets P (.refused e) := by
  simp [NextMeets]

theorem NextMeets.ite {P : State → Prop} {c : Prop} [Decidable c] {r r' : Result}
    (h : c → NextMeets P r) (h' : ¬ c → NextMeets P r') : NextMeets P (if c then r else r') := by
  split_ifs with hc
  · exact h hc
  · exact h' hc

/-- What an instruction that takes `s` to `t` can do. -/
structure InstrEffect (s t : State) : Prop where
  cfg : t.cfg = s.cfg
  disk : t.disk = s.disk
  stopReq : t.stopReq = s.stopReq
  record : t.record = s.record
  pending : t.pending = s.pending
  hostResult : t.hostResult = s.hostResult
  bank : t.bankSel = s.bankSel ∨ t.bankSel.toNat ≤ s.cfg.numSeg.toNat
  stat : t.fdcStat = s.fdcStat ∨ t.fdcStat ∈ s.cfg.statusBytes
  secBuf : t.secBuf = s.secBuf ∨ t.secBuf.length = s.cfg.secSz
  ledRead : t.ledRead = s.ledRead ∨ t.ledRead = false
  ledWrite : t.ledWrite = s.ledWrite ∨ t.ledWrite = false
  mem : Memory.wf s → Memory.wf t
  files : Fs.Wf s.fs → Fs.Wf t.fs

/-- Where the fields of the effect are those of `s` by computation, `{ InstrEffect.refl s with }` is the effect. -/
theorem InstrEffect.refl (s : State) : InstrEffect s s :=
  ⟨rfl, rfl, rfl, rfl, rfl, rfl, .inl rfl, .inl rfl, .inl rfl, .inl rfl, .inl rfl, id, id⟩

/-- An instruction keeps the machine's invariant. -/
theorem InstrEffect.inv {s t : State} (e : InstrEffect s t) (h : Inv s) : Inv t where
  valid := e.cfg ▸ h.valid
  bank := by
    rw [e.cfg]
    rcases e.bank with hb | hb
    · exact hb ▸ h.bank
    · exact hb
  stat := by
    rw [e.cfg]
    rcases e.stat with hs | hs
    · exact hs ▸ h.stat
    · exact hs
  slots := by rw [e.disk, e.cfg]; exact h.slots
  paths := by rw [e.disk, e.cfg]; exact h.paths
  secBuf := by
    rw [e.cfg]
    rcases e.secBuf with hb | hb
    · exact hb ▸ h.secBuf
    · exact hb
  leds := ⟨e.ledRead.elim (·.trans h.leds.1) id, e.ledWrite.elim (·.trans h.leds.2) id⟩
  mem := e.mem h.mem
  files := e.files h.files

/-! ## The FDC -/

theorem State.readSector_effect {s u : State} {d t n : Byte} {addr : Addr} {code : StatusCode}
    (h : s.readSector d t n addr = .ok (code, u)) : InstrEffect s u := by
  rcases State.readSector_cases h with ⟨-, rfl⟩ | ⟨-, -, -, hu, hbuf, -, hwf⟩
  · exact InstrEffect.refl u
  · rw [hu] at hbuf hwf ⊢
    exact { InstrEffect.refl s with secBuf := hbuf, ledRead := .inr rfl, mem := hwf }

theorem State.writeSector_effect {s u : State} {d t n : Byte} {addr : Addr} {code : StatusCode}
    (h : s.writeSector d t n addr = .ok (code, u)) : InstrEffect s u := by
  rcases State.writeSector_cases h with ⟨-, rfl⟩ | ⟨-, -, -, hu, hbuf, -, hwf⟩
  · exact InstrEffect.refl u
  · rw [hu] at hbuf hwf ⊢
    exact { InstrEffect.refl s with secBuf := hbuf, ledWrite := .inr rfl, files := hwf }

/-- Storing the code of a sector operation adds to its effect only that FDC_STAT is one of the nine (41_fdc.md R154). -/
theorem State.finishSector_effect {s : State} {r : Except Fault (StatusCode × State)}
    (h : ∀ code u, r = .ok (code, u) → InstrEffect s u) : NextMeets (InstrEffect s) (State.finishSector r) := by
  intro t ht
  obtain ⟨code, u, hr, rfl⟩ := State.finishSector_next ht
  have e := h code u hr
  exact { e with stat := .inr (e.cfg ▸ statusByte_mem u.cfg code) }

theorem execFdcblkRead_effect (d t n : Byte) (s : State) : NextMeets (InstrEffect s) (execFdcblkRead d t n s) :=
  State.finishSector_effect fun _ _ => State.readSector_effect

theorem execFdcblkWrite_effect (d t n : Byte) (s : State) : NextMeets (InstrEffect s) (execFdcblkWrite d t n s) :=
  State.finishSector_effect fun _ _ => State.writeSector_effect

theorem execFdcblkOther_effect (k d t n : Byte) (s : State) : NextMeets (InstrEffect s) (execFdcblkOther k d t n s) :=
  .next { InstrEffect.refl s with }

/-- FDC_CMDBUF is a register that no clause of the effect speaks of. -/
theorem NextMeets.effect_of_cmdBuf {s : State} {b : CmdBlock} {r : Result}
    (h : NextMeets (InstrEffect { s with fdcCmdBuf := b }) r) : NextMeets (InstrEffect s) r :=
  fun t ht => { h t ht with }

theorem execFdcExec_effect (s : State) : NextMeets (InstrEffect s) (execFdcExec s) :=
  .ite (fun _ => .effect_of_cmdBuf (execFdcblkRead_effect _ _ _ _)) fun _ =>
    .ite (fun _ => .effect_of_cmdBuf (execFdcblkWrite_effect _ _ _ _)) fun _ =>
      .effect_of_cmdBuf (execFdcblkOther_effect _ _ _ _ _)

theorem execFdcAddrbyte_effect (b : Byte) (s : State) : NextMeets (InstrEffect s) (execFdcAddrbyte b s) := by
  unfold execFdcAddrbyte
  split <;> exact .next { InstrEffect.refl s with }

theorem execOutFdcCmd_effect (v : Byte) (s : State) : NextMeets (InstrEffect s) (execOutFdcCmd v s) := by
  unfold execOutFdcCmd
  split
  · exact .ite (fun _ => .next { InstrEffect.refl s with }) fun _ =>
      .ite (fun _ => .next { InstrEffect.refl s with }) fun _ =>
        .ite (fun _ => execFdcExec_effect s) fun _ => .next { InstrEffect.refl s with }
  all_goals exact execFdcAddrbyte_effect v s

/-! ## The hardware control port -/

/-- HW.RESET empties memory into a fresh epoch and clears the bank selector or keeps it (43_hwctl.md R205). -/
theorem State.hwReset_effect (s : State) : InstrEffect s s.hwReset := by
  rw [State.hwReset_eq]
  refine { InstrEffect.refl s with bank := ?_, mem := fun _ => State.memReset_wf s }
  by_cases hc : s.cfg.resetClearsBank
  · exact .inr (by simp [hc])
  · exact .inl (if_neg hc)

theorem execHwReset_effect (low : BitVec 6) (s : State) : NextMeets (InstrEffect s) (execHwReset low s) :=
  .next { State.hwReset_effect s.relock with }

theorem State.switchIfBoth_effect (s : State) (m : CpuModel) : InstrEffect s (s.relock.switchIfBoth m) := by
  unfold State.switchIfBoth
  split_ifs <;> exact { InstrEffect.refl s with }

theorem execHwKeybyte_effect (s : State) : NextMeets (InstrEffect s) (execHwKeybyte s) := by
  unfold execHwKeybyte
  split <;> exact .next { InstrEffect.refl s with }

theorem execOutHwctl_effect (v : Byte) (s : State) : NextMeets (InstrEffect s) (execOutHwctl v s) := by
  unfold execOutHwctl
  split
  · exact .ite (fun _ => .next { InstrEffect.refl s with }) fun _ => .next { InstrEffect.refl s with }
  · exact .ite (fun _ => execHwKeybyte_effect s) fun _ =>
      .ite (fun _ => .next { InstrEffect.refl s with }) fun _ =>
        .ite (fun _ => execHwReset_effect _ s) fun _ =>
          .ite (fun _ => .next (State.switchIfBoth_effect s _)) fun _ =>
            .ite (fun _ => .next (State.switchIfBoth_effect s _)) fun _ => .next { InstrEffect.refl s with }

/-! ## The other ports that choose -/

theorem execInConData_effect (s : State) : NextMeets (InstrEffect s) (execInConData s) := by
  unfold execInConData State.conTake
  split <;> exact .next { InstrEffect.refl s with }

/-- A bank that the compare with NUMSEG lets pass is selected whole (42_mmu.md R191). -/
theorem execOutMmuBankExists_effect (v : Byte) (s : State) :
    NextMeets (InstrEffect s) (execOutMmuBankExists v s) := by
  refine .ite (fun hv => .next { InstrEffect.refl s with bank := .inr ?_ }) fun _ => .next { InstrEffect.refl s with }
  have hle : v.toNat ≤ s.cfg.numSeg.toNat := by simpa [Config.hasBank] using hv
  exact (BitVec.toNat_setWidth 4 v ▸ Nat.mod_le _ _).trans hle

theorem execOutMmuNoSuchBank_effect (v : Byte) (s : State) :
    NextMeets (InstrEffect s) (execOutMmuNoSuchBank v s) :=
  .ite (fun _ => .next { InstrEffect.refl s with }) fun _ => .next { InstrEffect.refl s with }

theorem execOutFp2_effect (v : Byte) (s : State) : NextMeets (InstrEffect s) (execOutFp2 v s) := by
  unfold execOutFp2
  split <;> exact .next { InstrEffect.refl s with }

/-! ## All rows -/

/-- The effect of every instruction: the last case holds the rows that write registers no clause speaks of. -/
theorem exec_effect (i : Instr) (s : State) : NextMeets (InstrEffect s) (exec i s) := by
  cases i
  case inConData => exact execInConData_effect s
  case outFdcCmd v => exact execOutFdcCmd_effect v s
  case outMmuBankExists v => exact execOutMmuBankExists_effect v s
  case outMmuNoSuchBank v => exact execOutMmuNoSuchBank_effect v s
  case outHwctl v => exact execOutHwctl_effect v s
  case outFp2 v => exact execOutFp2_effect v s
  case fdcExec => exact execFdcExec_effect s
  case fdcAddrbyte b => exact execFdcAddrbyte_effect b s
  case hwKeybyte => exact execHwKeybyte_effect s
  case hwReset low => exact execHwReset_effect low s
  case hwZ80 | hwI8080 => exact .next (State.switchIfBoth_effect s _)
  case fdcblkRead d t n => exact execFdcblkRead_effect d t n s
  case fdcblkWrite d t n => exact execFdcblkWrite_effect d t n s
  all_goals exact .next { InstrEffect.refl s with }

end Sys2Proof.Machine
end

section
/-! The host's operations and the outside events keep the machine's invariant. Where an update writes no field that `Inv`
speaks of, `{ h with }` is the invariant of the new state. -/

namespace Sys2Proof.Machine

variable {s : State}

theorem Inv.outcomeTaken (h : Inv s) : Inv s.outcomeTaken := by
  rw [State.outcomeTaken_eq]
  exact { h with }

theorem Inv.hostAnswer (h : Inv s) (r : HostResult) : Inv (s.hostAnswer r) := { h with }

/-- `Inv` asks of the slots their number and the length of each path. -/
theorem Inv.withDisk {ps : List Path} (h : Inv s) (hslots : ps.length = s.cfg.numDrives)
    (hpaths : ∀ p ∈ ps, p.length ≤ s.cfg.pathLen) : Inv { s with disk := ps } :=
  { h with slots := hslots, paths := hpaths }

theorem Inv.setSlot {p : Path} (h : Inv s) (d : Nat) (hp : p.length ≤ s.cfg.pathLen) :
    Inv { s with disk := s.disk.set d p } := by
  refine h.withDisk (by rw [List.length_set, h.slots]) fun q hq => ?_
  rcases List.mem_or_eq_of_mem_set hq with hq | rfl
  · exact h.paths q hq
  · exact hp

/-! ## The host's operations -/

theorem hostMount_keeps_inv (h : Inv s) (d : Nat) (name : Path) : NextMeets Inv (hostMount d name s) := by
  refine .ite (fun _ => .refused) fun _ => .ite (fun _ => .refused) fun hlen =>
    .ite (fun _ => .next (h.hostAnswer _)) fun _ => .ite (fun _ => .fault) fun _ =>
      .ite (fun _ => .next ?mounted) fun _ => .next (h.outcomeTaken.hostAnswer _)
  case mounted =>
    have hset := h.outcomeTaken.setSlot (p := canonicalPath s.cfg name) d
      (by rw [State.outcomeTaken_cfg]; exact Nat.le_of_not_lt hlen)
    rw [State.outcomeTaken_disk] at hset
    exact hset.hostAnswer _

theorem hostUnmount_keeps_inv (h : Inv s) (d : Nat) : NextMeets Inv (hostUnmount d s) :=
  .ite (fun _ => .refused) fun _ => .next ((h.setSlot d (Nat.zero_le _)).hostAnswer _)

theorem State.mem_of_mem_verifySlots {ps : List Path} {q : Path} (hq : q ∈ (s.verifySlots ps).1) : q ∈ ps ∨ q = [] := by
  obtain ⟨d, hd, rfl⟩ := List.mem_iff_getElem.1 hq
  have hd' : d < ps.length := State.verifySlots_length s ps ▸ hd
  rcases (State.verifySlots_slots s ps).get hd hd' with h | h
  · exact .inl (List.mem_iff_getElem.2 ⟨d, hd', h.symm⟩)
  · exact .inr h

/-- `verify_all` leaves a path or empties its slot, so no path gets longer (44_host_disk_registry.md R223). -/
theorem Inv.verified (h : Inv s) : Inv s.verified := by
  rw [State.verified_eq]
  have hdisk := h.withDisk (ps := (s.verifySlots s.disk).1) (by rw [State.verifySlots_length, h.slots]) fun q hq => by
    rcases State.mem_of_mem_verifySlots hq with hq | rfl
    · exact h.paths q hq
    · exact Nat.zero_le _
  exact { hdisk with }

theorem hostVerifyAll_keeps_inv (h : Inv s) : NextMeets Inv (hostVerifyAll s) :=
  .ite (fun _ => .fault) fun _ => .next (h.verified.hostAnswer _)

/-- The loader writes SECBUF, memory and the draws. -/
theorem LoadFrame.inv {u : State} (e : LoadFrame s u) (h : Inv s) : Inv u := by
  have hbuf := e.secBuf h.secBuf
  have hmem := e.wf h.mem
  rw [e.eq] at hmem ⊢
  exact { h with secBuf := hbuf, mem := hmem }

theorem hostLoadImage_keeps_inv (h : Inv s) (name : Path) : NextMeets Inv (hostLoadImage name s) := by
  refine .ite (fun _ => .fault) fun _ => ?_
  split
  · exact .next (h.outcomeTaken.hostAnswer _)
  · exact .ite (fun _ => .next (h.outcomeTaken.hostAnswer _)) fun _ => .ite (fun _ => .refused) fun _ =>
      .next (((State.loadLoop_frame ..).inv h.outcomeTaken).hostAnswer _)

theorem runHost_keeps_inv (h : Inv s) (op : HostOp) : NextMeets Inv (runHost op s) := by
  cases op with
  | mount d name => exact hostMount_keeps_inv h d name
  | unmount d => exact hostUnmount_keeps_inv h d
  | verifyAll => exact hostVerifyAll_keeps_inv h
  | list => exact .next (h.hostAnswer _)
  | loadImage name => exact hostLoadImage_keeps_inv h name
  | setFrontPanel b => exact .next { h with }
  | saveRecord => exact .next { h with }

/-! ## The outside -/

/-- Power-on keeps the configuration and the files, and writes every other field that `Inv` speaks of
(70_reset_and_hazards.md R280). -/
theorem Inv.powerOnBase (h : Inv s) : Inv s.powerOnBase :=
  { h with
    bank := Nat.zero_le _
    stat := List.mem_cons_self
    slots := List.length_replicate
    paths := fun p hp => by rw [List.eq_of_mem_replicate hp]; exact Nat.zero_le _
    secBuf := by simp [State.powerOnBase]
    leds := ⟨rfl, rfl⟩
    mem := State.memReset_wf s }

theorem Inv.loadRecord (h : Inv s) (r : List Byte) : Inv (s.loadRecord r) :=
  { h with
    slots := by simp [State.loadRecord]
    paths := fun p hp => by
      obtain ⟨d, -, rfl⟩ := List.mem_map.1 hp
      exact pathOfField_length .. }

theorem envPowerOn_keeps_inv (h : Inv s) : NextMeets Inv (envPowerOn s) := by
  unfold envPowerOn
  split
  · exact .next h.powerOnBase
  · exact .ite (fun _ => .refused) fun _ => .ite (fun _ => .fault) fun _ => .next (h.powerOnBase.loadRecord _).verified

theorem runEnv_keeps_inv (h : Inv s) (e : EnvEvent) : NextMeets Inv (runEnv e s) := by
  cases e with
  | powerOn => exact envPowerOn_keeps_inv h
  | cpuStore a v => exact .next { h with mem := State.memWrite_wf a v h.mem }
  | filePut p content => exact .next { h with files := h.files.set (File.ofBytes_wf content) }
  | fileRemove p => exact .next { h with files := h.files.del }
  | breakSignal | conInput | cpuEngine | recordPut | storageNext | storageStall => exact .next { h with }

/-! ## The step -/

theorem Inv.withPending (h : Inv s) (rest : List Event) : Inv { s with pending := rest } := { h with }

theorem exec_keeps_inv (h : Inv s) (i : Instr) : NextMeets Inv (exec i s) :=
  fun t ht => (exec_effect i s t ht).inv h

theorem step_keeps_inv (h : Inv s) : NextMeets Inv (step s) := by
  cases hp : s.pending with
  | nil =>
    rw [step_of_pending_nil hp]
    exact .next h
  | cons e rest =>
    cases e with
    | transaction w =>
      rw [step_of_pending_transaction hp]
      exact exec_keeps_inv (h.withPending rest) _
    | host op =>
      rw [step_of_pending_host hp]
      exact runHost_keeps_inv (h.withPending rest) op
    | env e =>
      rw [step_of_pending_env hp]
      exact runEnv_keeps_inv (h.withPending rest) e

end Sys2Proof.Machine
end

section
/-! The state after reset. -/

namespace Sys2Proof

theorem Config.ref_valid : Config.ref.Valid := by
  constructor <;> decide

namespace Machine

theorem Inv.reset : Inv State.reset where
  valid := Config.ref_valid
  bank := Nat.zero_le _
  stat := List.mem_cons_self
  slots := List.length_replicate
  paths p hp := by rw [List.eq_of_mem_replicate hp]; exact Nat.zero_le _
  secBuf := List.length_replicate
  leds := ⟨rfl, rfl⟩
  mem := State.reset_memory_wf
  files := ⟨List.nodup_nil, fun _ he => absurd he List.not_mem_nil⟩

theorem State.reset_slot (d : Nat) : State.reset.slot d = [] := by
  simp only [State.slot, State.reset, List.getD_eq_getElem?_getD, List.getElem?_replicate]
  split_ifs <;> rfl

theorem slotsDistinct_reset : SlotsDistinct State.reset :=
  fun d _ _ _ _ hd => absurd (State.reset_slot d) hd

end Machine
end Sys2Proof
end

section

namespace Sys2Proof.Machine

/-- Settles O58: the invariant is kept by every instruction, through what an instruction can do, and by every host operation
and outside event. -/
theorem stepKeepsInvariant : Obligations.StepKeepsInvariant :=
  fun _ t h ht => step_keeps_inv h t ht

/-- Settles O54: the six fields are among those that no instruction writes. -/
theorem instructionsNeverWriteSlots : Obligations.InstructionsNeverWriteSlots := by
  intro i s t h
  have e := exec_effect i s t h
  exact ⟨e.disk, e.stopReq, e.record, e.cfg, e.pending, e.hostResult⟩

/-- Settles O57: every register of the reset state is within its bounds, and every slot is empty. -/
theorem resetMeetsInvariant : Obligations.ResetMeetsInvariant :=
  ⟨Inv.reset, slotsDistinct_reset⟩

end Sys2Proof.Machine
end

section
/-! Memory across banks, and the layout of sectors in an image (20_memory.md R61, R68). -/

namespace Sys2Proof.Machine

/-- Selecting another bank moves where an address points, and no byte of memory. -/
theorem State.memRead_withBank (s : State) (k : BitVec 4) (a : Addr) :
    ({ s with bankSel := k } : State).memRead a = s.byteAt (({ s with bankSel := k } : State).phys a) := rfl

/-- A read under bank `k` after a store under the current bank. -/
theorem State.memRead_memWrite_withBank (s : State) (a a' : Addr) (v : Byte) (k : BitVec 4) :
    ({ s.memWrite a v with bankSel := k } : State).memRead a' =
      if a' = a ∧ (k = s.bankSel ∨ s.cfg.segSiz ≤ a.toNat) then v else ({ s with bankSel := k } : State).memRead a' := by
  have hkey : ({ s with bankSel := k } : State).phys a' = s.phys a ↔
      a' = a ∧ (k = s.bankSel ∨ s.cfg.segSiz ≤ a.toNat) :=
    State.phys_eq_iff (s := s) (t := { s with bankSel := k }) rfl a a'
  calc ({ s.memWrite a v with bankSel := k } : State).memRead a'
      = (s.memWrite a v).byteAt (({ s with bankSel := k } : State).phys a') := State.memRead_withBank ..
    _ = if ({ s with bankSel := k } : State).phys a' = s.phys a then v
          else s.byteAt (({ s with bankSel := k } : State).phys a') := State.byteAt_memWrite ..
    _ = _ := by simp only [hkey, State.memRead_withBank]

variable {c : Config} {t n n' : Byte}

/-- Where a sector ends: sectors are numbered from 1, so its number counts the sectors up to its end. -/
theorem sectorOffset_add_secSz (hn : 1 ≤ n.toNat) :
    sectorOffset c t n + c.secSz = (t.toNat * c.sptMax.toNat + n.toNat) * c.secSz := by
  rw [sectorOffset, ← Nat.succ_mul]
  congr 1
  omega

/-- A sector ends at or before the start of every later track, the one after the last track too. -/
theorem sectorEnd_le_trackStart {track : Nat} (hn : 1 ≤ n.toNat) (hspt : n.toNat ≤ c.sptMax.toNat)
    (ht : t.toNat < track) : sectorOffset c t n + c.secSz ≤ track * c.sptMax.toNat * c.secSz := by
  rw [sectorOffset_add_secSz hn]
  refine Nat.mul_le_mul_right _ ?_
  calc t.toNat * c.sptMax.toNat + n.toNat
      ≤ (t.toNat + 1) * c.sptMax.toNat := by rw [Nat.succ_mul]; exact Nat.add_le_add_left hspt _
    _ ≤ track * c.sptMax.toNat := Nat.mul_le_mul_right _ ht

theorem trackStart_le_sectorOffset : t.toNat * c.sptMax.toNat * c.secSz ≤ sectorOffset c t n :=
  Nat.mul_le_mul_right _ (Nat.le_add_right _ _)

/-- Within a track a sector ends at or before the start of every later one. -/
theorem sectorEnd_le_sectorOffset_of_lt (hn : 1 ≤ n.toNat) (hlt : n.toNat < n'.toNat) :
    sectorOffset c t n + c.secSz ≤ sectorOffset c t n' := by
  rw [sectorOffset_add_secSz hn]
  exact Nat.mul_le_mul_right _ (Nat.add_le_add_left (Nat.le_pred_of_lt hlt) _)

end Sys2Proof.Machine
end

section

namespace Sys2Proof.Machine

/-- Settles O21: the store changes one physical key, and an address under bank `k` has that key only if it is the same
address in the same bank or above the banked segment. -/
theorem storedByteBelongsToBank : Obligations.StoredByteBelongsToBank :=
  fun s a a' v k => s.memRead_memWrite_withBank a a' v k

/-- Settles O36: the end of the image is the start of the track after the last, and between two sectors lies either the
start of the second's track or, in one track, only whole sectors. -/
theorem distinctSectorsDoNotOverlap : Obligations.DistinctSectorsDoNotOverlap := by
  intro c t n _ ht hn hspt
  refine ⟨sectorEnd_le_trackStart hn hspt (Nat.lt_succ_of_le ht), fun t' n' _ _ hbefore => ?_⟩
  rcases hbefore with htrack | ⟨rfl, hsector⟩
  · exact (sectorEnd_le_trackStart hn hspt htrack).trans trackStart_le_sectorOffset
  · exact sectorEnd_le_sectorOffset_of_lt hn hsector

/-- Settles O8: each read answers a byte of the state, or a byte that takes one draw (console status, clock). -/
theorem portReadsHaveNoSideEffect : Obligations.PortReadsHaveNoSideEffect := by
  rintro s i (rfl | rfl | rfl | rfl | rfl | rfl | rfl | rfl | ⟨p, rfl⟩)
  · exact ⟨s.conStatusByte, s.draws + 1, rfl⟩
  · exact ⟨s.fdcStat, s.draws, rfl⟩
  · exact ⟨s.mmuByte, s.draws, rfl⟩
  · exact ⟨Config.freeByte s.draws 0, s.draws + 1, rfl⟩
  · exact ⟨Config.freeByte s.draws 0, s.draws + 1, rfl⟩
  · exact ⟨s.lockByte, s.draws, rfl⟩
  · exact ⟨s.fpValue, s.draws, rfl⟩
  · exact ⟨s.fpValue, s.draws, rfl⟩
  · exact ⟨s.cfg.idleVal, s.draws, rfl⟩

/-- Settles O55: the step of a break event is the event's own write, after the event is taken off. -/
theorem breakSetsOnlyStopReq : Obligations.BreakSetsOnlyStopReq :=
  fun _ _ h => step_of_pending_env h

end Sys2Proof.Machine
end

section
/-! The port map as tables (30_encoding.md R91, R92): the row of each bound port, what the decoder answers from them, and,
the bound ports of one direction being different, the decoder's answer on each row's own port. -/

namespace Sys2Proof

variable {c : Config} {p : Byte} {i : Instr} {row : Byte → Instr}

/-! ## The `IN` side -/

/-- The bound `IN` ports and the row of each. -/
def portInRows (c : Config) : List (Byte × Instr) :=
  [(c.pConStatus, .inConStatus), (c.pConData, .inConData), (c.pFdcStatus, .inFdcStatus), (c.pMmu, .inMmu),
    (c.pRtcCmd, .inRtcCmd), (c.pRtcData, .inRtcData), (c.pHwctl, .inHwctl), (c.pFp, .inFp), (c.pFp2, .inFp2)]

theorem boundIn_of_mem (h : (p, i) ∈ portInRows c) : c.boundIn p = true :=
  List.contains_iff_mem.2 (List.mem_map_of_mem (f := Prod.fst) h)

theorem portIn_cases (c : Config) (p : Byte) :
    (p, portIn c p) ∈ portInRows c ∨ c.boundIn p = false ∧ portIn c p = .inDefault p := by
  unfold portIn
  split_ifs
  case neg => exact .inr ⟨by simp_all [Config.boundIn], rfl⟩
  all_goals exact .inl (by simp_all [portInRows])

theorem portIn_of_unbound (h : c.boundIn p = false) : portIn c p = .inDefault p := by
  rcases portIn_cases c p with hrow | ⟨-, hdef⟩
  · simp [boundIn_of_mem hrow] at h
  · exact hdef

theorem portIn_of_mem (hc : c.Valid) (h : (p, i) ∈ portInRows c) : portIn c p = i := by
  have hkeys : ((portInRows c).map Prod.fst).Nodup := hc.inPorts
  rcases portIn_cases c p with hrow | ⟨hunbound, -⟩
  · exact congrArg Prod.snd (List.inj_on_of_nodup_map hkeys hrow h rfl)
  · simp [boundIn_of_mem h] at hunbound

/-! ## The `OUT` side -/

/-- The row that the compare with NUMSEG chooses on the MMU port (42_mmu.md R191, R192). -/
def mmuRow (c : Config) (v : Byte) : Instr :=
  if c.bankExists v then .outMmuBankExists v else .outMmuNoSuchBank v

/-- The decoder's compare with NUMSEG is the one of the rows' operand conditions. -/
theorem mmuRow_eq : mmuRow c = fun v => if c.hasBank v then .outMmuBankExists v else .outMmuNoSuchBank v := rfl

/-- The bound `OUT` ports and the row of each, as a function of the byte written. -/
def portOutRows (c : Config) : List (Byte × (Byte → Instr)) :=
  [(c.pConData, .outConData), (c.pFdcCmd, .outFdcCmd), (c.pMmu, mmuRow c), (c.pRtcCmd, .outRtcCmd),
    (c.pRtcData, .outRtcData), (c.pHwctl, .outHwctl), (c.pFp, .outFp), (c.pFp2, .outFp2)]

theorem boundOut_of_mem (h : (p, row) ∈ portOutRows c) : c.boundOut p = true :=
  List.contains_iff_mem.2 (List.mem_map_of_mem (f := Prod.fst) h)

theorem portOut_cases (c : Config) (p : Byte) :
    (p, portOut c p) ∈ portOutRows c ∨ c.boundOut p = false ∧ portOut c p = .outDefault p := by
  unfold portOut
  split_ifs
  case neg => exact .inr ⟨by simp_all [Config.boundOut], rfl⟩
  all_goals exact .inl (by simp_all [portOutRows, mmuRow_eq])

theorem portOut_of_unbound (h : c.boundOut p = false) : portOut c p = .outDefault p := by
  rcases portOut_cases c p with hrow | ⟨-, hdef⟩
  · simp [boundOut_of_mem hrow] at h
  · exact hdef

theorem portOut_of_mem (hc : c.Valid) (h : (p, row) ∈ portOutRows c) : portOut c p = row := by
  have hkeys : ((portOutRows c).map Prod.fst).Nodup := (List.nodup_cons.1 hc.outPorts).2
  rcases portOut_cases c p with hrow | ⟨hunbound, -⟩
  · exact congrArg Prod.snd (List.inj_on_of_nodup_map hkeys hrow h rfl)
  · simp [boundOut_of_mem h] at hunbound

theorem portOut_pMmu (hc : c.Valid) : portOut c c.pMmu = mmuRow c :=
  portOut_of_mem hc (by simp [portOutRows])

end Sys2Proof
end

section
/-! What the decoder answers for each format's codes, and that the answer is a well-formed instruction whose code is the one
that was read (30_encoding.md R90 to R96). -/

namespace Sys2Proof

variable {c : Config} {p : Byte} {i : Instr} {row : Byte → Instr} {w : BitVec 17}

/-! ## The transaction word -/

theorem dir_eq_getLsbD (w : BitVec 17) : w.extractLsb' 16 1 = BitVec.ofBool (w.getLsbD 16) := by
  ext i hi
  obtain rfl : i = 0 := by omega
  simp

theorem decode_io_in (hdir : w.getLsbD 16 = false) : decode c (.io w) = portIn c (w.extractLsb' 8 8) := by
  rw [decode, decodeIo, dir_eq_getLsbD, hdir]
  rfl

theorem decode_io_out (hdir : w.getLsbD 16 = true) :
    decode c (.io w) = portOut c (w.extractLsb' 8 8) (w.extractLsb' 0 8) := by
  rw [decode, decodeIo, dir_eq_getLsbD, hdir]
  rfl

/-- The word of an `IN` is its port, the ignored data bits read as 0 (R90). -/
theorem inWord_port (w : BitVec 17) : inWord (w.extractLsb' 8 8) = .io (w &&& 0x0FF00#17) := by
  rw [inWord]
  congr 1
  ext i hi
  simp only [BitVec.getElem_append, BitVec.getElem_and]
  interval_cases i <;> simp

theorem outWord_port_data (hdir : w.getLsbD 16 = true) : outWord (w.extractLsb' 8 8) (w.extractLsb' 0 8) = .io w := by
  have hsplit := ioWord_split w
  rw [dir_eq_getLsbD, hdir] at hsplit
  exact congrArg Code.io hsplit

theorem decode_inWord_of_mem (hc : c.Valid) (h : (p, i) ∈ portInRows c) : decode c (inWord p) = i :=
  (decode_inWord c p).trans (portIn_of_mem hc h)

theorem decode_outWord_of_mem (hc : c.Valid) (h : (p, row) ∈ portOutRows c) (v : Byte) :
    decode c (outWord p v) = row v := by
  rw [decode_outWord, portOut_of_mem hc h]

/-! ## A well-formed instruction of a code -/

/-- `i` is a well-formed instruction and `code` is its code. -/
structure Instr.Encodes (c : Config) (i : Instr) (code : Code) : Prop where
  wf : i.wf c = true
  code_eq : encode c i = code

theorem encodes_of_mem_portInRows (h : (p, i) ∈ portInRows c) : i.Encodes c (inWord p) := by
  simp only [portInRows, List.mem_cons, Prod.mk.injEq, List.not_mem_nil, or_false] at h
  rcases h with ⟨rfl, rfl⟩ | ⟨rfl, rfl⟩ | ⟨rfl, rfl⟩ | ⟨rfl, rfl⟩ | ⟨rfl, rfl⟩ | ⟨rfl, rfl⟩ | ⟨rfl, rfl⟩ | ⟨rfl, rfl⟩ |
    ⟨rfl, rfl⟩ <;> exact ⟨rfl, rfl⟩

theorem portIn_encodes (c : Config) (p : Byte) : (portIn c p).Encodes c (inWord p) := by
  rcases portIn_cases c p with hrow | ⟨hunbound, hdef⟩
  · exact encodes_of_mem_portInRows hrow
  · rw [hdef]
    exact ⟨by simp [Instr.wf, hunbound], rfl⟩

theorem mmuRow_encodes (c : Config) (v : Byte) : (mmuRow c v).Encodes c (outWord c.pMmu v) := by
  unfold mmuRow
  split_ifs with hbank
  · exact ⟨hbank, rfl⟩
  · exact ⟨by simpa [Instr.wf] using hbank, rfl⟩

theorem encodes_of_mem_portOutRows (h : (p, row) ∈ portOutRows c) (v : Byte) : (row v).Encodes c (outWord p v) := by
  simp only [portOutRows, List.mem_cons, Prod.mk.injEq, List.not_mem_nil, or_false] at h
  rcases h with ⟨rfl, rfl⟩ | ⟨rfl, rfl⟩ | ⟨rfl, rfl⟩ | ⟨rfl, rfl⟩ | ⟨rfl, rfl⟩ | ⟨rfl, rfl⟩ | ⟨rfl, rfl⟩ | ⟨rfl, rfl⟩
  case inr.inr.inl => exact mmuRow_encodes c v
  all_goals exact ⟨rfl, rfl⟩

theorem portOut_encodes (c : Config) (p v : Byte) : (portOut c p v).Encodes c (outWord p v) := by
  rcases portOut_cases c p with hrow | ⟨hunbound, hdef⟩
  · exact encodes_of_mem_portOutRows hrow v
  · rw [hdef]
    exact ⟨by simp [Instr.wf, hunbound], rfl⟩

/-! ## The command bytes and the command block -/

theorem decodeFdcOp_encodes (c : Config) (b : Byte) : (decodeFdcOp c b).Encodes c (.fdcOp b) := by
  unfold decodeFdcOp
  split_ifs with hcmd hdma hexec
  · exact ⟨rfl, by rw [hcmd]; rfl⟩
  · exact ⟨rfl, by rw [hdma]; rfl⟩
  · exact ⟨rfl, by rw [hexec]; rfl⟩
  · exact ⟨by simp [Instr.wf, Config.isFdcOp, hcmd, hdma, hexec], rfl⟩

theorem decodeHwKey_encodes (c : Config) (b : Byte) : (decodeHwKey b).Encodes c (.hwKey b) := by
  unfold decodeHwKey
  split_ifs with hkey
  · exact ⟨rfl, by rw [hkey]; rfl⟩
  · exact ⟨by simpa [Instr.wf] using hkey, rfl⟩

/-- A byte is its leading bits, up to the first 1 that the port's decode looks for, and the bits below them (R96). -/
theorem hwCmdByte_split : ∀ b : Byte,
    (b.getLsbD 7 → (1#1 ++ b.extractLsb' 0 7 : BitVec 8) = b) ∧
    (¬ b.getLsbD 7 → b.getLsbD 6 → (0b01#2 ++ b.extractLsb' 0 6 : BitVec 8) = b) ∧
    (¬ b.getLsbD 7 → ¬ b.getLsbD 6 → b.getLsbD 5 → (0b001#3 ++ b.extractLsb' 0 5 : BitVec 8) = b) ∧
    (¬ b.getLsbD 7 → ¬ b.getLsbD 6 → ¬ b.getLsbD 5 → b.getLsbD 4 → (0b0001#4 ++ b.extractLsb' 0 4 : BitVec 8) = b) ∧
    (¬ b.getLsbD 7 → ¬ b.getLsbD 6 → ¬ b.getLsbD 5 → ¬ b.getLsbD 4 →
      (0b0000#4 ++ b.extractLsb' 0 4 : BitVec 8) = b) := by
  intro b
  refine ⟨?_, ?_, ?_, ?_, ?_⟩ <;> revert b <;> decide

theorem decodeHwCmd_encodes (c : Config) (b : Byte) : (decodeHwCmd b).Encodes c (.hwCmd b) := by
  obtain ⟨hhalt, hreset, hz80, hi8080, hnop⟩ := hwCmdByte_split b
  unfold decodeHwCmd
  split_ifs with hkey h7 h6 h5 h4
  · exact ⟨rfl, by rw [hkey]; rfl⟩
  · refine ⟨?_, congrArg Code.hwCmd (hhalt h7)⟩
    rw [Instr.wf, hhalt h7]
    exact bne_iff_ne.2 hkey
  · exact ⟨rfl, congrArg Code.hwCmd (hreset h7 h6)⟩
  · exact ⟨rfl, congrArg Code.hwCmd (hz80 h7 h6 h5)⟩
  · exact ⟨rfl, congrArg Code.hwCmd (hi8080 h7 h6 h5 h4)⟩
  · exact ⟨rfl, congrArg Code.hwCmd (hnop h7 h6 h5 h4)⟩

theorem decodeFdcBlk_encodes (c : Config) (k d t n : Byte) :
    (decodeFdcBlk c k d t n).Encodes c (.fdcBlk (k ++ d ++ t ++ n : BitVec 32)) := by
  unfold decodeFdcBlk
  split_ifs with hread hwrite
  · exact ⟨rfl, by rw [hread]; rfl⟩
  · exact ⟨rfl, by rw [hwrite]; rfl⟩
  · exact ⟨by simp [Instr.wf, hread, hwrite], rfl⟩

/-- The code without the data bits that an `IN` ignores (R90). -/
def Code.withoutIgnored : Code → Code
  | .io w => .io (if w.getLsbD 16 then w else w &&& 0x0FF00#17)
  | code => code

theorem decode_encodes (c : Config) (code : Code) : (decode c code).Encodes c code.withoutIgnored := by
  cases code with
  | io w =>
    cases hdir : w.getLsbD 16 with
    | false =>
      rw [decode_io_in hdir, Code.withoutIgnored, hdir]
      exact inWord_port w ▸ portIn_encodes c _
    | true =>
      rw [decode_io_out hdir, Code.withoutIgnored, hdir]
      exact outWord_port_data hdir ▸ portOut_encodes c _ _
  | fdcOp b => exact decodeFdcOp_encodes c b
  | fdcAddr b => exact ⟨rfl, rfl⟩
  | hwKey b => exact decodeHwKey_encodes c b
  | hwCmd b => exact decodeHwCmd_encodes c b
  | fdcBlk w =>
    have h := decodeFdcBlk_encodes c (w.extractLsb' 24 8) (w.extractLsb' 16 8) (w.extractLsb' 8 8) (w.extractLsb' 0 8)
    rw [blockWord_split] at h
    exact h

end Sys2Proof
end

section
/-! The decoder reads back the code of every well-formed instruction (30_encoding.md R90 to R96). -/

namespace Sys2Proof

variable {c : Config}

/-- The three operation bytes are different, so each is read as its own row (R93). -/
theorem decodeFdcOp_ops (hc : c.Valid) :
    decodeFdcOp c c.opSetcmd = .fdcSetcmd ∧ decodeFdcOp c c.opSetdma = .fdcSetdma ∧
    decodeFdcOp c c.opExec = .fdcExec := by
  obtain ⟨⟨hcd, hce⟩, hde⟩ : (c.opSetcmd ≠ c.opSetdma ∧ c.opSetcmd ≠ c.opExec) ∧ c.opSetdma ≠ c.opExec := by
    simpa using hc.ops
  simp [decodeFdcOp, hcd.symm, hce.symm, hde.symm]

theorem decodeFdcOp_of_not_op {b : Byte} (h : c.isFdcOp b = false) : decodeFdcOp c b = .fdcIgnored b := by
  obtain ⟨hcmd, hdma, hexec⟩ : b ≠ c.opSetcmd ∧ b ≠ c.opSetdma ∧ b ≠ c.opExec := by
    simpa [Config.isFdcOp] using h
  simp [decodeFdcOp, hcmd, hdma, hexec]

theorem decodeFdcBlk_kindRead (d t n : Byte) : decodeFdcBlk c c.kindRead d t n = .fdcblkRead d t n := if_pos rfl

theorem decodeFdcBlk_kindWrite (hc : c.Valid) (d t n : Byte) :
    decodeFdcBlk c c.kindWrite d t n = .fdcblkWrite d t n :=
  (if_neg hc.kinds.symm).trans (if_pos rfl)

theorem decodeFdcBlk_other {k : Byte} (hread : k ≠ c.kindRead) (hwrite : k ≠ c.kindWrite) (d t n : Byte) :
    decodeFdcBlk c k d t n = .fdcblkOther k d t n :=
  (if_neg hread).trans (if_neg hwrite)

theorem decode_encode {i : Instr} (hc : c.Valid) (hwf : i.wf c = true) : decode c (encode c i) = i := by
  obtain ⟨hsetcmd, hsetdma, hexec⟩ := decodeFdcOp_ops hc
  cases i with
  | inConStatus | inConData | inFdcStatus | inMmu | inRtcCmd | inRtcData | inHwctl | inFp2 | inFp =>
    exact decode_inWord_of_mem hc (by simp [portInRows])
  | outConData v | outFdcCmd v | outRtcCmd v | outRtcData v | outHwctl v | outFp2 v | outFp v =>
    exact decode_outWord_of_mem hc (by simp [portOutRows]) v
  | outMmuBankExists v =>
    rw [encode, decode_outWord, portOut_pMmu hc]
    exact if_pos hwf
  | outMmuNoSuchBank v =>
    have hbank : ¬ c.bankExists v := by simpa [Instr.wf] using hwf
    rw [encode, decode_outWord, portOut_pMmu hc]
    exact if_neg hbank
  | inDefault p =>
    rw [encode, decode_inWord, portIn_of_unbound (by simpa [Instr.wf] using hwf)]
  | outDefault p v =>
    rw [encode, decode_outWord, portOut_of_unbound (by simpa [Instr.wf] using hwf)]
  | fdcSetcmd => exact hsetcmd
  | fdcSetdma => exact hsetdma
  | fdcExec => exact hexec
  | fdcIgnored op => exact decodeFdcOp_of_not_op (by simpa [Instr.wf] using hwf)
  | hwkeyIgnored key => exact if_neg (bne_iff_ne.1 hwf)
  | fdcAddrbyte | hwkeyUnlock | hwKeybyte => rfl
  | hwHalt low => exact decodeHwCmd_halt low (by rintro rfl; exact bne_iff_ne.1 hwf rfl)
  | hwReset low => exact decodeHwCmd_reset low
  | hwZ80 low => exact decodeHwCmd_z80 low
  | hwI8080 low => exact decodeHwCmd_i8080 low
  | hwNop low => exact decodeHwCmd_nop low
  | fdcblkRead d t n => rw [encode, decode_blockWord, decodeFdcBlk_kindRead]
  | fdcblkWrite d t n => rw [encode, decode_blockWord, decodeFdcBlk_kindWrite hc]
  | fdcblkOther k d t n =>
    obtain ⟨hread, hwrite⟩ : k ≠ c.kindRead ∧ k ≠ c.kindWrite := by simpa [Instr.wf] using hwf
    rw [encode, decode_blockWord, decodeFdcBlk_other hread hwrite]

end Sys2Proof
end

section
/-! What chooses the row of a transaction (30_encoding.md R91, R94), and that the two command ports and `FDC.EXEC` run the
row that the decoder reads in their byte or block (log 5). -/

namespace Sys2Proof.Machine

/-- Bits 16 to 8 of an `IN` word hold its direction and its port, and the decoder reads no other bit of it. -/
theorem decode_io_in_of_eq_head {c : Config} {w w' : BitVec 17} (hdir : w.getLsbD 16 = false)
    (h : w'.extractLsb' 8 9 = w.extractLsb' 8 9) : decode c (.io w') = decode c (.io w) := by
  have hbit (i : Nat) (hi : i < 9) : w'.getLsbD (8 + i) = w.getLsbD (8 + i) := by
    simpa [hi] using congrArg (BitVec.getLsbD · i) h
  have hport : w'.extractLsb' 8 8 = w.extractLsb' 8 8 := by
    ext i hi
    simpa using hbit i (by omega)
  rw [decode_io_in hdir, decode_io_in ((hbit 8 (by omega)).trans hdir), hport]

theorem portOut_mem_of_ne_pMmu {c : Config} {p : Byte} (hp : p ≠ c.pMmu) :
    portOut c p ∈ [Instr.outConData, .outFdcCmd, .outRtcCmd, .outRtcData, .outHwctl, .outFp2, .outFp, .outDefault p] := by
  rcases portOut_cases c p with hrow | ⟨-, hdef⟩
  · simp only [portOutRows, List.mem_cons, Prod.mk.injEq, hp, false_and, false_or, List.not_mem_nil, or_false] at hrow
    rcases hrow with ⟨-, h⟩ | ⟨-, h⟩ | ⟨-, h⟩ | ⟨-, h⟩ | ⟨-, h⟩ | ⟨-, h⟩ | ⟨-, h⟩ <;> simp [h]
  · simp [hdef]

theorem fdcCode_of_ne_idle {seq : FdcSeq} (h : seq ≠ .idle) (b : Byte) : fdcCode seq b = .fdcAddr b := by
  cases seq with
  | idle => exact absurd rfl h
  | cmdLo | cmdHi | dmaLo | dmaHi => rfl

theorem execOutFdcCmd_eq_exec (s : State) (v : Byte) :
    execOutFdcCmd v s = exec (decode s.cfg (fdcCode s.fdcSeq v)) s := by
  unfold execOutFdcCmd
  cases s.fdcSeq with
  | idle =>
    simp only [fdcCode, decode, decodeFdcOp, apply_ite (exec · s)]
    rfl
  | cmdLo | cmdHi | dmaLo | dmaHi => rfl

theorem execOutHwctl_eq_exec (s : State) (v : Byte) :
    execOutHwctl v s = exec (decode s.cfg (hwCode s.hwctlLock v)) s := by
  unfold execOutHwctl
  cases s.hwctlLock with
  | locked =>
    simp only [hwCode, decode, decodeHwKey, apply_ite (exec · s)]
    rfl
  | unlocked =>
    simp only [hwCode, decode, decodeHwCmd, apply_ite (exec · s)]
    rfl

theorem execFdcExec_eq_exec (s : State) :
    execFdcExec s =
      exec (decodeFdcBlk s.cfg s.fetchBlock.kind s.fetchBlock.drive s.fetchBlock.track s.fetchBlock.sector)
        { s with fdcCmdBuf := s.fetchBlock } := by
  simp only [decodeFdcBlk, apply_ite (exec · { s with fdcCmdBuf := s.fetchBlock })]
  rfl

end Sys2Proof.Machine
end

section

namespace Sys2Proof.Machine

/-- Settles O1: an `IN` or `OUT` row stands in the port map under its own port, the bound ports of a direction differ, and
the level-2 and level-3 rows are told apart by the bytes that R93, R95 and R96 fix. -/
theorem decodeUndoesEncode : Obligations.DecodeUndoesEncode :=
  fun _ _ hc hwf => decode_encode hc hwf

/-- Settles O2: the decoder's answer is a well-formed instruction of the code it read, format by format. -/
theorem encodeUndoesDecode : Obligations.EncodeUndoesDecode := by
  intro c code
  obtain ⟨hwf, hcode⟩ := decode_encodes c code
  refine ⟨hwf, hcode.trans ?_⟩
  cases code <;> rfl

/-- Settles O4: an `IN` is its port's row, an `OUT` the row of its port applied to the data, and the MMU port's row is the
compare with NUMSEG. -/
theorem dispatchByDirectionAndPort : Obligations.DispatchByDirectionAndPort := by
  refine ⟨fun c w w' hdir h => decode_io_in_of_eq_head hdir h, fun c p hp => ?outRow, fun c w hc hdir hport => ?mmu,
    fun c p h => ?inDefault, fun c p v h => ?outDefault, fun c seq b h => ?address⟩
  case outRow =>
    refine ⟨portOut c p, portOut_mem_of_ne_pMmu hp, fun w hdir hport => ?_⟩
    rw [decode_io_out hdir, hport]
  case mmu =>
    rw [decode_io_out hdir, hport, portOut_pMmu hc]
    simp [mmuRow, Config.bankExists]
  case inDefault => rw [decode_inWord, portIn_of_unbound h]
  case outDefault => rw [decode_outWord, portOut_of_unbound h]
  case address => rw [fdcCode_of_ne_idle h, decode]

/-- Settles O6: each of the three chooses among its meanings by the same compares as the decoder chooses the row. -/
theorem commandBytesRunTheirRow : Obligations.CommandBytesRunTheirRow :=
  fun s v => ⟨execOutFdcCmd_eq_exec s v, execOutHwctl_eq_exec s v, execFdcExec_eq_exec s⟩

/-- Settles O3: eleven closed words, each decoded by evaluation. -/
theorem writtenOutWordsDecode : Obligations.WrittenOutWordsDecode := by
  unfold Obligations.WrittenOutWordsDecode
  decide

end Sys2Proof.Machine
end

section
/-! What the console and front-panel handlers answer where their meaning chooses (40_port_dispatch.md R124, R125, R134). -/

namespace Sys2Proof.Machine

variable {s : State}

/-- The drawn bits lie above bit 0, which the buffered input alone decides. -/
theorem State.conStatusByte_bit_zero (s : State) : s.conStatusByte.getLsbD 0 = s.conIn.isEmpty := by
  rw [State.conStatusByte, BitVec.getLsbD_append, State.conAvail]
  cases s.conIn <;> simp

theorem State.conTake_of_cons {b : Byte} {rest : List Byte} (h : s.conIn = b :: rest) :
    s.conTake = { s with conLast := b, conIn := rest } := by
  simp only [State.conTake, h]

theorem State.conTake_of_nil (h : s.conIn = []) : s.conTake = s := by
  simp only [State.conTake, h]

theorem execInConData_of_cons {b : Byte} {rest : List Byte} (h : s.conIn = b :: rest) :
    execInConData s = .next { s with conLast := b, conIn := rest, result := some b } := by
  rw [execInConData, State.conTake_of_cons h]
  rfl

theorem execInConData_of_nil (h : s.conIn = []) : execInConData s = .next { s with result := some s.conLast } := by
  rw [execInConData, State.conTake_of_nil h]
  rfl

theorem execOutFp2_of_switches (h : s.cfg.fp2Mode = .switches) (v : Byte) :
    execOutFp2 v s = .next { s with fpValue := v, result := none } := by
  simp only [execOutFp2, h]
  rfl

theorem execOutFp2_of_mirrorRo (h : s.cfg.fp2Mode = .mirrorRo) (v : Byte) :
    execOutFp2 v s = .next { s with result := none } := by
  simp only [execOutFp2, h]
  rfl

/-! ## Neither a status code nor a CPU-state flag is written -/

/-- FDC_STAT and the CPU interface of `t` are those of `s`. -/
structure KeepsStatAndCpu (s t : State) : Prop where
  stat : t.fdcStat = s.fdcStat
  cpu : t.cpu = s.cpu

theorem execInConData_keepsStatAndCpu (s : State) : NextMeets (KeepsStatAndCpu s) (execInConData s) := by
  cases hin : s.conIn with
  | nil => exact execInConData_of_nil hin ▸ .next ⟨rfl, rfl⟩
  | cons b rest => exact execInConData_of_cons hin ▸ .next ⟨rfl, rfl⟩

theorem execOutFp2_keepsStatAndCpu (v : Byte) (s : State) : NextMeets (KeepsStatAndCpu s) (execOutFp2 v s) := by
  cases hmode : s.cfg.fp2Mode with
  | switches => exact execOutFp2_of_switches hmode v ▸ .next ⟨rfl, rfl⟩
  | mirrorRo => exact execOutFp2_of_mirrorRo hmode v ▸ .next ⟨rfl, rfl⟩

end Sys2Proof.Machine
end

section
/-! Every handler completes, the rows that reach storage as long as the storage layer answers (40_port_dispatch.md R135,
41_fdc.md R166). -/

namespace Sys2Proof.Machine

/-- The instruction completes: its outcome is a next state, no fault and no refusal. -/
def Completes (r : Result) : Prop := ∃ t, r = .next t

theorem Completes.next {t : State} : Completes (.next t) := ⟨t, rfl⟩

theorem Completes.ite {c : Prop} [Decidable c] {r r' : Result} (h : Completes r) (h' : Completes r') :
    Completes (if c then r else r') := by
  split_ifs
  · exact h
  · exact h'

/-- The four rows on whose paths a file is opened. -/
def ReachesStorage (i : Instr) : Prop :=
  i = .fdcExec ∨ (∃ v, i = .outFdcCmd v) ∨ (∃ d t n, i = .fdcblkRead d t n) ∨ ∃ d t n, i = .fdcblkWrite d t n

variable {s : State}

/-! ## The rows that reach storage -/

theorem State.finishSector_completes {r : Except Fault (StatusCode × State)} (h : ∀ e, r ≠ .error e) :
    Completes (State.finishSector r) := by
  cases r with
  | error e => exact absurd rfl (h e)
  | ok p => exact .next

theorem execFdcblkRead_completes (h : s.storageStalled = false) (d t n : Byte) :
    Completes (execFdcblkRead d t n s) := by
  refine State.finishSector_completes fun e he => ?_
  obtain ⟨hstall, -⟩ := State.readSector_error he
  simp [h] at hstall

theorem execFdcblkWrite_completes (h : s.storageStalled = false) (d t n : Byte) :
    Completes (execFdcblkWrite d t n s) := by
  refine State.finishSector_completes fun e he => ?_
  obtain ⟨hstall, -⟩ := State.writeSector_error he
  simp [h] at hstall

theorem execFdcExec_completes (h : s.storageStalled = false) : Completes (execFdcExec s) := by
  have hfetched : ({ s with fdcCmdBuf := s.fetchBlock } : State).storageStalled = false := h
  exact .ite (execFdcblkRead_completes hfetched ..) (.ite (execFdcblkWrite_completes hfetched ..) .next)

theorem execFdcAddrbyte_completes (b : Byte) (s : State) : Completes (execFdcAddrbyte b s) := by
  unfold execFdcAddrbyte
  split <;> exact .next

theorem execOutFdcCmd_completes (h : s.storageStalled = false) (v : Byte) : Completes (execOutFdcCmd v s) := by
  unfold execOutFdcCmd
  split
  · exact .ite .next (.ite .next (.ite (execFdcExec_completes h) .next))
  all_goals exact execFdcAddrbyte_completes v s

/-! ## The other rows that choose -/

theorem execHwKeybyte_completes (s : State) : Completes (execHwKeybyte s) := by
  unfold execHwKeybyte
  split <;> exact .next

theorem execOutHwctl_completes (v : Byte) (s : State) : Completes (execOutHwctl v s) := by
  unfold execOutHwctl
  split
  · exact .ite .next .next
  · exact .ite (execHwKeybyte_completes s) (.ite .next (.ite .next (.ite .next (.ite .next .next))))

theorem execOutFp2_completes (v : Byte) (s : State) : Completes (execOutFp2 v s) := by
  unfold execOutFp2
  split <;> exact .next

/-! ## All rows -/

/-- The last case holds the rows whose meaning is one next state. -/
theorem exec_completes {i : Instr} (h : ReachesStorage i → s.storageStalled = false) : Completes (exec i s) := by
  cases i
  case fdcExec => exact execFdcExec_completes (h (by simp [ReachesStorage]))
  case outFdcCmd v => exact execOutFdcCmd_completes (h (by simp [ReachesStorage])) v
  case fdcblkRead d t n => exact execFdcblkRead_completes (h (by simp [ReachesStorage])) d t n
  case fdcblkWrite d t n => exact execFdcblkWrite_completes (h (by simp [ReachesStorage])) d t n
  case fdcAddrbyte b => exact execFdcAddrbyte_completes b s
  case outMmuBankExists | outMmuNoSuchBank => exact .ite .next .next
  case outHwctl v => exact execOutHwctl_completes v s
  case hwKeybyte => exact execHwKeybyte_completes s
  case outFp2 v => exact execOutFp2_completes v s
  all_goals exact .next

end Sys2Proof.Machine
end

section

namespace Sys2Proof.Machine

/-- Settles O7: an instruction faults only out of a sector operation that the storage layer never answers; and each handler
of R122 to R134 writes fields other than FDC_STAT and the CPU interface. -/
theorem everyHandlerTerminates : Obligations.EveryHandlerTerminates := by
  refine ⟨fun i s h => exec_completes fun _ => h, fun i s hexec hcmd hread hwrite => exec_completes fun hi => ?storage,
    fun s t i hi ht => ?kept⟩
  case storage =>
    rcases hi with rfl | ⟨v, rfl⟩ | ⟨d, u, n, rfl⟩ | ⟨d, u, n, rfl⟩
    · exact absurd rfl hexec
    · exact absurd rfl (hcmd v)
    · exact absurd rfl (hread d u n)
    · exact absurd rfl (hwrite d u n)
  case kept =>
    have hkept : NextMeets (KeepsStatAndCpu s) (exec i s) := by
      rcases hi with rfl | rfl | ⟨v, rfl⟩ | rfl | ⟨v, rfl⟩ | rfl | ⟨v, rfl⟩ | rfl | ⟨v, rfl⟩ | rfl | ⟨v, rfl⟩ | ⟨p, rfl⟩ |
        ⟨p, v, rfl⟩
      · exact .next ⟨rfl, rfl⟩
      · exact execInConData_keepsStatAndCpu s
      iterate 8 exact .next ⟨rfl, rfl⟩
      · exact execOutFp2_keepsStatAndCpu v s
      all_goals exact .next ⟨rfl, rfl⟩
    obtain ⟨hstat, hcpu⟩ := hkept t ht
    exact ⟨hstat, hcpu⟩

/-- Settles O9: the word is read by its port, which stands in no row of the `IN` map. -/
theorem unboundInReturnsIdle : Obligations.UnboundInReturnsIdle :=
  ⟨fun _ _ hdir h => (decode_io_in hdir).trans (portIn_of_unbound h), fun _ _ => rfl⟩

/-- Settles O10: the word is read by its port, which stands in no row of the `OUT` map. -/
theorem unboundOutChangesNothing : Obligations.UnboundOutChangesNothing := by
  refine ⟨fun c w hdir h => ?_, fun _ _ _ => rfl⟩
  rw [decode_io_out hdir, portOut_of_unbound h]

/-- Settles O11: the byte is the drawn bits above the one that says whether input is buffered. -/
theorem consoleStatusInvertedSense : Obligations.ConsoleStatusInvertedSense :=
  fun s => ⟨s.conStatusByte, rfl, s.conStatusByte_bit_zero⟩

/-- Settles O12: the two cases of the buffered input. -/
theorem consoleReadTakesOldestByte : Obligations.ConsoleReadTakesOldestByte :=
  ⟨fun _ _ _ h => execInConData_of_cons h, fun _ h => execInConData_of_nil h⟩

/-- Settles O13: the console data port is the first the `OUT` map looks for, so the word is its row in every
configuration. -/
theorem consoleWriteStripsTopBit : Obligations.ConsoleWriteStripsTopBit :=
  fun _ s => ⟨(decode_outWord s.cfg s.cfg.pConData _).trans (if_pos rfl), rfl⟩

/-- Settles O14: both reads answer the byte of one draw, and both writes are a signal. -/
theorem clockPortsPassThrough : Obligations.ClockPortsPassThrough :=
  fun s _ => ⟨⟨Config.freeByte s.draws 0, rfl⟩, ⟨Config.freeByte s.draws 0, rfl⟩, rfl, rfl⟩

/-- Settles O15: the port's rows in the two maps, and what they read and store. -/
theorem frontPanelReadAndWrite : Obligations.FrontPanelReadAndWrite :=
  fun _ v hc => ⟨decode_inWord_of_mem hc (by simp [portInRows]), decode_outWord_of_mem hc (by simp [portOutRows]) v,
    rfl, rfl⟩

/-- Settles O16: the read is the same in both modes, the write is the one of its mode. -/
theorem secondFrontPanelByMode : Obligations.SecondFrontPanelByMode :=
  fun _ v => ⟨rfl, fun h => execOutFp2_of_switches h v, fun h => execOutFp2_of_mirrorRo h v⟩

end Sys2Proof.Machine
end

section
/-! A sector request as it is answered: by the code of a check that fails, by the fault of a storage layer that never
answers, or by a transfer, whose outcome decides the code (41_fdc.md R159 to R166). -/

namespace Sys2Proof.Machine

variable {s : State} {d t n : Byte} {code : StatusCode}

/-! ## Before the transfer -/

theorem State.readSector_of_validate_some (h : s.validate d t n s.fdcDmaAddr = some code) :
    s.readSector d t n s.fdcDmaAddr = .ok (code, s) := by
  simp only [State.readSector, h]

theorem State.writeSector_of_validate_some (h : s.validate d t n s.fdcDmaAddr = some code) :
    s.writeSector d t n s.fdcDmaAddr = .ok (code, s) := by
  simp only [State.writeSector, h]

theorem execFdcblkRead_of_validate_some (h : s.validate d t n s.fdcDmaAddr = some code) :
    execFdcblkRead d t n s = .next { s with fdcStat := statusByte s.cfg code, result := none } := by
  rw [execFdcblkRead, State.readSector_of_validate_some h]
  rfl

theorem execFdcblkWrite_of_validate_some (h : s.validate d t n s.fdcDmaAddr = some code) :
    execFdcblkWrite d t n s = .next { s with fdcStat := statusByte s.cfg code, result := none } := by
  rw [execFdcblkWrite, State.writeSector_of_validate_some h]
  rfl

theorem execFdcblkRead_of_stalled (hpass : s.validate d t n s.fdcDmaAddr = none) (hstall : s.storageStalled = true) :
    execFdcblkRead d t n s = .fault .storageStalled := by
  simp only [execFdcblkRead, State.readSector, hpass, hstall]
  rfl

theorem execFdcblkWrite_of_stalled (hpass : s.validate d t n s.fdcDmaAddr = none) (hstall : s.storageStalled = true) :
    execFdcblkWrite d t n s = .fault .storageStalled := by
  simp only [execFdcblkWrite, State.writeSector, hpass, hstall]
  rfl

/-! ## What the outcome decides -/

/-- The code of each outcome of a transfer; `short` is the direction's own code for a short transfer (R161, R162). -/
def outcomeCode (short : StatusCode) : StorageOutcome → StatusCode
  | .ok => .ok
  | .openFail => .noDisk
  | .seekFail => .seekFailed
  | .short => short

theorem eq_ok_of_outcomeCode_eq_ok {short : StatusCode} (hshort : short ≠ .ok) {so : StorageOutcome}
    (h : outcomeCode short so = .ok) : so = .ok := by
  cases so with
  | ok => rfl
  | openFail | seekFail => cases h
  | short => exact absurd h hshort

variable {so : StorageOutcome} {p : Path} {off : Nat} {addr : Addr}

/-- Only an open failure has no file. -/
theorem State.readTransfer_code (hfile : so ≠ .openFail → ∃ f, s.fileOf p = some f) :
    (s.readTransfer so p off addr).1 = outcomeCode .readFailed so := by
  cases so with
  | ok =>
    obtain ⟨f, hf⟩ := hfile (by simp)
    simp only [State.readTransfer, hf, outcomeCode]
  | openFail | seekFail | short => rfl

theorem State.writeTransfer_code (hfile : so ≠ .openFail → ∃ f, s.fileOf p = some f) :
    (s.writeTransfer so p off addr).1 = outcomeCode .writeFailed so := by
  cases so with
  | ok | short =>
    obtain ⟨f, hf⟩ := hfile (by simp)
    simp only [State.writeTransfer, hf, outcomeCode]
  | openFail | seekFail => rfl

theorem State.readTransfer_mem_of_ne_ok (h : so ≠ .ok) : (s.readTransfer so p off addr).2.mem = s.mem := by
  cases so with
  | ok => exact absurd rfl h
  | openFail | seekFail | short => rfl

theorem State.sectorOutcome_of_no_file {reading : Bool} (h : s.fileOf p = none) :
    s.sectorOutcome reading p off = .openFail := by
  simp only [State.sectorOutcome, h]

/-- A read that lies inside the image has the storage layer's own outcome. -/
theorem State.sectorOutcome_read_inside {f : File} (hf : s.fileOf p = some f) (hin : off + s.cfg.secSz ≤ f.size) :
    s.sectorOutcome true p off = s.nextOutcome := by
  rw [State.sectorOutcome_read hf, if_neg fun h => absurd h.1 (Nat.not_lt.2 hin)]

/-- A failure of the storage layer is the outcome of a read wherever the sector lies. -/
theorem State.sectorOutcome_read_of_ne_ok {f : File} (hf : s.fileOf p = some f) (h : s.nextOutcome ≠ .ok) :
    s.sectorOutcome true p off = s.nextOutcome := by
  rw [State.sectorOutcome_read hf, if_neg fun h' => h h'.2]

/-! ## The transfer of an admitted request -/

/-- The answer of an admitted read, but for the indicator that goes off. -/
def State.admittedRead (s : State) (d t n : Byte) : StatusCode × State :=
  (s.setLedRead true).outcomeTaken.readTransfer
    (s.sectorOutcome true (s.slot d.toNat) (sectorOffset s.cfg t n)) (s.slot d.toNat) (sectorOffset s.cfg t n) s.fdcDmaAddr

/-- The answer of an admitted write, but for the indicator that goes off. -/
def State.admittedWrite (s : State) (d t n : Byte) : StatusCode × State :=
  (s.setLedWrite true).outcomeTaken.writeTransfer
    (s.sectorOutcome false (s.slot d.toNat) (sectorOffset s.cfg t n)) (s.slot d.toNat) (sectorOffset s.cfg t n) s.fdcDmaAddr

@[simp] theorem State.fileOf_setLedRead_outcomeTaken (s : State) (on : Bool) (p : Path) :
    (s.setLedRead on).outcomeTaken.fileOf p = s.fileOf p := by
  simp [State.fileOf]

@[simp] theorem State.fileOf_setLedWrite_outcomeTaken (s : State) (on : Bool) (p : Path) :
    (s.setLedWrite on).outcomeTaken.fileOf p = s.fileOf p := by
  simp [State.fileOf]

theorem State.admittedRead_code (s : State) (d t n : Byte) : (s.admittedRead d t n).1 =
    outcomeCode .readFailed (s.sectorOutcome true (s.slot d.toNat) (sectorOffset s.cfg t n)) :=
  State.readTransfer_code fun h => by simpa using State.file_of_sectorOutcome h

theorem State.admittedWrite_code (s : State) (d t n : Byte) : (s.admittedWrite d t n).1 =
    outcomeCode .writeFailed (s.sectorOutcome false (s.slot d.toNat) (sectorOffset s.cfg t n)) :=
  State.writeTransfer_code fun h => by simpa using State.file_of_sectorOutcome h

theorem State.readSector_of_pass (hpass : s.validate d t n s.fdcDmaAddr = none) (hstall : s.storageStalled = false) :
    s.readSector d t n s.fdcDmaAddr =
      .ok ((s.admittedRead d t n).1, (s.admittedRead d t n).2.setLedRead false) := by
  simp only [State.readSector, hpass, hstall]
  rfl

theorem State.writeSector_of_pass (hpass : s.validate d t n s.fdcDmaAddr = none) (hstall : s.storageStalled = false) :
    s.writeSector d t n s.fdcDmaAddr =
      .ok ((s.admittedWrite d t n).1, (s.admittedWrite d t n).2.setLedWrite false) := by
  simp only [State.writeSector, hpass, hstall]
  rfl

/-- An admitted read completes in its frame, with the code of its outcome and the memory that the transfer leaves. -/
theorem execFdcblkRead_of_pass (hpass : s.validate d t n s.fdcDmaAddr = none) (hstall : s.storageStalled = false)
    (hso : s.sectorOutcome true (s.slot d.toNat) (sectorOffset s.cfg t n) = so) :
    ∃ u, execFdcblkRead d t n s = .next u ∧
      u = { s with fdcStat := statusByte s.cfg (outcomeCode .readFailed so), secBuf := u.secBuf,
                   mem := u.mem, ledRead := false, storage := u.storage, draws := u.draws,
                   signals := s.signals ++ [.ledRead true, .ledRead false], result := none } ∧
      u.mem = (s.admittedRead d t n).2.mem ∧ ∀ key, OutsideDma s s.fdcDmaAddr key → u.byteAt key = s.byteAt key := by
  obtain ⟨u, hu⟩ := execFdcblkRead_completes hstall d t n
  obtain ⟨code, y, hy, rfl⟩ := State.finishSector_next hu
  have hans := (State.readSector_of_pass hpass hstall).symm.trans hy
  simp only [Except.ok.injEq, Prod.mk.injEq, State.admittedRead_code, hso] at hans
  obtain ⟨rfl, hmem⟩ := hans
  rcases State.readSector_cases hy with ⟨hv, -⟩ | ⟨-, -, -, hframe, -, hout, -⟩
  · simp [hpass] at hv
  · refine ⟨_, hu, ?_, by rw [← hmem]; rfl, hout⟩
    rw [hframe]

/-- An admitted write completes in its frame, with the code of its outcome and the files that the transfer leaves. -/
theorem execFdcblkWrite_of_pass (hpass : s.validate d t n s.fdcDmaAddr = none) (hstall : s.storageStalled = false)
    (hso : s.sectorOutcome false (s.slot d.toNat) (sectorOffset s.cfg t n) = so) :
    ∃ u, execFdcblkWrite d t n s = .next u ∧
      u = { s with fdcStat := statusByte s.cfg (outcomeCode .writeFailed so), secBuf := u.secBuf,
                   fs := u.fs, ledWrite := false, storage := u.storage, draws := u.draws,
                   signals := s.signals ++ [.ledWrite true, .ledWrite false], result := none } ∧
      u.fs = (s.admittedWrite d t n).2.fs ∧ ∀ q, q ≠ s.slot d.toNat → u.fileOf q = s.fileOf q := by
  obtain ⟨u, hu⟩ := execFdcblkWrite_completes hstall d t n
  obtain ⟨code, y, hy, rfl⟩ := State.finishSector_next hu
  have hans := (State.writeSector_of_pass hpass hstall).symm.trans hy
  simp only [Except.ok.injEq, Prod.mk.injEq, State.admittedWrite_code, hso] at hans
  obtain ⟨rfl, hfs⟩ := hans
  rcases State.writeSector_cases hy with ⟨hv, -⟩ | ⟨-, -, -, hframe, -, hother, -⟩
  · simp [hpass] at hv
  · refine ⟨_, hu, ?_, by rw [← hfs]; rfl, hother⟩
    rw [hframe]

end Sys2Proof.Machine
end

section
/-! The bytes that an admitted request moves: what a transfer reads back in memory and leaves in the image. -/

namespace Sys2Proof.Machine

variable {s : State} {d t n : Byte} {f : File}

/-- A memory byte is read through the cells, the epoch and the bank. -/
theorem State.memRead_congr {s t : State} (hmem : t.mem = s.mem) (hepoch : t.memEpoch = s.memEpoch)
    (hbank : t.bankSel = s.bankSel) (hcfg : t.cfg = s.cfg) (a : Addr) : t.memRead a = s.memRead a := by
  simp only [State.memRead, State.byteAt, State.phys, hmem, hepoch, hbank, hcfg]

@[simp] theorem State.memReadN_setLedWrite_outcomeTaken (s : State) (on : Bool) (a : Addr) (k : Nat) :
    (s.setLedWrite on).outcomeTaken.memReadN a k = s.memReadN a k := by
  simp only [State.memReadN]
  exact List.map_congr_left fun i _ => State.memRead_congr (by simp) (by simp) (by simp) (by simp) _

theorem State.admittedRead_of_ok (hf : s.fileOf (s.slot d.toNat) = some f)
    (hso : s.sectorOutcome true (s.slot d.toNat) (sectorOffset s.cfg t n) = .ok) :
    (s.admittedRead d t n).2 =
      ((s.setLedRead true).outcomeTaken.setSecBuf (f.read (sectorOffset s.cfg t n) s.cfg.secSz)).memWriteN
        s.fdcDmaAddr (f.read (sectorOffset s.cfg t n) s.cfg.secSz) := by
  simp [State.admittedRead, State.readTransfer, hso, hf]

theorem State.admittedRead_mem_of_ne_ok
    (hso : s.sectorOutcome true (s.slot d.toNat) (sectorOffset s.cfg t n) ≠ .ok) :
    (s.admittedRead d t n).2.mem = s.mem := by
  rw [State.admittedRead, State.readTransfer_mem_of_ne_ok hso]
  simp

/-- Where the sector lies inside the image, exactly its bytes are written. -/
theorem State.admittedWrite_fs_of_ok (hf : s.fileOf (s.slot d.toNat) = some f)
    (hin : sectorOffset s.cfg t n + s.cfg.secSz ≤ f.size) (hok : s.nextOutcome = .ok) :
    (s.admittedWrite d t n).2.fs = Fs.set (s.slot d.toNat)
      (f.write (sectorOffset s.cfg t n) (s.memReadN s.fdcDmaAddr s.cfg.secSz)) s.fs := by
  simp [State.admittedWrite, State.writeTransfer, State.sectorOutcome_write hf, hok, hf, File.writeSector, hin]

theorem State.admittedWrite_fs_of_short (hf : s.fileOf (s.slot d.toNat) = some f) (hshort : s.nextOutcome = .short) :
    ∃ k, (s.admittedWrite d t n).2.fs =
      Fs.set (s.slot d.toNat) (f.scramble (sectorOffset s.cfg t n) s.cfg.secSz k) s.fs :=
  ⟨(s.setLedWrite true).outcomeTaken.draws, by
    simp [State.admittedWrite, State.writeTransfer, State.sectorOutcome_write hf, hshort, hf]⟩

/-- An open or seek failure comes before anything is written. -/
theorem State.admittedWrite_fs_of_openFail_or_seekFail {so : StorageOutcome} (hfail : so = .openFail ∨ so = .seekFail)
    (hso : s.sectorOutcome false (s.slot d.toNat) (sectorOffset s.cfg t n) = so) :
    (s.admittedWrite d t n).2.fs = s.fs := by
  rcases hfail with rfl | rfl <;> simp [State.admittedWrite, State.writeTransfer, hso]

theorem State.fileOf_of_fs_eq_set {u : State} {p : Path} {g : File} (h : u.fs = Fs.set p g s.fs) :
    u.fileOf p = some g := by
  rw [State.fileOf, h, Fs.get_set, if_pos rfl]

end Sys2Proof.Machine
end

section

namespace Sys2Proof.Machine

/-- Settles O28: the checks of the model are the chain's own, one by one, and a code that comes out of them is stored with
no transfer. -/
theorem firstFailingCheckWins : Obligations.FirstFailingCheckWins := by
  intro s d t n hc reports
  have hrep {code : StatusCode} (h : s.validate d t n s.fdcDmaAddr = some code) : reports (statusByte s.cfg code) :=
    ⟨execFdcblkRead_of_validate_some h, execFdcblkWrite_of_validate_some h⟩
  have hsec := hc.sec_le
  have hsector : (n.toNat < 1 ∨ s.cfg.sptMax.toNat < n.toNat) ↔ (n.toNat = 0 ∨ s.cfg.sptMax.toNat < n.toNat) := by omega
  have hroom : s.cfg.dmaAddrLimit < s.fdcDmaAddr.toNat ↔ memSize < s.fdcDmaAddr.toNat + s.cfg.secSz := by
    rw [Config.dmaAddrLimit]
    omega
  split_ifs with h1 h2 h3 h4 h5
  · exact hrep (code := .badDrive) (by simp only [State.validate, if_pos h1])
  · exact hrep (code := .badTrack) (by simp only [State.validate, if_neg h1, if_pos h2])
  · exact hrep (code := .badSector) (by simp only [State.validate, hsector, if_neg h1, if_neg h2, if_pos h3])
  · exact hrep (code := .badDmaAddress)
      (by simp only [State.validate, hsector, hroom, if_neg h1, if_neg h2, if_neg h3, if_pos h4])
  · exact hrep (code := .noDisk)
      (by simp only [State.validate, hsector, hroom, if_neg h1, if_neg h2, if_neg h3, if_neg h4, if_pos h5])
  · rw [← State.validate_none_iff s d t n hsec]
    simp only [State.validate, hsector, hroom, if_neg h1, if_neg h2, if_neg h3, if_neg h4, if_neg h5]

/-- Settles O29: the transfer of an admitted read writes the sector's bytes in memory and is otherwise in its frame. -/
theorem sectorReadCopiesImageToMemory : Obligations.SectorReadCopiesImageToMemory := by
  intro s d t n f hc hadm hfile hstall hok
  have hso := (State.sectorOutcome_read_inside hfile.file hfile.inside).trans hok
  obtain ⟨u, hu, hframe, hmem, hout⟩ := execFdcblkRead_of_pass
    ((s.validate_none_iff d t n hc.sec_le).2 hadm) hstall hso
  refine ⟨u, hu, hframe, fun i hi => ?_, hout⟩
  calc u.memRead (s.fdcDmaAddr + BitVec.ofNat 16 i)
      = (s.admittedRead d t n).2.memRead (s.fdcDmaAddr + BitVec.ofNat 16 i) := by
        rw [State.admittedRead_of_ok hfile.file hso] at hmem ⊢
        apply State.memRead_congr hmem <;> rw [hframe] <;> simp
    _ = (f.read (sectorOffset s.cfg t n) s.cfg.secSz).getD i 0#8 := by
        rw [State.admittedRead_of_ok hfile.file hso,
          State.memRead_memWriteN (by simpa using hc.sec_le) (by simpa using hi)]
    _ = f.byte (sectorOffset s.cfg t n + i) := File.read_getD hi

/-- Settles O30: every outcome but `S_OK` gives its code and leaves memory; a missing file is an open failure, a sector not
inside the file a short read. -/
theorem failedReadLeavesMemory : Obligations.FailedReadLeavesMemory := by
  intro s d t n hc hadm hstall fails
  have hfails {so : StorageOutcome} (hne : so ≠ .ok)
      (hso : s.sectorOutcome true (s.slot d.toNat) (sectorOffset s.cfg t n) = so) :
      fails (statusByte s.cfg (outcomeCode .readFailed so)) := by
    obtain ⟨u, hu, hframe, hmem, -⟩ := execFdcblkRead_of_pass
      ((s.validate_none_iff d t n hc.sec_le).2 hadm) hstall hso
    rw [State.admittedRead_mem_of_ne_ok (hso ▸ hne)] at hmem
    exact ⟨u, hu, hmem ▸ hframe⟩
  have hown {f : File} {so : StorageOutcome} (hf : s.fileOf (s.slot d.toNat) = some f) (hne : so ≠ .ok)
      (h : s.nextOutcome = so) : fails (statusByte s.cfg (outcomeCode .readFailed so)) :=
    hfails hne ((State.sectorOutcome_read_of_ne_ok hf (h ▸ hne)).trans h)
  refine ⟨fun hnone => hfails (so := .openFail) (by simp) (State.sectorOutcome_of_no_file hnone), fun f hf =>
    ⟨hown (so := .openFail) hf (by simp), hown (so := .seekFail) hf (by simp), hown (so := .short) hf (by simp),
      fun hok hshort => hfails (so := .short) (by simp) ?_⟩⟩
  rw [State.sectorOutcome_read hf, if_pos ⟨hshort, hok⟩]

/-- Settles O31: the transfer of an admitted write stores the image with the sector's bytes replaced by those of memory. -/
theorem sectorWriteCopiesMemoryToImage : Obligations.SectorWriteCopiesMemoryToImage := by
  intro s d t n f hc hadm hfile hstall hok
  obtain ⟨u, hu, hframe, hfs, hother⟩ := execFdcblkWrite_of_pass
    ((s.validate_none_iff d t n hc.sec_le).2 hadm) hstall
    ((State.sectorOutcome_write hfile.file).trans hok)
  rw [State.admittedWrite_fs_of_ok hfile.file hfile.inside hok] at hfs
  refine ⟨u, _, hu, hframe, State.fileOf_of_fs_eq_set hfs, rfl, fun i => ?_, hother⟩
  rw [File.byte_write, State.memReadN_length]
  split_ifs with hi
  · exact State.memReadN_getD (by omega)
  · rfl

/-- Settles O32: an open or seek failure transfers nothing; a short write scrambles the addressed sector alone. -/
theorem failedWriteSparesOtherSectors : Obligations.FailedWriteSparesOtherSectors := by
  intro s d t n hc hadm hstall frame
  have hanswer {so : StorageOutcome}
      (hso : s.sectorOutcome false (s.slot d.toNat) (sectorOffset s.cfg t n) = so) :=
    execFdcblkWrite_of_pass ((s.validate_none_iff d t n hc.sec_le).2 hadm) hstall hso
  have hkept {so : StorageOutcome} (hfail : so = .openFail ∨ so = .seekFail)
      (hso : s.sectorOutcome false (s.slot d.toNat) (sectorOffset s.cfg t n) = so) :
      ∃ u, exec (.fdcblkWrite d t n) s = .next u ∧ frame u (statusByte s.cfg (outcomeCode .writeFailed so)) ∧
        u.fs = s.fs := by
    obtain ⟨u, hu, hframe, hfs, -⟩ := hanswer hso
    exact ⟨u, hu, hframe, hfs.trans (State.admittedWrite_fs_of_openFail_or_seekFail hfail hso)⟩
  refine ⟨fun hnone => hkept (.inl rfl) (State.sectorOutcome_of_no_file hnone), fun f hf =>
    ⟨fun ho => hkept (.inl rfl) ((State.sectorOutcome_write hf).trans ho),
      fun ho => hkept (.inr rfl) ((State.sectorOutcome_write hf).trans ho), fun ho => ?short⟩⟩
  case short =>
    obtain ⟨u, hu, hframe, hfs, hother⟩ := hanswer ((State.sectorOutcome_write hf).trans ho)
    obtain ⟨k, hk⟩ := State.admittedWrite_fs_of_short (t := t) (n := n) hf ho
    obtain ⟨hge, hle⟩ := File.size_scramble f (sectorOffset s.cfg t n) s.cfg.secSz k
    exact ⟨u, _, hu, hframe, State.fileOf_of_fs_eq_set (hfs.trans hk), hge, fun hin => by omega,
      fun i hi hout => File.byte_scramble f hi hout, hother⟩

/-- Settles O33: past the checks the stalled storage layer is the fault. -/
theorem stuckStorageHangsMachine : Obligations.StuckStorageHangsMachine := by
  intro s d t n hc hstall hadm
  have hpass := (s.validate_none_iff d t n hc.sec_le).2 hadm
  exact ⟨execFdcblkRead_of_stalled hpass hstall, execFdcblkWrite_of_stalled hpass hstall⟩

end Sys2Proof.Machine
end

section
/-! What a command block and a write to the command port can do, said once: the codes that a sector operation stores, the
registers that stay, and the memory and files outside the addressed ones (41_fdc.md R164, R169). -/

namespace Sys2Proof.Machine

variable {s u : State} {d t n : Byte} {code : StatusCode}

/-! ## The codes -/

/-- The codes of a sector operation whose short transfer has the code `short` (R164). -/
def sectorCodes (short : StatusCode) : List StatusCode :=
  [.ok, .badDrive, .badTrack, .badSector, .badDmaAddress, .noDisk, .seekFailed, short]

/-- FDC_STAT holds the byte of one of the codes. -/
def StatAmong (c : Config) (codes : List StatusCode) (u : State) : Prop :=
  u.fdcStat ∈ codes.map (statusByte c)

theorem mem_sectorCodes_of_check (short : StatusCode)
    (h : code ∈ [StatusCode.badDrive, .badTrack, .badSector, .badDmaAddress, .noDisk]) : code ∈ sectorCodes short := by
  simp only [List.mem_cons, List.not_mem_nil, or_false] at h
  rcases h with rfl | rfl | rfl | rfl | rfl <;> simp [sectorCodes]

theorem mem_sectorCodes_of_transfer {short : StatusCode} (h : code ∈ [StatusCode.ok, .noDisk, .seekFailed, short]) :
    code ∈ sectorCodes short := by
  simp only [List.mem_cons, List.not_mem_nil, or_false] at h
  rcases h with rfl | rfl | rfl | rfl <;> simp [sectorCodes]

/-- The nine bytes of a valid configuration are different, so the byte of `OK` is stored for `OK` alone (R159). -/
theorem eq_ok_of_statusByte_eq_stOk {c : Config} (hc : c.Valid) (h : statusByte c code = c.stOk) : code = .ok := by
  have hne := (List.nodup_cons.1 hc.codes).1
  cases code with
  | ok => rfl
  | badDrive | badTrack | badSector | badDmaAddress | noDisk | seekFailed | readFailed | writeFailed =>
    exact absurd (h ▸ by simp [statusByte]) hne

/-! ## The frame -/

/-- What is left alone of `s` by what writes only the FDC's own registers, the activity indicators, the memory of the DMA
range and the file `p`. -/
structure FdcFrame (s u : State) (p : Path) : Prop where
  eq : u = { s with
    fdcStat := u.fdcStat, fdcCmdAddr := u.fdcCmdAddr, fdcDmaAddr := u.fdcDmaAddr, fdcSeq := u.fdcSeq,
    fdcCmdBuf := u.fdcCmdBuf, secBuf := u.secBuf, mem := u.mem, fs := u.fs, ledRead := u.ledRead,
    ledWrite := u.ledWrite, storage := u.storage, draws := u.draws, signals := u.signals, result := u.result }
  outside : ∀ key, OutsideDma s s.fdcDmaAddr key → u.byteAt key = s.byteAt key
  files : ∀ q, q ≠ p → u.fileOf q = s.fileOf q

/-- A write to the sequencer and the address registers is within the frame. -/
theorem FdcFrame.of_registers {p : Path} (h : u = { s with
    fdcCmdAddr := u.fdcCmdAddr, fdcDmaAddr := u.fdcDmaAddr, fdcSeq := u.fdcSeq, result := u.result }) :
    FdcFrame s u p := by
  rw [h]
  exact ⟨rfl, fun _ _ => rfl, fun _ _ => rfl⟩

theorem FdcFrame.cfg {p : Path} (h : FdcFrame s u p) : u.cfg = s.cfg := by rw [h.eq]

/-- A command block, besides, leaves the sequencer, its own buffer and both address registers. -/
structure BlockFrame (s u : State) (p : Path) : Prop extends FdcFrame s u p where
  seq : u.fdcSeq = s.fdcSeq
  cmdBuf : u.fdcCmdBuf = s.fdcCmdBuf
  cmdAddr : u.fdcCmdAddr = s.fdcCmdAddr
  dmaAddr : u.fdcDmaAddr = s.fdcDmaAddr

theorem BlockFrame.refl (s : State) (p : Path) : BlockFrame s s p :=
  ⟨⟨rfl, fun _ _ => rfl, fun _ _ => rfl⟩, rfl, rfl, rfl, rfl⟩

theorem BlockFrame.withStatus {p : Path} (h : BlockFrame s u p) (b : Byte) :
    BlockFrame s { u with fdcStat := b, result := none } p :=
  { h with eq := by rw [h.eq] }

theorem State.readSector_frame (p : Path) (h : s.readSector d t n s.fdcDmaAddr = .ok (code, u)) :
    BlockFrame s u p ∧ code ∈ sectorCodes .readFailed := by
  rcases State.readSector_cases h with ⟨hv, rfl⟩ | ⟨-, -, hcode, hu, -, hout, -⟩
  · exact ⟨BlockFrame.refl u p, mem_sectorCodes_of_check _ (State.validate_some hv)⟩
  · refine ⟨?_, mem_sectorCodes_of_transfer hcode⟩
    rw [hu] at hout ⊢
    exact ⟨⟨rfl, hout, fun _ _ => rfl⟩, rfl, rfl, rfl, rfl⟩

theorem State.writeSector_frame (h : s.writeSector d t n s.fdcDmaAddr = .ok (code, u)) :
    BlockFrame s u (s.slot d.toNat) ∧ code ∈ sectorCodes .writeFailed := by
  rcases State.writeSector_cases h with ⟨hv, rfl⟩ | ⟨-, -, hcode, hu, -, hother, -⟩
  · exact ⟨BlockFrame.refl u _, mem_sectorCodes_of_check _ (State.validate_some hv)⟩
  · refine ⟨?_, mem_sectorCodes_of_transfer hcode⟩
    rw [hu] at hother ⊢
    exact ⟨⟨rfl, fun _ _ => rfl, hother⟩, rfl, rfl, rfl, rfl⟩

/-- A command block that ends: in its frame, with one of its codes in FDC_STAT. -/
theorem State.finishSector_frame {p : Path} {codes : List StatusCode} {r : Except Fault (StatusCode × State)}
    (h : ∀ code u, r = .ok (code, u) → BlockFrame s u p ∧ code ∈ codes) :
    NextMeets (fun u => BlockFrame s u p ∧ StatAmong s.cfg codes u) (State.finishSector r) := by
  intro _ hu
  obtain ⟨code, y, hr, rfl⟩ := State.finishSector_next hu
  obtain ⟨hframe, hcode⟩ := h code y hr
  exact ⟨hframe.withStatus _, hframe.cfg ▸ List.mem_map_of_mem hcode⟩

theorem execFdcblkRead_frame (d t n : Byte) (s : State) (p : Path) :
    NextMeets (fun u => BlockFrame s u p ∧ StatAmong s.cfg (sectorCodes .readFailed) u) (execFdcblkRead d t n s) :=
  State.finishSector_frame fun _ _ => State.readSector_frame p

theorem execFdcblkWrite_frame (d t n : Byte) (s : State) :
    NextMeets (fun u => BlockFrame s u (s.slot d.toNat) ∧ StatAmong s.cfg (sectorCodes .writeFailed) u)
      (execFdcblkWrite d t n s) :=
  State.finishSector_frame fun _ _ => State.writeSector_frame

theorem execFdcblkOther_frame (k d t n : Byte) (s : State) (p : Path) :
    NextMeets (BlockFrame s · p) (execFdcblkOther k d t n s) :=
  .next ((BlockFrame.refl s p).withStatus s.fdcStat)

theorem NextMeets.mono {P Q : State → Prop} {r : Result} (h : NextMeets P r) (hPQ : ∀ t, P t → Q t) : NextMeets Q r :=
  fun t ht => hPQ t (h t ht)

/-- The image of the drive that the block at FDC_CMDADDR names. -/
def State.blockPath (s : State) : Path := s.slot s.fetchBlock.drive.toNat

/-- `EXEC` is the fetched block's operation on the state that holds the block in FDC_CMDBUF. -/
theorem execFdcExec_frame (s : State) :
    NextMeets (BlockFrame { s with fdcCmdBuf := s.fetchBlock } · s.blockPath) (execFdcExec s) :=
  .ite (fun _ => (execFdcblkRead_frame _ _ _ _ _).mono fun _ h => h.1) fun _ =>
    .ite (fun _ => (execFdcblkWrite_frame _ _ _ _).mono fun _ h => h.1) fun _ => execFdcblkOther_frame _ _ _ _ _ _

theorem execFdcAddrbyte_frame (b : Byte) (s : State) (p : Path) :
    NextMeets (FdcFrame s · p) (execFdcAddrbyte b s) := by
  unfold execFdcAddrbyte
  split <;> exact .next (.of_registers rfl)

theorem execOutFdcCmd_frame (v : Byte) (s : State) : NextMeets (FdcFrame s · s.blockPath) (execOutFdcCmd v s) := by
  have hown {u : State} : BlockFrame { s with fdcCmdBuf := s.fetchBlock } u s.blockPath → FdcFrame s u s.blockPath :=
    fun h => { h.toFdcFrame with }
  unfold execOutFdcCmd
  split
  · exact .ite (fun _ => .next (.of_registers rfl)) fun _ =>
      .ite (fun _ => .next (.of_registers rfl)) fun _ =>
        .ite (fun _ => (execFdcExec_frame s).mono fun _ => hown) fun _ =>
          .next (.of_registers rfl)
  all_goals exact execFdcAddrbyte_frame v s _

/-! ## EXEC by the kind of its block -/

theorem execFdcExec_of_kindRead (h : s.fetchBlock.kind = s.cfg.kindRead) :
    execFdcExec s = execFdcblkRead s.fetchBlock.drive s.fetchBlock.track s.fetchBlock.sector
      { s with fdcCmdBuf := s.fetchBlock } := if_pos h

theorem execFdcExec_of_kindWrite (hr : s.fetchBlock.kind ≠ s.cfg.kindRead) (h : s.fetchBlock.kind = s.cfg.kindWrite) :
    execFdcExec s = execFdcblkWrite s.fetchBlock.drive s.fetchBlock.track s.fetchBlock.sector
      { s with fdcCmdBuf := s.fetchBlock } := (if_neg hr).trans (if_pos h)

theorem execFdcExec_of_other (hr : s.fetchBlock.kind ≠ s.cfg.kindRead) (hw : s.fetchBlock.kind ≠ s.cfg.kindWrite) :
    execFdcExec s = .next { s with fdcCmdBuf := s.fetchBlock, result := none } := (if_neg hr).trans (if_neg hw)

/-! ## Operations that report OK -/

/-- No check has the code OK. -/
theorem State.validate_ne_ok {addr : Addr} : s.validate d t n addr ≠ some .ok := fun h => by
  simpa using State.validate_some h

theorem State.nextOutcome_of_sectorOutcome_ok {reading : Bool} {p : Path} {off : Nat}
    (h : s.sectorOutcome reading p off = .ok) : s.nextOutcome = .ok := by
  unfold State.sectorOutcome at h
  split at h
  · cases h
  · split_ifs at h
    exact h

/-- The request was admitted, and the storage layer answered it with `S_OK`. -/
structure Succeeds (s : State) (d t n : Byte) : Prop where
  admitted : Admitted s d t n
  answers : s.storageStalled = false
  outcome : s.nextOutcome = .ok

theorem succeeds_of_read_ok (hc : s.cfg.Valid) (h : execFdcblkRead d t n s = .next u) (hstat : u.fdcStat = s.cfg.stOk) :
    Succeeds s d t n := by
  obtain ⟨code, y, hy, rfl⟩ := State.finishSector_next h
  obtain rfl : code = .ok := eq_ok_of_statusByte_eq_stOk hc ((State.readSector_frame [] hy).1.cfg ▸ hstat)
  rcases State.readSector_cases hy with ⟨hv, -⟩ | ⟨hpass, hstall, -⟩
  · exact absurd hv State.validate_ne_ok
  · have hans := (State.readSector_of_pass hpass hstall).symm.trans hy
    simp only [Except.ok.injEq, Prod.mk.injEq, State.admittedRead_code] at hans
    exact ⟨(s.validate_none_iff d t n hc.sec_le).1 hpass, hstall,
      State.nextOutcome_of_sectorOutcome_ok (eq_ok_of_outcomeCode_eq_ok (by simp) hans.1)⟩

theorem succeeds_of_write_ok (hc : s.cfg.Valid) (h : execFdcblkWrite d t n s = .next u)
    (hstat : u.fdcStat = s.cfg.stOk) : Succeeds s d t n := by
  obtain ⟨code, y, hy, rfl⟩ := State.finishSector_next h
  obtain rfl : code = .ok := eq_ok_of_statusByte_eq_stOk hc ((State.writeSector_frame hy).1.cfg ▸ hstat)
  rcases State.writeSector_cases hy with ⟨hv, -⟩ | ⟨hpass, hstall, -⟩
  · exact absurd hv State.validate_ne_ok
  · have hans := (State.writeSector_of_pass hpass hstall).symm.trans hy
    simp only [Except.ok.injEq, Prod.mk.injEq, State.admittedWrite_code] at hans
    exact ⟨(s.validate_none_iff d t n hc.sec_le).1 hpass, hstall,
      State.nextOutcome_of_sectorOutcome_ok (eq_ok_of_outcomeCode_eq_ok (by simp) hans.1)⟩

end Sys2Proof.Machine
end

section
/-! The command port byte by byte (41_fdc.md R151 to R158). -/

namespace Sys2Proof.Machine

variable {s : State}

theorem exec_outFdcCmd_of_idle (h : s.fdcSeq = .idle) (v : Byte) :
    exec (.outFdcCmd v) s = exec (decodeFdcOp s.cfg v) s :=
  (execOutFdcCmd_eq_exec s v).trans (by rw [h]; rfl)

theorem exec_outFdcCmd_of_ne_idle (h : s.fdcSeq ≠ .idle) (v : Byte) :
    exec (.outFdcCmd v) s = exec (.fdcAddrbyte v) s :=
  (execOutFdcCmd_eq_exec s v).trans (by rw [fdcCode_of_ne_idle h]; rfl)

theorem execSeq_cons {i : Instr} {is : List Instr} {u : State} (h : exec i s = .next u) :
    execSeq (i :: is) s = execSeq is u := by
  rw [execSeq, h]

/-- Both halves replaced, nothing is left of the old address. -/
theorem setHighByte_setLowByte (a : Addr) (lo hi : Byte) : setHighByte (setLowByte a lo) hi = addrOf hi lo := by
  rw [setHighByte, setLowByte, addrOf, BitVec.extractLsb'_append_eq_right]

/-- From the states that SETCMD and SETDMA move to, two bytes load the whole address register. -/
theorem execSeq_addrBytes_cmd (s : State) (lo hi : Byte) :
    execSeq [.outFdcCmd lo, .outFdcCmd hi] { s with fdcSeq := .cmdLo } =
      .next { s with fdcSeq := .idle, fdcCmdAddr := addrOf hi lo, result := none } := by
  rw [← setHighByte_setLowByte s.fdcCmdAddr lo hi]
  rfl

theorem execSeq_addrBytes_dma (s : State) (lo hi : Byte) :
    execSeq [.outFdcCmd lo, .outFdcCmd hi] { s with fdcSeq := .dmaLo } =
      .next { s with fdcSeq := .idle, fdcDmaAddr := addrOf hi lo, result := none } := by
  rw [← setHighByte_setLowByte s.fdcDmaAddr lo hi]
  rfl

/-- Addresses wrap modulo MEM_SIZE (R157). -/
theorem addr_add_ofNat (a : Addr) (k : Nat) : a + BitVec.ofNat 16 k = BitVec.ofNat 16 ((a.toNat + k) % memSize) := by
  apply BitVec.eq_of_toNat_eq
  simp [memSize]

end Sys2Proof.Machine
end

section

namespace Sys2Proof.Machine

/-- Settles O34: the fetched block's operation completes in its frame, with one of its direction's codes. -/
theorem execStoresOneCode : Obligations.ExecStoresOneCode := by
  intro s hstall
  obtain ⟨u, hu⟩ := execFdcExec_completes hstall
  refine ⟨fun hr => ?read, fun hw hne => ?write⟩
  case read =>
    obtain ⟨hframe, hcode⟩ := execFdcblkRead_frame _ _ _ _ s.blockPath u (execFdcExec_of_kindRead hr ▸ hu)
    exact ⟨u, hu, hframe.seq, hframe.cmdBuf, hcode⟩
  case write =>
    obtain ⟨hframe, hcode⟩ := execFdcblkWrite_frame _ _ _ _ u (execFdcExec_of_kindWrite (hw ▸ hne) hw ▸ hu)
    exact ⟨u, hu, hframe.seq, hframe.cmdBuf, hcode⟩

/-- Settles O35: each operation, having reported OK, moved the sector's bytes: the write left them in the image, and the read
took them from it. -/
theorem sectorRoundTrip : Obligations.SectorRoundTrip := by
  intro s u v w d t n f hc hfile hwrite hwok hcfg hslot hsame hread hrok i hi
  have hws := succeeds_of_write_ok hc hwrite hwok
  obtain ⟨u', g, hu', hframe, hg, hsize, hbytes, -⟩ :=
    sectorWriteCopiesMemoryToImage s d t n f hc hws.admitted hfile hws.answers hws.outcome
  obtain rfl : u = u' := Host.Outcome.next.inj (hwrite.symm.trans hu')
  have hucfg : v.cfg = s.cfg := hcfg.trans (by rw [hframe])
  have huslot : u.slot d.toNat = s.slot d.toNat := by rw [hframe]; rfl
  have hvfile : SectorInFile v d t n g :=
    ⟨by rw [hslot, hsame, huslot, hg], by rw [hucfg, hsize]; exact hfile.inside⟩
  have hrs := succeeds_of_read_ok (hucfg ▸ hc) hread (hucfg ▸ hrok)
  obtain ⟨w', hw', -, hmem, -⟩ :=
    sectorReadCopiesImageToMemory v d t n g (hucfg ▸ hc) hrs.admitted hvfile hrs.answers hrs.outcome
  obtain rfl : w = w' := Host.Outcome.next.inj (hread.symm.trans hw')
  rw [hmem i (hucfg ▸ hi), hbytes, hucfg, if_pos (by omega), Nat.add_sub_cancel_left]

/-- Settles O37: the frame of the command port. -/
theorem fdcTouchesOnlyItsOwn : Obligations.FdcTouchesOnlyItsOwn := by
  intro s u v h
  obtain ⟨heq, hmem, hfiles⟩ := execOutFdcCmd_frame v s u h
  refine ⟨?_, ?_, ?_, ?_, ?_, ?_, ?_, ?_, ?_, ?_, ?_, ?_, hmem, hfiles⟩ <;> rw [heq]

/-- Settles O22: the meaning of the row is one answer. -/
theorem fdcStatusReadReturnsCode : Obligations.FdcStatusReadReturnsCode := fun _ => rfl

/-- Settles O23: three rows have one meaning, and the address byte has the one of each sequencer state. -/
theorem fdcSequencerMoves : Obligations.FdcSequencerMoves := by
  refine fun s b => ⟨rfl, rfl, rfl, ?_⟩
  cases hseq : s.fdcSeq with
  | idle => simp only [exec, execFdcAddrbyte, State.noAnswer, hseq]
  | cmdLo | cmdHi | dmaLo | dmaHi =>
    simp only [exec, execFdcAddrbyte, State.noAnswer, hseq]
    rfl

/-- Settles O24: in `IDLE` the byte is the row that the decoder reads in it, elsewhere an address byte. -/
theorem commandPortCompletes : Obligations.CommandPortCompletes := by
  intro s hc
  obtain ⟨hsetcmd, hsetdma, hexec⟩ := decodeFdcOp_ops hc
  refine ⟨fun hidle => ?idle, fun hne b => ?address⟩
  case address =>
    obtain ⟨-, -, -, haddr⟩ := fdcSequencerMoves s b
    exact (exec_outFdcCmd_of_ne_idle hne b).trans haddr
  case idle =>
    have hrow := exec_outFdcCmd_of_idle hidle
    have hrun : exec (.outFdcCmd s.cfg.opExec) s = execFdcExec s := (hrow _).trans (by rw [hexec]; rfl)
    refine ⟨(hrow _).trans (by rw [hsetcmd]; rfl), (hrow _).trans (by rw [hsetdma]; rfl),
      fun b hb => (hrow b).trans (by rw [decodeFdcOp_of_not_op hb]; rfl), hrun, fun hstall => ?_⟩
    obtain ⟨u, hu⟩ := execFdcExec_completes hstall
    have hframe := execFdcExec_frame s u hu
    exact ⟨u, hrun.trans hu, hframe.seq.trans hidle, hframe.cmdBuf, hframe.cmdAddr, hframe.dmaAddr⟩

/-- Settles O25: the operation byte moves the sequencer, and the two address bytes load the register and end in `IDLE`. -/
theorem threeBytesLoadAddress : Obligations.ThreeBytesLoadAddress := by
  intro s lo hi hc hidle
  obtain ⟨hsetcmd, hsetdma, -⟩ := (commandPortCompletes s hc).1 hidle
  rw [execSeq_cons hsetcmd, execSeq_cons hsetdma, execSeq_addrBytes_cmd { s with result := none },
    execSeq_addrBytes_dma { s with result := none }, ← hidle]
  exact ⟨rfl, rfl⟩

/-- Settles O27: the four addresses of the fetch wrap, and the row of another kind writes no register. -/
theorem fetchWrapsAndOtherKindIgnored : Obligations.FetchWrapsAndOtherKindIgnored := by
  refine ⟨fun s a ha => ?_, fun _ _ _ _ _ => rfl, fun s hr hw => execFdcExec_of_other hr hw⟩
  subst ha
  simp only [← addr_add_ofNat, BitVec.ofNat_toNat, BitVec.setWidth_eq]
  exact ⟨rfl, rfl, rfl, rfl⟩

end Sys2Proof.Machine
end

section
/-! The bank selector: the packed byte that is read, what the two rows of the MMU port do, and which rows leave BANK_SEL
alone (42_mmu.md R190 to R193). -/

namespace Sys2Proof.Machine

variable {s u : State}

/-! ## The MMU port -/

/-- The packed byte as a number: NUMSEG above the four bits of BANK_SEL. -/
theorem State.mmuByte_toNat (s : State) : s.mmuByte.toNat = 16 * s.cfg.numSeg.toNat + s.bankSel.toNat := by
  rw [State.mmuByte, BitVec.toNat_append, ← Nat.shiftLeft_add_eq_or_of_lt s.bankSel.isLt, Nat.shiftLeft_eq, Nat.mul_comm]

theorem hasBank_iff {c : Config} {v : Byte} : c.hasBank v = true ↔ v.toNat ≤ c.numSeg.toNat :=
  decide_eq_true_iff

/-- An existing bank's number fits the four bits of BANK_SEL, as NUMSEG does. -/
theorem toNat_setWidth_of_le_numSeg {c : Config} {v : Byte} (h : v.toNat ≤ c.numSeg.toNat) :
    (v.setWidth 4).toNat = v.toNat :=
  (BitVec.toNat_setWidth 4 v).trans (Nat.mod_eq_of_lt (h.trans_lt c.numSeg.isLt))

theorem execOutMmuBankExists_of_le {v : Byte} (h : v.toNat ≤ s.cfg.numSeg.toNat) :
    execOutMmuBankExists v s = .next { s with bankSel := v.setWidth 4, result := none } :=
  if_pos (hasBank_iff.2 h)

theorem execOutMmuNoSuchBank_of_lt {v : Byte} (h : s.cfg.numSeg.toNat < v.toNat) :
    execOutMmuNoSuchBank v s = .next (s.noAnswer.haltCpu .ioError) :=
  if_neg (hasBank_iff.not.2 h.not_ge)

/-- The MMU port's `OUT` word of an existing bank is the row that selects it. -/
theorem decode_outWord_pMmu_of_le {c : Config} (hc : c.Valid) {v : Byte} (h : v.toNat ≤ c.numSeg.toNat) :
    decode c (outWord c.pMmu v) = .outMmuBankExists v := by
  rw [decode_outWord, portOut_pMmu hc, mmuRow_eq]
  exact if_pos (hasBank_iff.2 h)

/-- Under bank 0 every address is its own byte of BANK0 (20_memory.md R61). -/
theorem State.memRead_of_bank_zero (h : s.bankSel = 0#4) (a : Addr) : s.memRead a = s.byteAt a.toNat :=
  congrArg s.byteAt (if_pos (.inl h))

/-! ## The rows that leave BANK_SEL alone -/

/-- BANK_SEL of `t` is that of `s`. -/
def KeepsBank (s t : State) : Prop := t.bankSel = s.bankSel

theorem FdcFrame.keepsBank {p : Path} (h : FdcFrame s u p) : KeepsBank s u := by
  rw [KeepsBank, h.eq]

theorem execFdcblkRead_keepsBank (d t n : Byte) (s : State) : NextMeets (KeepsBank s) (execFdcblkRead d t n s) :=
  (execFdcblkRead_frame d t n s []).mono fun _ h => h.1.keepsBank

theorem execFdcblkWrite_keepsBank (d t n : Byte) (s : State) : NextMeets (KeepsBank s) (execFdcblkWrite d t n s) :=
  (execFdcblkWrite_frame d t n s).mono fun _ h => h.1.keepsBank

theorem execFdcExec_keepsBank (s : State) : NextMeets (KeepsBank s) (execFdcExec s) :=
  (execFdcExec_frame s).mono fun _ h => h.keepsBank

theorem execFdcAddrbyte_keepsBank (b : Byte) (s : State) : NextMeets (KeepsBank s) (execFdcAddrbyte b s) :=
  (execFdcAddrbyte_frame b s []).mono fun _ h => h.keepsBank

theorem execOutFdcCmd_keepsBank (v : Byte) (s : State) : NextMeets (KeepsBank s) (execOutFdcCmd v s) :=
  (execOutFdcCmd_frame v s).mono fun _ h => h.keepsBank

@[simp] theorem State.conTake_bankSel (s : State) : s.conTake.bankSel = s.bankSel := by
  rw [State.conTake_eq]

theorem execOutFp2_keepsBank (v : Byte) (s : State) : NextMeets (KeepsBank s) (execOutFp2 v s) := by
  cases hmode : s.cfg.fp2Mode with
  | switches => exact execOutFp2_of_switches hmode v ▸ .next rfl
  | mirrorRo => exact execOutFp2_of_mirrorRo hmode v ▸ .next rfl

@[simp] theorem State.switchIfBoth_bankSel (s : State) (m : CpuModel) : (s.switchIfBoth m).bankSel = s.bankSel := by
  unfold State.switchIfBoth
  split_ifs <;> rfl

theorem execHwKeybyte_keepsBank (s : State) : NextMeets (KeepsBank s) (execHwKeybyte s) := by
  unfold execHwKeybyte
  split <;> exact .next rfl

theorem execHwZ80_keepsBank (low : BitVec 5) (s : State) : NextMeets (KeepsBank s) (execHwZ80 low s) :=
  .next (s.relock.switchIfBoth_bankSel .z80)

theorem execHwI8080_keepsBank (low : BitVec 4) (s : State) : NextMeets (KeepsBank s) (execHwI8080 low s) :=
  .next (s.relock.switchIfBoth_bankSel .i8080)

/-- A byte written to the hardware control port is the reset command: unlocked, and bit 6 is its first set command bit
(43_hwctl.md R203, R205). -/
def ResetsByPort (s : State) (v : Byte) : Prop :=
  s.hwctlLock = .unlocked ∧ v.getLsbD 7 = false ∧ v.getLsbD 6 = true

/-- The hardware control port keeps the bank selector on every branch but the reset command's. -/
theorem execOutHwctl_keepsBank (v : Byte) (s : State) :
    NextMeets (fun t => KeepsBank s t ∨ ResetsByPort s v) (execOutHwctl v s) := by
  unfold execOutHwctl
  split
  next => exact .ite (fun _ => .next (.inl rfl)) fun _ => .next (.inl rfl)
  next hlock =>
    exact .ite (fun _ => (execHwKeybyte_keepsBank s).mono fun _ => .inl) fun _ =>
      .ite (fun _ => .next (.inl rfl)) fun hbit7 =>
        .ite (fun hbit6 _ _ => .inr ⟨hlock, Bool.eq_false_of_not_eq_true hbit7, hbit6⟩) fun _ =>
          .ite (fun _ => (execHwZ80_keepsBank _ s).mono fun _ => .inl) fun _ =>
            .ite (fun _ => (execHwI8080_keepsBank _ s).mono fun _ => .inl) fun _ => .next (.inl rfl)

/-- Every row but the three that can select a bank; the last case holds those whose meaning is one next state. -/
theorem exec_keepsBank {i : Instr} (hmmu : ∀ v, i ≠ .outMmuBankExists v) (hreset : ∀ low, i ≠ .hwReset low)
    (hport : ∀ v, i ≠ .outHwctl v) (s : State) : NextMeets (KeepsBank s) (exec i s) := by
  cases i
  case outMmuBankExists v => exact absurd rfl (hmmu v)
  case hwReset low => exact absurd rfl (hreset low)
  case outHwctl v => exact absurd rfl (hport v)
  case inConData => exact .next s.conTake_bankSel
  case outFdcCmd v => exact execOutFdcCmd_keepsBank v s
  case outMmuNoSuchBank => exact .ite (fun _ => .next rfl) fun _ => .next rfl
  case outFp2 v => exact execOutFp2_keepsBank v s
  case fdcExec => exact execFdcExec_keepsBank s
  case fdcAddrbyte b => exact execFdcAddrbyte_keepsBank b s
  case hwKeybyte => exact execHwKeybyte_keepsBank s
  case hwZ80 low => exact execHwZ80_keepsBank low s
  case hwI8080 low => exact execHwI8080_keepsBank low s
  case fdcblkRead d t n => exact execFdcblkRead_keepsBank d t n s
  case fdcblkWrite d t n => exact execFdcblkWrite_keepsBank d t n s
  all_goals exact .next rfl

end Sys2Proof.Machine
end

section

namespace Sys2Proof.Machine

/-- Settles O20: the rows that can select a bank are the two named ones and the hardware control port, which selects one
only as the reset command. -/
theorem onlyMmuAndResetWriteBank : Obligations.OnlyMmuAndResetWriteBank := by
  intro i s t h
  cases i
  case outMmuBankExists v => exact .inr (.inl ⟨v, rfl⟩)
  case hwReset low => exact .inr (.inr (.inl ⟨low, rfl⟩))
  case outHwctl v => exact (execOutHwctl_keepsBank v s t h).imp_right fun hreset => .inr (.inr ⟨v, rfl, hreset⟩)
  all_goals exact .inl (exec_keepsBank (by simp) (by simp) (by simp) s t h)

/-- Settles O17: the read answers the packed byte. -/
theorem mmuReadPacksBanks : Obligations.MmuReadPacksBanks :=
  fun s => ⟨s.mmuByte, rfl, s.mmuByte_toNat⟩

/-- Settles O18: the value passes the compare with NUMSEG in the decoder and in the row, and bank 0 is the base map. -/
theorem mmuWriteSelectsBank : Obligations.MmuWriteSelectsBank := by
  intro s v hc hle
  refine ⟨decode_outWord_pMmu_of_le hc hle, v.setWidth 4, toNat_setWidth_of_le_numSeg hle,
    execOutMmuBankExists_of_le hle, fun hzero a => ?_⟩
  exact State.memRead_of_bank_zero (by rw [hzero]; rfl) a

/-- Settles O19: the value fails the compare, and the halt writes the two CPU fields. -/
theorem mmuBadBankStopsCpu : Obligations.MmuBadBankStopsCpu :=
  fun _ _ h => execOutMmuNoSuchBank_of_lt h

end Sys2Proof.Machine
end

section
/-! The hardware control port: what each row does, what an `OUT` of either lock state runs, and what the port and every
other transaction leave alone (43_hwctl.md R200 to R212). -/

namespace Sys2Proof.Machine

variable {s : State}

/-! ## The byte written is its row -/

theorem exec_outHwctl_of_locked (h : s.hwctlLock = .locked) (v : Byte) :
    exec (.outHwctl v) s = exec (decodeHwKey v) s :=
  (execOutHwctl_eq_exec s v).trans (by rw [h]; rfl)

theorem exec_outHwctl_of_unlocked (h : s.hwctlLock = .unlocked) {v : Byte} {i : Instr} (hrow : decodeHwCmd v = i) :
    exec (.outHwctl v) s = exec i s :=
  (execOutHwctl_eq_exec s v).trans (by rw [h]; exact congrArg (exec · s) hrow)

/-- The one transition of a `LOCKED` port: the key opens it, and every other byte leaves it `LOCKED` (R201, R202). -/
theorem exec_outHwctl_locked_eq (h : s.hwctlLock = .locked) (v : Byte) :
    exec (.outHwctl v) s =
      .next { s with hwctlLock := if v = Config.magic then .unlocked else .locked, result := none } := by
  rw [exec_outHwctl_of_locked h, decodeHwKey]
  split_ifs with hkey
  · rfl
  · rw [← h]
    rfl

theorem decode_outWord_pHwctl {c : Config} (hc : c.Valid) (v : Byte) : decode c (outWord c.pHwctl v) = .outHwctl v :=
  decode_outWord_of_mem hc (by simp [portOutRows]) v

/-! ## The command rows that choose -/

/-- The re-lock comes first, and the switch needs both models in the build (R206, R207, R209). -/
theorem State.relock_switchIfBoth_eq (s : State) (m : CpuModel) :
    s.relock.switchIfBoth m =
      if s.cfg.hasZ80 = true ∧ s.cfg.has8080 = true then
        { s with hwctlLock := .locked, cpu := { s.cpu with model := m }, signals := s.signals ++ [.switchCpu m],
                 result := none }
      else { s with hwctlLock := .locked, result := none } := by
  simp only [State.switchIfBoth, Bool.and_eq_true]
  rfl

theorem exec_hwKeybyte_of_decode (h : s.cfg.doubleUnlock = .decode) :
    exec .hwKeybyte s = .next (s.relock.haltCpu .ioHalt) := by
  simp only [exec, execHwKeybyte, h]

theorem exec_hwKeybyte_of_noop (h : s.cfg.doubleUnlock = .noop) : exec .hwKeybyte s = .next s.relock := by
  simp only [exec, execHwKeybyte, h]

/-! ## What the port leaves alone -/

/-- `t` is `s` but for the lock, the bank selector, the CPU interface, memory, the signals and the draws (R212). -/
def HwctlFrame (s t : State) : Prop :=
  t = { s with
    hwctlLock := t.hwctlLock, bankSel := t.bankSel, cpu := t.cpu, mem := t.mem, memEpoch := t.memEpoch,
    draws := t.draws, signals := t.signals, result := none }

/-- What an accepted command does: the port is `LOCKED` again (R203), and the port's frame holds. -/
structure CommandEffect (s t : State) : Prop where
  relocked : t.hwctlLock = .locked
  frame : HwctlFrame s t

theorem State.relock_switchIfBoth_effect (s : State) (m : CpuModel) : CommandEffect s (s.relock.switchIfBoth m) := by
  rw [State.relock_switchIfBoth_eq]
  split_ifs <;> exact ⟨rfl, rfl⟩

theorem exec_hwKeybyte_effect (s : State) : NextMeets (CommandEffect s) (exec .hwKeybyte s) := by
  cases hpar : s.cfg.doubleUnlock with
  | decode => exact exec_hwKeybyte_of_decode hpar ▸ .next ⟨rfl, rfl⟩
  | noop => exact exec_hwKeybyte_of_noop hpar ▸ .next ⟨rfl, rfl⟩

/-- Each of the six rows that a command byte can be. -/
theorem exec_decodeHwCmd_effect (v : Byte) (s : State) : NextMeets (CommandEffect s) (exec (decodeHwCmd v) s) := by
  unfold decodeHwCmd
  split_ifs
  · exact exec_hwKeybyte_effect s
  · exact .next ⟨rfl, rfl⟩
  · exact .next ⟨rfl, rfl⟩
  · exact .next (s.relock_switchIfBoth_effect .z80)
  · exact .next (s.relock_switchIfBoth_effect .i8080)
  · exact .next ⟨rfl, rfl⟩

theorem exec_outHwctl_frame (v : Byte) (s : State) : NextMeets (HwctlFrame s) (exec (.outHwctl v) s) := by
  cases hlock : s.hwctlLock with
  | locked => exact exec_outHwctl_locked_eq hlock v ▸ .next rfl
  | unlocked =>
    rw [exec_outHwctl_of_unlocked hlock rfl]
    exact (exec_decodeHwCmd_effect v s).mono fun _ h => h.frame

/-! ## What leaves the lock alone -/

/-- HWCTL_LOCK of `t` is that of `s`. -/
def KeepsLock (s t : State) : Prop := t.hwctlLock = s.hwctlLock

theorem FdcFrame.keepsLock {t : State} {p : Path} (h : FdcFrame s t p) : KeepsLock s t := by
  rw [KeepsLock, h.eq]

theorem State.conTake_keepsLock (s : State) : KeepsLock s s.conTake := by
  rw [KeepsLock, State.conTake_eq]

theorem execOutFp2_keepsLock (v : Byte) (s : State) : NextMeets (KeepsLock s) (execOutFp2 v s) := by
  cases hmode : s.cfg.fp2Mode with
  | switches => exact execOutFp2_of_switches hmode v ▸ .next rfl
  | mirrorRo => exact execOutFp2_of_mirrorRo hmode v ▸ .next rfl

/-- Every level-1 row but the port's own `OUT`: the rows whose code is no transaction word are those of the command bytes
and blocks, and the last case holds the rows whose meaning is one next state. -/
theorem exec_keepsLock {c : Config} {i : Instr} {w : BitVec 17} (hio : encode c i = .io w) (hport : ∀ v, i ≠ .outHwctl v)
    (s : State) : NextMeets (KeepsLock s) (exec i s) := by
  cases i
  case outHwctl v => exact absurd rfl (hport v)
  case inConData => exact .next s.conTake_keepsLock
  case outFdcCmd v => exact (execOutFdcCmd_frame v s).mono fun _ h => h.keepsLock
  case outMmuBankExists | outMmuNoSuchBank => exact .ite (fun _ => .next rfl) fun _ => .next rfl
  case outFp2 v => exact execOutFp2_keepsLock v s
  case fdcSetcmd | fdcSetdma | fdcExec | fdcIgnored | fdcAddrbyte | hwkeyUnlock | hwkeyIgnored | hwKeybyte | hwHalt |
      hwReset | hwZ80 | hwI8080 | hwNop | fdcblkRead | fdcblkWrite | fdcblkOther => cases hio
  all_goals exact .next rfl

end Sys2Proof.Machine
end

section

namespace Sys2Proof.Machine

/-- Settles O46: a `LOCKED` port has one transition, an `UNLOCKED` one runs a command row, which re-locks, and the row of
every other transaction word keeps the lock. -/
theorem oneCommandPerUnlock : Obligations.OneCommandPerUnlock := by
  refine ⟨fun s t v ht => ⟨fun hlock => ?locked, fun hlock => ?unlocked, ?frame⟩, fun s t c w hport ht => ?other⟩
  case locked => exact (Host.Outcome.next.inj ((exec_outHwctl_locked_eq hlock v).symm.trans ht)).symm
  case unlocked => exact (exec_decodeHwCmd_effect v s t (exec_outHwctl_of_unlocked hlock rfl ▸ ht)).relocked
  case frame =>
    have hframe : HwctlFrame s t := exec_outHwctl_frame v s t ht
    refine ⟨?_, ?_, ?_, ?_, ?_, ?_, ?_, ?_, ?_⟩ <;> rw [hframe]
  case other => exact exec_keepsLock (decode_encodes c (.io w)).code_eq hport s t ht

/-- Settles O38: the status byte in each state of the lock. -/
theorem lockStatusReadBack : Obligations.LockStatusReadBack := by
  intro s
  have hbyte : s.lockByte = if s.hwctlLock = .locked then s.cfg.lockedVal else s.cfg.unlockedVal := by
    cases hlock : s.hwctlLock with
    | locked | unlocked => simp [State.lockByte, hlock]
  rw [← hbyte]
  rfl

/-- Settles O39: the byte is not the key, so its row is the ignored one. -/
theorem lockedPortIgnoresBytes : Obligations.LockedPortIgnoresBytes := by
  intro s v hc hlock hkey
  refine ⟨decode_outWord_pHwctl hc v, ?_, rfl⟩
  rw [exec_outHwctl_of_locked hlock, decodeHwKey, if_neg hkey]
  rfl

/-- Settles O40: the byte is the key, so its row is the one that unlocks. -/
theorem keyUnlocks : Obligations.KeyUnlocks :=
  fun _ hc hlock => ⟨decode_outWord_pHwctl hc _, exec_outHwctl_locked_eq hlock _, rfl⟩

/-- Settles O41: the row is one next state, and the byte is read as that row. -/
theorem haltCommandStopsCpu : Obligations.HaltCommandStopsCpu :=
  fun _ low hlock hkey => ⟨rfl, exec_outHwctl_of_unlocked hlock (decodeHwCmd_halt low hkey)⟩

/-- Settles O42: the reset of the re-locked state, written as one record. -/
theorem resetCommandBootsCpu : Obligations.ResetCommandBootsCpu := by
  intro s low hlock
  refine ⟨s.relock.hwReset, rfl, exec_outHwctl_of_unlocked hlock (decodeHwCmd_reset low), rfl, rfl, ?_⟩
  rw [State.hwReset_eq, List.append_assoc]
  rfl

/-- Settles O43: both rows are the guarded switch of the re-locked state, and each byte is read as its row. -/
theorem modelSwitchNeedsBothModels : Obligations.ModelSwitchNeedsBothModels := by
  intro s l5 l4 hlock switched
  have hz80 : exec (.hwZ80 l5) s = .next (switched .z80) := congrArg _ (s.relock_switchIfBoth_eq .z80)
  have hi8080 : exec (.hwI8080 l4) s = .next (switched .i8080) := congrArg _ (s.relock_switchIfBoth_eq .i8080)
  exact ⟨hz80, (exec_outHwctl_of_unlocked hlock (decodeHwCmd_z80 l5)).trans hz80,
    hi8080, (exec_outHwctl_of_unlocked hlock (decodeHwCmd_i8080 l4)).trans hi8080⟩

/-- Settles O44: the row is the re-lock, and the byte is read as that row. -/
theorem nopCommandSpendsUnlock : Obligations.NopCommandSpendsUnlock :=
  fun _ low hlock => ⟨rfl, exec_outHwctl_of_unlocked hlock (decodeHwCmd_nop low)⟩

/-- Settles O45: the key byte stands before the command bits, and its row is the one of the parameter. -/
theorem secondKeyByteByParameter : Obligations.SecondKeyByteByParameter := by
  intro s hlock t
  have hrow : exec .hwKeybyte s = .next t := by
    cases hpar : s.cfg.doubleUnlock with
    | decode => simp only [t, hpar, exec_hwKeybyte_of_decode hpar]; rfl
    | noop => simp only [t, hpar, exec_hwKeybyte_of_noop hpar]; rfl
  exact ⟨hrow, (exec_outHwctl_of_unlocked hlock rfl).trans hrow⟩

end Sys2Proof.Machine
end

section
/-! The drive slots under the host's operations: what `mount`, `unmount` and `verify_all` leave in each slot, and that no two
slots come to hold one path (44_host_disk_registry.md R220 to R223, R229). -/

namespace Sys2Proof.Machine

variable {s t : State}

/-! ## One slot written -/

theorem State.slot_eq_of_disk_eq (h : t.disk = s.disk) (d : Nat) : t.slot d = s.slot d :=
  congrArg (List.getD · d []) h

theorem State.slot_of_disk_set_self {d : Nat} {p : Path} (h : t.disk = s.disk.set d p) (hd : d < s.disk.length) :
    t.slot d = p := by
  simp [State.slot, h, hd]

theorem State.slot_of_disk_set_ne {d d' : Nat} {p : Path} (h : t.disk = s.disk.set d p) (hne : d' ≠ d) :
    t.slot d' = s.slot d' := by
  simp [State.slot, h, hne.symm]

/-- Emptying a slot needs no drive: past the last slot every slot reads as empty. -/
theorem State.slot_of_disk_set_empty {d : Nat} (h : t.disk = s.disk.set d []) : t.slot d = [] := by
  rcases Nat.lt_or_ge d s.disk.length with hd | hd
  · exact State.slot_of_disk_set_self h hd
  · simp [State.slot, h, List.set_eq_of_length_le hd, hd]

/-! ## mount, by the branch it takes -/

theorem State.mountedElsewhere_iff {p : Path} (hp : p ≠ []) (drive : Nat) :
    s.mountedElsewhere drive p = true ↔ ∃ d < s.disk.length, d ≠ drive ∧ s.slot d = p := by
  simp [State.mountedElsewhere, hp]

section
variable {drive : Nat} {name : Path} (hdrive : drive < s.cfg.numDrives)
  (hlen : (canonicalPath s.cfg name).length ≤ s.cfg.pathLen)
include hdrive hlen

theorem hostMount_of_mountedElsewhere (h : s.mountedElsewhere drive (canonicalPath s.cfg name) = true) :
    hostMount drive name s = .next { s with hostResult := some (.mounted false) } := by
  simp only [hostMount, if_neg hdrive.not_ge, if_neg hlen.not_gt, if_pos h, State.hostAnswer]

variable (h : ¬ s.mountedElsewhere drive (canonicalPath s.cfg name) = true) (hstall : s.storageStalled = false)
include h hstall

theorem hostMount_of_opens (hopen : s.opens (canonicalPath s.cfg name) = true) :
    hostMount drive name s = .next ({ s.outcomeTaken with
      disk := s.disk.set drive (canonicalPath s.cfg name) }.hostAnswer (.mounted true)) := by
  simp only [hostMount, if_neg hdrive.not_ge, if_neg hlen.not_gt, if_neg h, hstall, Bool.false_eq_true, if_false,
    if_pos hopen]

theorem hostMount_of_not_opens (hopen : s.opens (canonicalPath s.cfg name) = false) :
    hostMount drive name s = .next (s.outcomeTaken.hostAnswer (.mounted false)) := by
  simp only [hostMount, if_neg hdrive.not_ge, if_neg hlen.not_gt, if_neg h, hstall, Bool.false_eq_true, if_false, hopen]

end

/-! ## Distinct slots -/

/-- Distinctness is kept where every slot is left as it is or emptied. -/
theorem SlotsDistinct.of_left_or_emptied (h : SlotsDistinct s) (hlen : t.disk.length = s.disk.length)
    (hslot : ∀ d, t.slot d = s.slot d ∨ t.slot d = []) : SlotsDistinct t := by
  intro d d' hd hd' hne hfull
  have hkept : t.slot d = s.slot d := (hslot d).resolve_right hfull
  rcases hslot d' with hother | hempty
  · rw [hkept, hother]
    exact h d d' (hlen ▸ hd) (hlen ▸ hd') hne (hkept ▸ hfull)
  · rwa [hempty]

theorem SlotsDistinct.of_disk_eq (h : SlotsDistinct s) (hdisk : t.disk = s.disk) : SlotsDistinct t :=
  h.of_left_or_emptied (congrArg _ hdisk) fun d => .inl (State.slot_eq_of_disk_eq hdisk d)

/-- A path stored where no other slot holds it stays the only one of its kind. -/
theorem SlotsDistinct.of_disk_set (h : SlotsDistinct s) {drive : Nat} {p : Path} (hdisk : t.disk = s.disk.set drive p)
    (hfree : ¬ s.mountedElsewhere drive p = true) : SlotsDistinct t := by
  have hlen : t.disk.length = s.disk.length := by rw [hdisk, List.length_set]
  have hother {d : Nat} (hd : d < s.disk.length) (hne : d ≠ drive) (hp : p ≠ []) : s.slot d ≠ p :=
    fun heq => hfree ((State.mountedElsewhere_iff hp drive).2 ⟨d, hd, hne, heq⟩)
  intro d d' hd hd' hne hfull
  rw [hlen] at hd hd'
  by_cases hdrive : d = drive
  · subst hdrive
    rw [State.slot_of_disk_set_self hdisk hd] at hfull ⊢
    rw [State.slot_of_disk_set_ne hdisk hne.symm]
    exact (hother hd' hne.symm hfull).symm
  · rw [State.slot_of_disk_set_ne hdisk hdrive] at hfull ⊢
    by_cases hdrive' : d' = drive
    · subst hdrive'
      rw [State.slot_of_disk_set_self hdisk hd']
      exact fun heq => hother hd hdrive (heq ▸ hfull) heq
    · rw [State.slot_of_disk_set_ne hdisk hdrive']
      exact h d d' hd hd' hne hfull

/-- An empty slot is no duplicate of another. -/
theorem SlotsDistinct.of_disk_set_empty (h : SlotsDistinct s) {drive : Nat} (hdisk : t.disk = s.disk.set drive []) :
    SlotsDistinct t :=
  h.of_disk_set hdisk (by simp [State.mountedElsewhere])

/-! ## The host's operations and the outside events -/

theorem hostMount_keeps_slotsDistinct (h : SlotsDistinct s) (drive : Nat) (name : Path) :
    NextMeets SlotsDistinct (hostMount drive name s) :=
  .ite (fun _ => .refused) fun _ => .ite (fun _ => .refused) fun _ =>
    .ite (fun _ => .next (h.of_disk_eq rfl)) fun hfree => .ite (fun _ => .fault) fun _ =>
      .ite (fun _ => .next (h.of_disk_set rfl hfree)) fun _ => .next (h.of_disk_eq s.outcomeTaken_disk)

theorem hostUnmount_keeps_slotsDistinct (h : SlotsDistinct s) (drive : Nat) :
    NextMeets SlotsDistinct (hostUnmount drive s) :=
  .ite (fun _ => .refused) fun _ => .next (h.of_disk_set_empty rfl)

theorem hostVerifyAll_keeps_slotsDistinct (h : SlotsDistinct s) : NextMeets SlotsDistinct (hostVerifyAll s) :=
  .ite (fun _ => .fault) fun _ => .next (h.of_left_or_emptied (s.verifySlots_length s.disk) s.verified_slot)

/-- Whatever `load_image` answers, it wrote its answer and nothing else outside the loader's frame. -/
theorem hostLoadImage_cases (name : Path) (s : State) :
    NextMeets (fun t => ∃ u r, LoadFrame s u ∧ t = u.hostAnswer r) (hostLoadImage name s) := by
  refine .ite (fun _ => .fault) fun _ => ?_
  split
  · exact .next ⟨_, _, LoadFrame.taken s, rfl⟩
  · exact .ite (fun _ => .next ⟨_, _, LoadFrame.taken s, rfl⟩) fun _ => .ite (fun _ => .refused) fun _ =>
      .next ⟨_, _, (LoadFrame.taken s).trans (State.loadLoop_frame ..), rfl⟩

theorem LoadFrame.disk_eq {u : State} (h : LoadFrame s u) : u.disk = s.disk := by
  rw [h.eq]

theorem runHost_keeps_slotsDistinct (h : SlotsDistinct s) (op : HostOp) : NextMeets SlotsDistinct (runHost op s) := by
  cases op with
  | mount drive name => exact hostMount_keeps_slotsDistinct h drive name
  | unmount drive => exact hostUnmount_keeps_slotsDistinct h drive
  | verifyAll => exact hostVerifyAll_keeps_slotsDistinct h
  | loadImage name =>
    refine (hostLoadImage_cases name s).mono ?_
    rintro _ ⟨u, r, hframe, rfl⟩
    exact h.of_disk_eq hframe.disk_eq
  | list | setFrontPanel | saveRecord => exact .next (h.of_disk_eq rfl)

/-- Every outside event but a power-on leaves the slots alone. -/
theorem runEnv_keeps_slotsDistinct (h : SlotsDistinct s) {e : EnvEvent} (he : e ≠ .powerOn) :
    NextMeets SlotsDistinct (runEnv e s) := by
  cases e with
  | powerOn => exact absurd rfl he
  | breakSignal | conInput | cpuStore | cpuEngine | filePut | fileRemove | recordPut | storageNext | storageStall =>
    exact .next (h.of_disk_eq rfl)

/-! ## What no host operation reaches -/

/-- `t` is `s` but for what the host's operations write: SECBUF, the front-panel byte, the slots, memory, the record and the
answers (R228). -/
def HostFrame (s t : State) : Prop :=
  t = { s with
    secBuf := t.secBuf, fpValue := t.fpValue, disk := t.disk, mem := t.mem, record := t.record,
    storage := t.storage, draws := t.draws, hostResult := t.hostResult }

theorem HostFrame.trans {u : State} (h : HostFrame s t) (g : HostFrame t u) : HostFrame s u := by
  rw [HostFrame, g, h]

theorem HostFrame.answered (h : HostFrame s t) (r : HostResult) : HostFrame s (t.hostAnswer r) :=
  h.trans rfl

theorem HostFrame.withDisk (h : HostFrame s t) (ps : List Path) : HostFrame s { t with disk := ps } :=
  h.trans rfl

theorem LoadFrame.hostFrame (h : LoadFrame s t) : HostFrame s t := by
  rw [HostFrame, h.eq]

theorem State.outcomeTaken_hostFrame (s : State) : HostFrame s s.outcomeTaken :=
  (LoadFrame.taken s).hostFrame

theorem State.verified_hostFrame (s : State) : HostFrame s s.verified := by
  rw [HostFrame, State.verified_eq]

theorem runHost_frame (op : HostOp) (s : State) : NextMeets (HostFrame s) (runHost op s) := by
  cases op with
  | mount drive name =>
    exact .ite (fun _ => .refused) fun _ => .ite (fun _ => .refused) fun _ => .ite (fun _ => .next rfl) fun _ =>
      .ite (fun _ => .fault) fun _ =>
        .ite (fun _ => .next ((s.outcomeTaken_hostFrame.withDisk _).answered _)) fun _ =>
          .next (s.outcomeTaken_hostFrame.answered _)
  | unmount drive => exact .ite (fun _ => .refused) fun _ => .next rfl
  | verifyAll => exact .ite (fun _ => .fault) fun _ => .next (s.verified_hostFrame.answered _)
  | loadImage name =>
    refine (hostLoadImage_cases name s).mono ?_
    rintro _ ⟨u, r, hframe, rfl⟩
    exact hframe.hostFrame.answered r
  | list | setFrontPanel | saveRecord => exact .next rfl

end Sys2Proof.Machine
end

section
/-! A storage layer whose answers to come are all success: what `verify_all` then empties, and the loader chunk by chunk
(20_memory.md R70, 44_host_disk_registry.md R223, R225). -/

namespace Sys2Proof.Machine

variable {s t u : State} {n : Nat}

/-- The storage layer has settled at least `n` answers, and all of them are success. -/
structure AnswersOk (s : State) (n : Nat) : Prop where
  ok : ∀ o ∈ s.storage, o = .ok
  enough : n ≤ s.storage.length

theorem AnswersOk.nextOutcome (h : AnswersOk s (n + 1)) : s.nextOutcome = .ok := by
  obtain ⟨o, rest, hs⟩ := List.exists_cons_of_length_pos (Nat.zero_lt_of_lt h.enough)
  simp only [State.nextOutcome, hs]
  exact h.ok o (hs ▸ List.mem_cons_self)

theorem AnswersOk.of_storage_eq_tail (h : AnswersOk s (n + 1)) (ht : t.storage = s.storage.tail) : AnswersOk t n where
  ok o ho := h.ok o (List.mem_of_mem_tail (ht ▸ ho))
  enough := by rw [ht, List.length_tail]; exact Nat.le_sub_one_of_lt h.enough

theorem AnswersOk.outcomeTaken (h : AnswersOk s (n + 1)) : AnswersOk s.outcomeTaken n :=
  h.of_storage_eq_tail s.outcomeTaken_storage

theorem AnswersOk.pred (h : AnswersOk s (n + 1)) : AnswersOk s n :=
  ⟨h.ok, Nat.le_of_succ_le h.enough⟩

/-! ## verify_all -/

/-- A path is mounted, and its file is not there. -/
def State.dangles (s : State) (p : Path) : Bool := decide (p ≠ [] ∧ s.fileOf p = none)

@[simp] theorem State.outcomeTaken_fileOf (s : State) (p : Path) : s.outcomeTaken.fileOf p = s.fileOf p := by
  simp [State.fileOf]

@[simp] theorem State.outcomeTaken_dangles (s : State) : s.outcomeTaken.dangles = s.dangles := by
  funext p
  simp [State.dangles]

@[simp] theorem State.not_dangles_nil (s : State) : s.dangles [] = false := by
  simp [State.dangles]

/-- An answered probe finds every file that is there. -/
theorem AnswersOk.opens_eq (h : AnswersOk s (n + 1)) {p : Path} (hp : p ≠ []) : s.opens p = !s.dangles p := by
  cases hf : s.fileOf p <;> simp [State.opens, State.dangles, h.nextOutcome, hp, hf]

/-- What the loop leaves in the slots, and its count. -/
theorem AnswersOk.verifySlots {ps : List Path} (h : AnswersOk s ps.length) :
    (s.verifySlots ps).1 = ps.map (fun p => if s.dangles p then [] else p) ∧
      (s.verifySlots ps).2.1 = ps.countP s.dangles := by
  induction ps generalizing s with
  | nil => exact ⟨rfl, rfl⟩
  | cons p ps ih =>
    by_cases hp : p = []
    · obtain ⟨hslots, hcount⟩ := ih h.pred
      simp [State.verifySlots, hp, hslots, hcount]
    · obtain ⟨hslots, hcount⟩ := ih h.outcomeTaken
      rw [State.outcomeTaken_dangles] at hslots hcount
      cases hd : s.dangles p <;> simp [State.verifySlots, hp, h.opens_eq hp, hslots, hcount, hd]

/-! ## load_image -/

/-- `t` is `s` with the bytes `a` to `b - 1` of the file loaded to the addresses of these numbers. -/
structure Loaded (f : File) (a b : Nat) (s t : State) : Prop where
  frame : LoadFrame s t
  bytes : ∀ i, a ≤ i → i < b → t.memRead (BitVec.ofNat 16 i) = f.byte i
  others : ∀ key, (∀ i, a ≤ i → i < b → key ≠ s.phys (BitVec.ofNat 16 i)) → t.byteAt key = s.byteAt key

theorem LoadFrame.phys_eq (h : LoadFrame s t) (a : Addr) : t.phys a = s.phys a :=
  State.phys_eq_of_bank (by rw [h.eq]) (by rw [h.eq]) a

/-- Addresses below MEM_SIZE are different bytes of memory. -/
theorem State.phys_ofNat_ne {i j : Nat} (hi : i < memSize) (hj : j < memSize) (hne : i ≠ j) :
    s.phys (BitVec.ofNat 16 i) ≠ s.phys (BitVec.ofNat 16 j) := by
  rw [Ne, State.phys_inj]
  exact fun heq => hne (addr_add_ofNat_inj (a := 0#16) hi hj (by simpa using heq))

/-- Two adjoining ranges loaded one after the other: the second does not reach back into the first. -/
theorem Loaded.trans {f : File} {a b c : Nat} (h : Loaded f a b s t) (g : Loaded f b c t u) (hab : a ≤ b)
    (hbc : b ≤ c) (hc : c ≤ memSize) : Loaded f a c s u where
  frame := h.frame.trans g.frame
  bytes i ha hi := by
    rcases Nat.lt_or_ge i b with hib | hib
    · calc u.memRead (BitVec.ofNat 16 i)
          = u.byteAt (t.phys (BitVec.ofNat 16 i)) := by rw [State.memRead, g.frame.phys_eq]
        _ = t.memRead (BitVec.ofNat 16 i) :=
            g.others _ fun j hj hjc => State.phys_ofNat_ne (by omega) (by omega) (by omega)
        _ = f.byte i := h.bytes i ha hib
    · exact g.bytes i hib hi
  others key hkey := by
    rw [g.others key fun i hi hic => h.frame.phys_eq _ ▸ hkey i (hab.trans hi) hic]
    exact h.others key fun i hi hib => hkey i hi (hib.trans_le hbc)

/-- One whole sector, read with an answer and stored from address `a` on. -/
def State.sectorLoaded (s : State) (f : File) (a : Nat) : State :=
  s.outcomeTaken.drawn.loadChunk f a s.cfg.secSz

theorem State.sectorLoaded_storage (s : State) (f : File) (a : Nat) :
    (s.sectorLoaded f a).storage = s.storage.tail := by
  rw [State.sectorLoaded, State.loadChunk, State.memWriteN_eq]
  exact s.outcomeTaken_storage

theorem LoadFrame.sectorLoaded (s : State) (f : File) (a : Nat) : LoadFrame s (s.sectorLoaded f a) :=
  ((LoadFrame.taken s).trans (LoadFrame.drawn _)).trans
    (LoadFrame.chunk _ f a (by rw [State.drawn_cfg, State.outcomeTaken_cfg]))

/-- A byte is read through the cells and the memory's epoch. -/
theorem State.byteAt_congr (hmem : t.mem = s.mem) (hepoch : t.memEpoch = s.memEpoch) (key : Nat) :
    t.byteAt key = s.byteAt key := by
  simp only [State.byteAt, hmem, hepoch]

theorem Loaded.sectorLoaded (s : State) (f : File) {a : Nat} (ha : a + s.cfg.secSz ≤ memSize) :
    Loaded f a (a + s.cfg.secSz) s (s.sectorLoaded f a) where
  frame := LoadFrame.sectorLoaded s f a
  bytes i hai hi := by
    obtain ⟨k, rfl⟩ := Nat.exists_eq_add_of_le hai
    have hk : k < s.cfg.secSz := by omega
    have hsec : (f.read a s.cfg.secSz).length ≤ memSize := by
      rw [File.read_length]
      exact (Nat.le_add_left ..).trans ha
    rw [BitVec.ofNat_add, State.sectorLoaded, State.loadChunk,
      State.memRead_memWriteN hsec (by rwa [File.read_length]), File.read_getD hk]
  others key hkey := by
    rw [State.sectorLoaded, State.loadChunk, State.byteAt_memWriteN_of_ne]
    · exact State.byteAt_congr s.outcomeTaken_mem s.outcomeTaken_memEpoch key
    · intro k hk
      rw [File.read_length] at hk
      rw [State.phys_eq_of_bank (s := s) (by simp) (by simp), ← BitVec.ofNat_add]
      exact hkey _ (Nat.le_add_right a k) (Nat.add_lt_add_left hk a)

/-- The read that ends the load stores nothing. -/
theorem Loaded.outcomeTaken_drawn (s : State) (f : File) (a : Nat) : Loaded f a a s s.outcomeTaken.drawn where
  frame := (LoadFrame.taken s).trans (LoadFrame.drawn _)
  bytes _ hai hi := absurd hi hai.not_gt
  others key _ := State.byteAt_congr s.outcomeTaken_mem s.outcomeTaken_memEpoch key

variable {f : File} {a : Nat}

theorem AnswersOk.chunkLength_eq (h : AnswersOk s (n + 1)) (room : Nat) : s.chunkLength room = room := by
  simp only [State.chunkLength, h.nextOutcome]

/-- At the end of the file the read returns no byte. -/
theorem AnswersOk.loadLoop_at_end (h : AnswersOk s (n + 1)) (hend : f.size ≤ a) (fuel : Nat) :
    State.loadLoop f (fuel + 1) a s = (s.outcomeTaken.drawn, .stoppedZero) := by
  simp [State.loadLoop, h.chunkLength_eq, Nat.sub_eq_zero_of_le hend, State.loadEnd, h.nextOutcome]

/-- Where a whole sector is left it is loaded, and the loop goes on behind it. -/
theorem AnswersOk.loadLoop_whole_sector (h : AnswersOk s (n + 1)) (hpos : 0 < s.cfg.secSz)
    (hroom : a + s.cfg.secSz ≤ f.size) (fuel : Nat) :
    State.loadLoop f (fuel + 1) a s = State.loadLoop f fuel (a + s.cfg.secSz) (s.sectorLoaded f a) := by
  have hn : s.chunkLength (min s.cfg.secSz (f.size - a)) = s.cfg.secSz := by
    rw [h.chunkLength_eq, min_eq_left (by omega)]
  simp [State.loadLoop, hn, hpos.ne', State.sectorLoaded]

/-- The loop over `k` whole sectors to the end of the file, with an answer for each of them and for the read that ends it. -/
theorem AnswersOk.loadLoop_whole_sectors {k : Nat} (h : AnswersOk s (k + 1)) (hpos : 0 < s.cfg.secSz)
    (hsize : f.size = a + k * s.cfg.secSz) (hle : f.size ≤ memSize) :
    (State.loadLoop f (k + 1) a s).2 = .stoppedZero ∧ Loaded f a f.size s (State.loadLoop f (k + 1) a s).1 := by
  induction k generalizing s a with
  | zero =>
    rw [h.loadLoop_at_end (by omega)]
    have hend := Loaded.outcomeTaken_drawn s f a
    exact ⟨rfl, by rwa [show f.size = a by omega]⟩
  | succ k ih =>
    have hcfg : (s.sectorLoaded f a).cfg = s.cfg := by rw [(LoadFrame.sectorLoaded s f a).eq]
    have hroom : a + s.cfg.secSz + k * s.cfg.secSz = f.size := by rw [hsize, Nat.succ_mul]; omega
    rw [h.loadLoop_whole_sector hpos (by omega)]
    obtain ⟨hstop, hrest⟩ := ih (h.of_storage_eq_tail (s.sectorLoaded_storage f a)) (by rwa [hcfg])
      (by rw [hcfg, hroom])
    exact ⟨hstop, (Loaded.sectorLoaded s f (by omega)).trans hrest (by omega) (by omega) hle⟩

/-- A load whose file opens and fits is the loop. -/
theorem hostLoadImage_of_file {name : Path} (hstall : s.storageStalled = false)
    (hf : s.fileOf (codePath s.cfg name) = some f) (hopen : s.nextOutcome ≠ .openFail) (hle : f.size ≤ memSize) :
    hostLoadImage name s =
      .next ((State.loadLoop f (f.size / s.cfg.secSz + 1) 0 s.outcomeTaken).1.hostAnswer
        (.loaded (State.loadLoop f (f.size / s.cfg.secSz + 1) 0 s.outcomeTaken).2)) := by
  simp only [hostLoadImage, hstall, hf, if_neg hopen, if_neg hle.not_gt, Bool.false_eq_true, if_false]

end Sys2Proof.Machine
end

section
/-! The fields of a configuration record as they are written and read back (44_host_disk_registry.md R226). -/

namespace Sys2Proof.Machine

variable {s t : State}

/-! ## One field -/

theorem padField_length (n : Nat) (bytes : List Byte) : (padField n bytes).length = n := by
  simp [padField]

theorem padField_of_length_eq {n : Nat} {bytes : List Byte} (h : bytes.length = n) : padField n bytes = bytes := by
  rw [padField, ← h, List.take_left']
  rfl

/-- The padding ends a path that has no 0x00 of its own. -/
theorem pathOfField_padField {n : Nat} {p : Path} (hlen : p.length ≤ n) (hzero : 0#8 ∉ p) :
    pathOfField (padField n p) = p := by
  have hall : ∀ b ∈ p, decide (b ≠ 0#8) = true := fun b hb => decide_eq_true fun h => hzero (h ▸ hb)
  rw [padField, List.take_append, List.take_of_length_le hlen, pathOfField, List.takeWhile_append_of_pos hall,
    List.take_replicate]
  cases min (n - p.length) n <;> simp [List.replicate_succ]

theorem recordField_append_left {n : Nat} {field : List Byte} (hn : field.length = n) (back : List Byte) :
    recordField (field ++ back) 0 n = field := by
  subst hn
  simp [recordField]

theorem recordField_append_right {k : Nat} {front : List Byte} (hk : front.length = k) (back : List Byte) (off n : Nat) :
    recordField (front ++ back) (k + off) n = recordField back off n := by
  rw [recordField, ← List.drop_drop, List.drop_left' hk, recordField]

/-! ## The path strings -/

/-- Path strings of one width stand at the multiples of the width. -/
theorem recordField_flatMap_padField (w : Nat) (ps : List Path) {d : Nat} (hd : d < ps.length) :
    recordField (ps.flatMap (padField w)) (d * w) w = padField w (ps.getD d []) := by
  induction ps generalizing d with
  | nil => cases hd
  | cons p ps ih =>
    cases d with
    | zero =>
      rw [Nat.zero_mul]
      exact recordField_append_left (padField_length w p) _
    | succ d =>
      rw [List.flatMap_cons, Nat.succ_mul, Nat.add_comm, recordField_append_right (padField_length w p),
        ih (Nat.lt_of_succ_lt_succ hd), List.getD_cons_succ]

theorem length_flatMap_padField (w : Nat) (ps : List Path) : (ps.flatMap (padField w)).length = ps.length * w := by
  simp [List.length_flatMap, padField_length]

theorem State.map_slot_range (s : State) : (List.range s.disk.length).map s.slot = s.disk := by
  refine List.ext_getElem (by simp) fun d _ hd => ?_
  simp [State.slot, hd]

/-! ## The record -/

/-- What the record of a state can hold whole: as many slots as path strings, paths that end where their string does, and
a speed value of its field's width. -/
structure FitsRecord (s : State) : Prop where
  slots : s.disk.length = s.cfg.numDrives
  paths : ∀ p ∈ s.disk, p.length ≤ s.cfg.pathLen ∧ 0#8 ∉ p
  speed : s.cpu.speed.length = s.cfg.speedW

theorem selectorOf_length {c : Config} (hc : c.Valid) (m : CpuModel) : (selectorOf c m).length = c.modelW := by
  cases m with
  | z80 => exact hc.selZ80_len
  | i8080 => exact hc.selI8080_len

/-- The two selectors are different, so each names its own model. -/
theorem modelOf_selectorOf {c : Config} (hc : c.Valid) (d : Nat) (m : CpuModel) : modelOf c d (selectorOf c m) = m := by
  cases m with
  | z80 => exact if_pos rfl
  | i8080 => exact (if_neg hc.sels.symm).trans (if_pos rfl)

/-- The fields of the record one after the other: selector and speed fill theirs, and each slot has one path string. -/
theorem FitsRecord.recordBytes_eq (h : FitsRecord s) (hc : s.cfg.Valid) :
    s.recordBytes = selectorOf s.cfg s.cpu.model ++ (s.cpu.speed ++ ([s.fpValue] ++
      s.disk.flatMap (padField s.cfg.pathLen))) := by
  have hpaths : ((List.range s.cfg.numDrives).flatMap fun d => padField s.cfg.pathLen (s.slot d)) =
      s.disk.flatMap (padField s.cfg.pathLen) := by
    rw [← h.slots, ← List.flatMap_map, s.map_slot_range]
  rw [State.recordBytes, padField_of_length_eq (selectorOf_length hc _), padField_of_length_eq h.speed, hpaths,
    List.append_assoc, List.append_assoc]

theorem FitsRecord.recordBytes_length (h : FitsRecord s) (hc : s.cfg.Valid) :
    s.recordBytes.length = s.cfg.recordSize := by
  rw [h.recordBytes_eq hc]
  simp only [List.length_append, List.length_singleton, length_flatMap_padField, selectorOf_length hc, h.speed, h.slots,
    Config.recordSize, Nat.add_assoc]

theorem FitsRecord.recordField_model (h : FitsRecord s) (hc : s.cfg.Valid) :
    recordField s.recordBytes 0 s.cfg.modelW = selectorOf s.cfg s.cpu.model := by
  rw [h.recordBytes_eq hc]
  exact recordField_append_left (selectorOf_length hc _) _

theorem FitsRecord.recordField_speed (h : FitsRecord s) (hc : s.cfg.Valid) :
    recordField s.recordBytes s.cfg.modelW s.cfg.speedW = s.cpu.speed := by
  rw [h.recordBytes_eq hc]
  exact (recordField_append_right (selectorOf_length hc _) _ 0 _).trans (recordField_append_left h.speed _)

theorem FitsRecord.getD_fpValue (h : FitsRecord s) (hc : s.cfg.Valid) :
    s.recordBytes.getD (s.cfg.modelW + s.cfg.speedW) 0#8 = s.fpValue := by
  rw [h.recordBytes_eq hc, ← selectorOf_length hc s.cpu.model, ← h.speed]
  simp

/-- The path string of a drive is its slot's path again. -/
theorem FitsRecord.recordPath_eq (h : FitsRecord s) (hc : s.cfg.Valid) {d : Nat} (hd : d < s.cfg.numDrives) :
    recordPath s.cfg s.recordBytes d = s.slot d := by
  have hd' : d < s.disk.length := h.slots ▸ hd
  have hmem : s.slot d ∈ s.disk := by
    rw [State.slot, List.getD_eq_getElem _ _ hd']
    exact List.getElem_mem hd'
  obtain ⟨hlen, hzero⟩ := h.paths _ hmem
  rw [recordPath, h.recordBytes_eq hc, Nat.add_assoc, Nat.add_assoc,
    recordField_append_right (selectorOf_length hc _), recordField_append_right h.speed,
    recordField_append_right (k := 1) rfl, recordField_flatMap_padField _ _ hd']
  exact pathOfField_padField hlen hzero

end Sys2Proof.Machine
end

section

namespace Sys2Proof.Machine

/-- Settles O48: the duplicate scan is the model's own guard, and past it the probe decides between the two answers. -/
theorem mountGuardsAndStores : Obligations.MountGuardsAndStores := by
  intro s drive name hdrive hdisk hpath hlen hstall
  have hscan := s.mountedElsewhere_iff hpath drive
  rw [hdisk] at hscan
  refine ⟨fun hdup => hostMount_of_mountedElsewhere hdrive hlen (hscan.2 hdup), fun hnodup => ?_⟩
  have hfree : ¬ s.mountedElsewhere drive (canonicalPath s.cfg name) = true := fun h => by
    obtain ⟨d, hd, hne, heq⟩ := hscan.1 h
    exact hnodup d hd hne heq
  exact ⟨fun hopen => ⟨_, hostMount_of_not_opens hdrive hlen hfree hstall hopen, rfl, s.outcomeTaken_disk⟩,
    fun hopen => ⟨_, hostMount_of_opens hdrive hlen hfree hstall hopen, rfl,
      State.slot_of_disk_set_self rfl (hdisk ▸ hdrive), fun d hne => State.slot_of_disk_set_ne rfl hne⟩⟩

/-- Settles O50: every probe is answered, so the loop empties the dangling slots and counts them. -/
theorem verifyDropsDanglingMounts : Obligations.VerifyDropsDanglingMounts := by
  intro s hstall hok henough
  obtain ⟨hslots, hcount⟩ := AnswersOk.verifySlots ⟨hok, henough⟩
  refine ⟨s.verified.hostAnswer (.verified (s.verifySlots s.disk).2.1), if_neg (by simp [State.verifyHangs, hstall]),
    hslots.trans (by simp [State.dangles]), by rw [hcount]; rfl, ?_⟩
  rw [State.verified_eq]
  rfl

/-- Settles O51: the file opens with the first answer, and the loop loads its sectors up to the read that ends it. -/
theorem bulkLoadFillsMemoryFromZero : Obligations.BulkLoadFillsMemoryFromZero := by
  intro s name f chunks hc hstall hf hsize hle hok henough
  have hans : AnswersOk s (chunks + 1 + 1) := ⟨hok, henough⟩
  have hcfg : s.outcomeTaken.cfg = s.cfg := s.outcomeTaken_cfg
  have hload := hostLoadImage_of_file hstall hf (by simp [hans.nextOutcome]) hle
  rw [hsize, Nat.mul_div_cancel _ hc.sec_pos] at hload
  obtain ⟨hstop, hloop⟩ := hans.outcomeTaken.loadLoop_whole_sectors (f := f) (a := 0) (hcfg ▸ hc.sec_pos)
    (by rw [hcfg, hsize, Nat.zero_add]) hle
  rw [hstop] at hload
  have hframe := (LoadFrame.taken s).trans hloop.frame
  refine ⟨_, hload, rfl, ?_, fun i hi => hloop.bytes i (Nat.zero_le i) hi, fun key hkey => ?_⟩
  · rw [hframe.eq]
    rfl
  · refine (hloop.others key fun i _ hi => ?_).trans (State.byteAt_congr s.outcomeTaken_mem s.outcomeTaken_memEpoch key)
    rw [(LoadFrame.taken s).phys_eq]
    exact hkey i hi

/-- Settles O52: each field read back is the field written, and the path strings are the slots again. -/
theorem recordRoundTrip : Obligations.RecordRoundTrip := by
  intro s t hc hcfg hdisk hpaths hspeed
  have hfit : FitsRecord s := ⟨hdisk, hpaths, hspeed⟩
  refine ⟨s.recordBytes, rfl, hfit.recordBytes_length hc, ?fp, ?slots, ?model, ?speed⟩
  case fp => simp only [State.loadRecord, hcfg, hfit.getD_fpValue hc]
  case slots =>
    rw [← s.map_slot_range, hdisk, State.loadRecord, hcfg]
    exact List.map_congr_left fun d hd => hfit.recordPath_eq hc (List.mem_range.1 hd)
  case model => simp only [State.loadRecord, hcfg, hfit.recordField_model hc, modelOf_selectorOf hc]
  case speed => simp only [State.loadRecord, hcfg, hfit.recordField_speed hc]

/-- Settles O53: no field that the host's operations write is among these. -/
theorem hostCannotReachBlockRegisters : Obligations.HostCannotReachBlockRegisters := by
  intro op s t ht
  have hframe : HostFrame s t := runHost_frame op s t ht
  refine ⟨?_, ?_, ?_, ?_, ?_, ?_, ?_, ?_, ?_, ?_, ?_⟩ <;> rw [hframe]

/-- Settles O59: no instruction writes a slot, and of the other steps only `mount` stores a path, past its own guard. -/
theorem stepKeepsSlotsDistinct : Obligations.StepKeepsSlotsDistinct := by
  intro s t h hnext ht
  cases hp : s.pending with
  | nil =>
    rw [step_of_pending_nil hp] at ht
    exact Host.Outcome.next.inj ht ▸ h
  | cons e rest =>
    have hrest : SlotsDistinct { s with pending := rest } := h.of_disk_eq rfl
    cases e with
    | transaction w =>
      rw [step_of_pending_transaction hp] at ht
      exact hrest.of_disk_eq (exec_effect _ _ t ht).disk
    | host op =>
      rw [step_of_pending_host hp] at ht
      exact runHost_keeps_slotsDistinct hrest op t ht
    | env e =>
      rw [step_of_pending_env hp] at ht
      exact runEnv_keeps_slotsDistinct hrest (fun he => hnext (by rw [hp, he]; rfl)) t ht

/-- Settles O49: the slot written is empty, every other slot as it was. -/
theorem unmountEmptiesSlot : Obligations.UnmountEmptiesSlot :=
  fun _ _ hdrive => ⟨_, if_neg hdrive.not_ge, rfl, State.slot_of_disk_set_empty rfl,
    fun _ hne => State.slot_of_disk_set_ne rfl hne⟩

end Sys2Proof.Machine
end

section
/-! The CPU interface under a transaction: what an accepted command does to it, which rows leave it alone, and so what can
stop the CPU (60_exceptions.md R253 to R259). -/

namespace Sys2Proof.Machine

/-- The CPU interface of `t` is that of `s`. -/
def KeepsCpu (s t : State) : Prop := t.cpu = s.cpu

/-! ## The accepted commands -/

/-- What an accepted command byte `v` can do to the CPU interface: `HW.NOP` and, under `NOOP`, the second key byte keep it
(43_hwctl.md R208, R210); otherwise the first set command bit says what is written (R204 to R207). -/
inductive CommandCpu (s : State) (v : Byte) (t : State) : Prop where
  | kept (h : KeepsCpu s t)
  | halted (hbit7 : v.getLsbD 7 = true) (h : t.cpu = { s.cpu with error := .ioHalt, state := .stopped })
  | booted (hbit7 : v.getLsbD 7 = false) (hbit6 : v.getLsbD 6 = true) (h : t.cpu.pc = s.cfg.bootAddr)
  | switched (hbit7 : v.getLsbD 7 = false) (hbit6 : v.getLsbD 6 = false) (h : t.cpu = { s.cpu with model := t.cpu.model })

/-- The CPU model is the only field that a switch writes, and a build of one model writes none (log 43). -/
theorem State.relock_switchIfBoth_cpu (s : State) (m : CpuModel) :
    (s.relock.switchIfBoth m).cpu = { s.cpu with model := (s.relock.switchIfBoth m).cpu.model } := by
  rw [State.relock_switchIfBoth_eq]
  split_ifs <;> rfl

/-- The key byte has bit 7 set, so the halt of a second key byte is one by that bit too. -/
theorem exec_hwKeybyte_cpu (s : State) : NextMeets (CommandCpu s Config.magic) (exec .hwKeybyte s) := by
  cases hpar : s.cfg.doubleUnlock with
  | decode => exact exec_hwKeybyte_of_decode hpar ▸ .next (.halted (by decide) rfl)
  | noop => exact exec_hwKeybyte_of_noop hpar ▸ .next (.kept rfl)

theorem exec_decodeHwCmd_cpu (v : Byte) (s : State) : NextMeets (CommandCpu s v) (exec (decodeHwCmd v) s) := by
  unfold decodeHwCmd
  split_ifs with hkey hbit7 hbit6
  · exact hkey ▸ exec_hwKeybyte_cpu s
  · exact .next (.halted hbit7 rfl)
  · exact .next (.booted (Bool.eq_false_of_not_eq_true hbit7) hbit6 rfl)
  · exact .next (.switched (Bool.eq_false_of_not_eq_true hbit7) (Bool.eq_false_of_not_eq_true hbit6)
      (s.relock_switchIfBoth_cpu .z80))
  · exact .next (.switched (Bool.eq_false_of_not_eq_true hbit7) (Bool.eq_false_of_not_eq_true hbit6)
      (s.relock_switchIfBoth_cpu .i8080))
  · exact .next (.kept rfl)

/-- A `LOCKED` port writes its lock only; an `UNLOCKED` one runs a command, which re-locks. -/
theorem exec_outHwctl_cpu (v : Byte) (s : State) :
    NextMeets (fun t => KeepsCpu s t ∨ s.hwctlLock = .unlocked ∧ t.hwctlLock = .locked ∧ CommandCpu s v t)
      (exec (.outHwctl v) s) := by
  cases hlock : s.hwctlLock with
  | locked => exact exec_outHwctl_locked_eq hlock v ▸ .next (.inl rfl)
  | unlocked =>
    rw [exec_outHwctl_of_unlocked hlock rfl]
    exact fun t ht => .inr ⟨rfl, (exec_decodeHwCmd_effect v s t ht).relocked, exec_decodeHwCmd_cpu v s t ht⟩

/-! ## The other transactions -/

/-- The bad bank stops the CPU with `IOERROR` (42_mmu.md R192). -/
theorem exec_outMmuNoSuchBank_cpu (v : Byte) (s : State) :
    NextMeets (fun t => KeepsCpu s t ∨ s.cfg.numSeg.toNat < v.toNat ∧ t.cpu.error = .ioError ∧ t.cpu.state = .stopped)
      (exec (.outMmuNoSuchBank v) s) :=
  .ite (fun _ => .next (.inl rfl)) fun hv => .next (.inr ⟨not_le.1 (hasBank_iff.not.1 hv), rfl, rfl⟩)

theorem FdcFrame.keepsCpu {s t : State} {p : Path} (h : FdcFrame s t p) : KeepsCpu s t := by
  rw [KeepsCpu, h.eq]

/-- Every level-1 row but the two that can write the CPU interface: the rows whose code is no transaction word are those of
the command bytes and blocks, and the last case holds the rows whose meaning is one next state. -/
theorem exec_keepsCpu {c : Config} {i : Instr} {w : BitVec 17} (hio : encode c i = .io w)
    (hbank : ∀ v, i ≠ .outMmuNoSuchBank v) (hport : ∀ v, i ≠ .outHwctl v) (s : State) :
    NextMeets (KeepsCpu s) (exec i s) := by
  cases i
  case outMmuNoSuchBank v => exact absurd rfl (hbank v)
  case outHwctl v => exact absurd rfl (hport v)
  case inConData => exact (execInConData_keepsStatAndCpu s).mono fun _ h => h.cpu
  case outFdcCmd v => exact (execOutFdcCmd_frame v s).mono fun _ h => h.keepsCpu
  case outMmuBankExists => exact .ite (fun _ => .next rfl) fun _ => .next rfl
  case outFp2 v => exact (execOutFp2_keepsStatAndCpu v s).mono fun _ h => h.cpu
  case fdcSetcmd | fdcSetdma | fdcExec | fdcIgnored | fdcAddrbyte | hwkeyUnlock | hwkeyIgnored | hwKeybyte | hwHalt |
      hwReset | hwZ80 | hwI8080 | hwNop | fdcblkRead | fdcblkWrite | fdcblkOther => cases hio
  all_goals exact .next rfl

end Sys2Proof.Machine
end

section

namespace Sys2Proof.Machine

/-- Settles O47: of the rows that a transaction word decodes to, only the bad bank and the hardware control port can write
the CPU interface, the port only as an accepted command. -/
theorem onlyTwoHaltCauses : Obligations.OnlyTwoHaltCauses := by
  intro s t w rest hp ht hne
  rw [step_of_pending_transaction hp, fetchInstr_eq_decode] at ht
  have hio := (decode_encodes s.cfg (.io w)).code_eq
  cases hi : decode s.cfg (.io w)
  case outMmuNoSuchBank v =>
    rw [hi] at ht
    exact .inl ⟨v, rfl, (exec_outMmuNoSuchBank_cpu v _ t ht).resolve_left hne⟩
  case outHwctl v =>
    rw [hi] at ht
    obtain ⟨hunlocked, hlocked, hcmd⟩ := (exec_outHwctl_cpu v _ t ht).resolve_left hne
    refine .inr ⟨v, rfl, hunlocked, hlocked, ?_⟩
    cases hcmd with
    | kept h => exact absurd h hne
    | halted hbit7 h => rw [hbit7]; simp [h]
    | booted hbit7 hbit6 h => rw [hbit7, hbit6]; simp [h]
    | switched hbit7 hbit6 h => rw [hbit7, hbit6, h]; simp
  all_goals exact absurd (exec_keepsCpu hio (by simp [hi]) (by simp [hi]) _ t ht) hne

end Sys2Proof.Machine
end

section
/-! Power-on: what it leaves in the registers, and the slots of a loaded record after `verify_all`
(70_reset_and_hazards.md R280, 44_host_disk_registry.md R223, R226). -/

namespace Sys2Proof.Machine

variable {s : State} {r : List Byte}

/-! ## The frame of `verify_all` -/

@[simp] theorem State.verified_cfg (s : State) : s.verified.cfg = s.cfg := by
  rw [State.verified_eq]

@[simp] theorem State.verified_fs (s : State) : s.verified.fs = s.fs := by
  rw [State.verified_eq]

@[simp] theorem State.verified_record (s : State) : s.verified.record = s.record := by
  rw [State.verified_eq]

@[simp] theorem State.verified_fpValue (s : State) : s.verified.fpValue = s.fpValue := by
  rw [State.verified_eq]

@[simp] theorem State.verified_cpu (s : State) : s.verified.cpu = s.cpu := by
  rw [State.verified_eq]

@[simp] theorem State.verified_disk_length (s : State) : s.verified.disk.length = s.disk.length :=
  s.verifySlots_length s.disk

/-! ## The slots that `verify_all` leaves -/

/-- Only a path whose file is there passes its probe (20_memory.md R70 a). -/
theorem State.fileOf_ne_none_of_mem_verifySlots {ps : List Path} {q : Path} (hq : q ∈ (s.verifySlots ps).1)
    (hfull : q ≠ []) : s.fileOf q ≠ none := by
  induction ps generalizing s with
  | nil => exact absurd hq List.not_mem_nil
  | cons p ps ih =>
    have hrest (h : q ∈ (s.outcomeTaken.verifySlots ps).1) : s.fileOf q ≠ none := s.outcomeTaken_fileOf q ▸ ih h
    rw [State.verifySlots] at hq
    split_ifs at hq with hempty hopen
    · exact (List.mem_cons.1 hq).elim (absurd · hfull) ih
    · rcases List.mem_cons.1 hq with rfl | h
      · simp only [State.opens, Bool.and_eq_true] at hopen
        exact Option.isSome_iff_ne_none.1 hopen.1
      · exact hrest h
    · exact (List.mem_cons.1 hq).elim (absurd · hfull) hrest

theorem State.slot_mem_disk {d : Nat} (hfull : s.slot d ≠ []) : s.slot d ∈ s.disk := by
  rcases Nat.lt_or_ge d s.disk.length with hd | hd
  · rw [State.slot, List.getD_eq_getElem _ _ hd]
    exact List.getElem_mem hd
  · exact absurd (List.getD_eq_default _ _ hd) hfull

theorem State.verified_slot_of_no_file {d : Nat} (hfile : s.fileOf (s.slot d) = none) : s.verified.slot d = [] := by
  by_contra hfull
  have hkept : s.verified.slot d = s.slot d := (s.verified_slot d).resolve_right hfull
  exact State.fileOf_ne_none_of_mem_verifySlots (State.slot_mem_disk hfull) hfull (hkept ▸ hfile)

/-- Where every probe is answered with success, the dangling slots are the ones emptied. -/
theorem AnswersOk.verified_slot (h : AnswersOk s s.disk.length) (d : Nat) :
    s.verified.slot d = if s.dangles (s.slot d) then [] else s.slot d := by
  have hdisk : s.verified.disk = s.disk.map fun p => if s.dangles p then [] else p := h.verifySlots.1
  rw [State.slot, hdisk, State.slot]
  exact List.getD_map s.disk [] _

theorem AnswersOk.verified_slot_of_file (h : AnswersOk s s.disk.length) {d : Nat} (hfile : s.fileOf (s.slot d) ≠ none) :
    s.verified.slot d = s.slot d := by
  rw [h.verified_slot, if_neg]
  simp [State.dangles, hfile]

theorem State.verifyHangs_of_slot {d : Nat} (hstall : s.storageStalled = true) (hfull : s.slot d ≠ []) :
    s.verifyHangs = true := by
  simp only [State.verifyHangs, hstall, Bool.true_and, List.any_eq_true, decide_eq_true_iff]
  exact ⟨_, State.slot_mem_disk hfull, hfull⟩

/-! ## The record loaded -/

theorem State.loadRecord_disk_length (s : State) (r : List Byte) : (s.loadRecord r).disk.length = s.cfg.numDrives := by
  simp [State.loadRecord]

theorem State.loadRecord_slot (s : State) (r : List Byte) {d : Nat} (hd : d < s.cfg.numDrives) :
    (s.loadRecord r).slot d = recordPath s.cfg r d := by
  simp [State.slot, State.loadRecord, recordPath, hd]

theorem State.loadRecord_fpValue (s : State) (hlen : r.length = s.cfg.recordSize) :
    r[s.cfg.modelW + s.cfg.speedW]? = some (s.loadRecord r).fpValue := by
  have hin : s.cfg.modelW + s.cfg.speedW < r.length := by rw [hlen, Config.recordSize]; omega
  rw [List.getElem?_eq_getElem hin, State.loadRecord, List.getD_eq_getElem _ _ hin]

theorem State.loadRecord_model (s : State) (hc : s.cfg.Valid) {m : CpuModel}
    (hsel : recordField r 0 s.cfg.modelW = selectorOf s.cfg m) : (s.loadRecord r).cpu.model = m := by
  simp only [State.loadRecord, hsel, modelOf_selectorOf hc]

/-! ## Power-on -/

theorem poweredOn_reset : PoweredOn State.reset :=
  ⟨rfl, rfl, rfl, rfl, rfl, rfl, rfl, rfl, rfl⟩

theorem poweredOn_powerOnBase (s : State) : PoweredOn s.powerOnBase :=
  ⟨rfl, rfl, rfl, rfl, rfl, rfl, rfl, rfl, rfl⟩

theorem PoweredOn.loadRecord (h : PoweredOn s) (r : List Byte) : PoweredOn (s.loadRecord r) := { h with }

theorem PoweredOn.verified (h : PoweredOn s) : PoweredOn s.verified := by
  rw [State.verified_eq]
  exact { h with }

theorem runEnv_powerOn_of_no_record (h : s.record = none) : runEnv .powerOn s = .next s.powerOnBase := by
  simp only [runEnv, envPowerOn, h]

/-- The state in which a power-on runs `verify_all` (R280 steps 1 to 3). -/
def State.powerOnLoaded (s : State) (r : List Byte) : State := s.powerOnBase.loadRecord r

theorem runEnv_powerOn_of_record (h : s.record = some r) (hlen : r.length = s.cfg.recordSize) :
    runEnv .powerOn s =
      if (s.powerOnLoaded r).verifyHangs then .fault .storageStalled else .next (s.powerOnLoaded r).verified := by
  simp only [runEnv, envPowerOn, h]
  exact if_neg (not_not.2 hlen)

theorem State.powerOnLoaded_slot (s : State) (r : List Byte) {d : Nat} (hd : d < s.cfg.numDrives) :
    (s.powerOnLoaded r).slot d = recordPath s.cfg r d :=
  s.powerOnBase.loadRecord_slot r hd

end Sys2Proof.Machine
end

section
/-! The sequencer under stray bytes (70_reset_and_hazards.md R285). -/

namespace Sys2Proof

/-- Where one byte that is no operation code moves the sequencer: an address wants a low byte, then a high byte. -/
def FdcSeq.afterStray : FdcSeq → FdcSeq
  | .cmdLo => .cmdHi
  | .dmaLo => .dmaHi
  | .idle | .cmdHi | .dmaHi => .idle

theorem FdcSeq.afterStray_afterStray (q : FdcSeq) : q.afterStray.afterStray = .idle := by
  cases q <;> rfl

namespace Machine

/-- An address byte writes half of one address register, in `IDLE` none. -/
theorem exec_fdcAddrbyte_eq (s : State) (b : Byte) :
    ∃ a d, exec (.fdcAddrbyte b) s =
      .next { s with fdcSeq := s.fdcSeq.afterStray, fdcCmdAddr := a, fdcDmaAddr := d, result := none } := by
  cases hseq : s.fdcSeq with
  | idle | cmdLo | cmdHi | dmaLo | dmaHi =>
    simp only [exec, execFdcAddrbyte, State.noAnswer, hseq, FdcSeq.afterStray]
    exact ⟨_, _, rfl⟩

theorem exec_outFdcCmd_of_not_op {s : State} {b : Byte} (hb : s.cfg.isFdcOp b = false) :
    ∃ a d, exec (.outFdcCmd b) s =
      .next { s with fdcSeq := s.fdcSeq.afterStray, fdcCmdAddr := a, fdcDmaAddr := d, result := none } := by
  by_cases hidle : s.fdcSeq = .idle
  · rw [exec_outFdcCmd_of_idle hidle, decodeFdcOp_of_not_op hb, hidle, FdcSeq.afterStray, ← hidle]
    exact ⟨_, _, rfl⟩
  · rw [exec_outFdcCmd_of_ne_idle hidle]
    exact exec_fdcAddrbyte_eq s b

end Machine
end Sys2Proof
end

section

namespace Sys2Proof.Machine

/-- Settles O60: the registers are those of the reset, the fields those of the record, and `verify_all` then leaves or
empties each slot; a path to probe keeps it waiting for a storage layer that never answers. -/
theorem powerOnLoadsRecord : Obligations.PowerOnLoadsRecord := by
  intro s r hc hr hlen
  have hrun := runEnv_powerOn_of_record hr hlen
  have hslot (d : Nat) (hd : d < s.cfg.numDrives) := s.powerOnLoaded_slot r hd
  have hslots : (s.powerOnLoaded r).disk.length = s.cfg.numDrives := s.powerOnBase.loadRecord_disk_length r
  refine ⟨fun hstall => ?answers, fun hstall ⟨d, hd, hpath⟩ => ?stalled⟩
  case answers =>
    have hanswers : (s.powerOnLoaded r).storageStalled = false := hstall
    rw [State.verifyHangs, hanswers, Bool.false_and, if_neg Bool.false_ne_true] at hrun
    refine ⟨_, hrun, ((poweredOn_powerOnBase s).loadRecord r).verified, State.verified_cfg _, State.verified_fs _,
      State.verified_record _, ?fp, fun h => ?z80, fun h => ?i8080, ?speed, ?slots, fun d hd => ?left, fun d hd h => ?gone,
      fun hok henough d hd h => ?kept⟩
    case fp => rw [State.verified_fpValue]; exact s.powerOnBase.loadRecord_fpValue hlen
    case z80 => rw [State.verified_cpu]; exact s.powerOnBase.loadRecord_model hc (m := .z80) h
    case i8080 => rw [State.verified_cpu]; exact s.powerOnBase.loadRecord_model hc (m := .i8080) h
    case speed => rw [State.verified_cpu]; rfl
    case slots => rw [State.verified_disk_length, hslots]
    case left => exact hslot d hd ▸ State.verified_slot _ d
    case gone => exact State.verified_slot_of_no_file (hslot d hd ▸ h)
    case kept =>
      have hans : AnswersOk (s.powerOnLoaded r) (s.powerOnLoaded r).disk.length := ⟨hok, hslots ▸ henough⟩
      rw [hans.verified_slot_of_file (hslot d hd ▸ h), hslot d hd]
  case stalled =>
    have hhangs := State.verifyHangs_of_slot (s := s.powerOnLoaded r) hstall (hslot d hd ▸ hpath)
    rw [hrun, if_pos hhangs]

/-- Settles O26: one stray byte moves the sequencer on, and from every state two moves end in `IDLE`. -/
theorem twoStrayBytesForceIdle : Obligations.TwoStrayBytesForceIdle := by
  intro s b hb
  obtain ⟨a, d, hfirst⟩ := exec_outFdcCmd_of_not_op hb
  rw [execSeq_cons hfirst]
  obtain ⟨a', d', hsecond⟩ := exec_outFdcCmd_of_not_op
    (s := { s with fdcSeq := s.fdcSeq.afterStray, fdcCmdAddr := a, fdcDmaAddr := d, result := none }) hb
  rw [execSeq_cons hsecond, FdcSeq.afterStray_afterStray]
  exact ⟨a', d', rfl⟩

/-- Settles O56: without a record nothing is loaded, and no slot is left to verify. -/
theorem resetValues : Obligations.ResetValues :=
  ⟨⟨poweredOn_reset, rfl⟩, fun s h =>
    ⟨s.powerOnBase, runEnv_powerOn_of_no_record h, ⟨poweredOn_powerOnBase s, rfl⟩, rfl, rfl, rfl⟩⟩

end Sys2Proof.Machine
end
